-- ==== Sys2Proof/Word.lean ====
section
/-! DEFINITION. The machine's words: a byte, a 24-bit command word, a one-bit level on a pin
(00_scope.md R11, 30_encoding.md R92, 10_state.md R35). -/

namespace Sys2Proof

/-- "A byte is 8 bits" (R11). -/
abbrev Byte := BitVec 8

/-- "Every command is one 24-bit word" (R92). -/
abbrev Word := BitVec 24

/-- The level of a line: LOW = 0, HIGH = 1 (R35, R103). -/
inductive Level where
  | low
  | high
deriving DecidableEq, Repr, Inhabited

/-- The direction of a pin: IN = 0, OUT = 1 (R35, R103). -/
inductive Dir where
  | input
  | output
deriving DecidableEq, Repr, Inhabited

/-- One pin: its direction and its output level (R35). -/
structure Pin where
  dir   : Dir
  level : Level
deriving DecidableEq, Repr, Inhabited

end Sys2Proof
end

