-- ==== Sys2Proof/Config.lean ====
section
/-! DEFINITION. What is fixed for the machine and what the spec leaves to others: the parameters of
00_scope.md R9, the environment's inputs (00_scope.md R15, 30_encoding.md R90), the main loop's
pseudo-instructions (30_encoding.md R106), and the free values, which have no body. -/

namespace Sys2Proof

/-- The parameter N, "a power of two, 2 <= N <= 256" (R9). Any other N is refused (R10): it cannot
be written down, and `RingSize.ofSlots?` answers none for it. -/
inductive RingSize where
  | n2 | n4 | n8 | n16 | n32 | n64 | n128 | n256
deriving DecidableEq, Repr, Inhabited

/-- IDX_BITS, the width of `head` and `tail`: log2(N) (R9). -/
def RingSize.idxBits : RingSize → Nat
  | .n2 => 1
  | .n4 => 2
  | .n8 => 3
  | .n16 => 4
  | .n32 => 5
  | .n64 => 6
  | .n128 => 7
  | .n256 => 8

/-- N, the number of storage slots (R9). -/
def RingSize.slots (n : RingSize) : Nat := 2 ^ n.idxBits

/-- The parameter check of R9 and R10: a number of slots outside R9 is refused. -/
def RingSize.ofSlots? (n : Nat) : Option RingSize :=
  [RingSize.n2, .n4, .n8, .n16, .n32, .n64, .n128, .n256].find? (fun z => z.slots == n)

namespace Config

/-- N of `State.reset`: "default 16" (R9). -/
def defaultSize : RingSize := .n16

/-- SENTINEL, "value `getByte` returns on an empty buffer" (R9). -/
def sentinel : Byte := 0x00#8

/-- PIN_BUS_DATA in the spec's numbering (R9). -/
def pinBusData : Byte := 0#8

/-- PIN_BUS_CLK in the spec's numbering (R9). -/
def pinBusClk : Byte := 1#8

/-- PIN_BUS_CS in the spec's numbering (R9). -/
def pinBusCs : Byte := 2#8

/-- LED_BITS, "number of meaningful bits of `leds`" (R9). -/
def ledBits : Nat := 6

/-- FMT_BITS, "width of the `value` operand of the number formatters" (R9). -/
def fmtBits : Nat := 16

/-- ATOMIC_BITS, "widest access that is single-copy atomic" (R9). -/
def atomicBits : Nat := 8

/-- CH_JOYX, an OPEN byte (R9, log 21). -/
opaque chJoyx : Byte

/-- CH_JOYY, an OPEN byte (R9, log 21). -/
opaque chJoyy : Byte

/-- CH_SPEED, an OPEN byte (R9, log 21). -/
opaque chSpeed : Byte

/-- One less than BAUD, OPEN (R9, log 21). -/
opaque baudPred : Nat

/-- BAUD, an OPEN positive number that no rule reads (R9, 92_eei_decisions.md). -/
def baud : Nat := baudPred + 1

/-- A free value: what slot `slot` of `storage` holds after power-on number `boot`, until a PUSH
writes it (R23, R49: "a free draw"; log 6). -/
opaque resetByte (boot slot : Nat) : Byte

end Config

/-- The three record fields that REFLECT.f names (R106). -/
inductive Reflected where
  | joyx | joyy | speedknob
deriving DecidableEq, Repr, Inhabited

/-- The pseudo-instructions of R106: "sequences of real operations issued by the consumer, with no
command word of their own". -/
inductive Pseudo where
  /-- `TXSTR s` (44_serial_tx.md R225). -/
  | txstr (s : List Byte)
  /-- `TXUNS value, base` (R227); `value` is FMT_BITS wide. -/
  | txuns (value : BitVec 16) (base : Nat)
  /-- `TXSGN value, base` (R229); `value` is two's complement. -/
  | txsgn (value : BitVec 16) (base : Nat)
  /-- `GETC` (R106). -/
  | getc
  /-- `REFLECT.f` (R106). -/
  | reflect (f : Reflected)
  /-- `CYCLE` (R106, 42_shared_state.md R200). -/
  | cycle
deriving DecidableEq, Repr, Inhabited

/-- The values a power-on draws where the spec states none (R49, R23, R46): SSR_RESET ("any legal
record", so `drivemode` is one of three), every pin's level, BUSDAT, TXDAT, `cphase` and the
temporaries. -/
structure PowerOnDraw where
  button1   : BitVec 1
  drivemode : Fin 3
  joyx      : Byte
  joyy      : Byte
  speedknob : Byte
  leds      : Byte
  flash     : Byte
  levels    : Vector Level 256
  busdat    : Byte
  txdat     : Byte
  cphase    : Nat
  tTail     : Nat
  tByte     : Byte
  tAddr     : Byte
  tVal      : Byte
  tCh       : Byte
deriving DecidableEq, Repr, Inhabited

/-- The draw `State.reset` takes: the spec's simulator default for the record (R9), zero and LOW for
the rest (log 3, log 4). -/
def PowerOnDraw.zero : PowerOnDraw where
  button1 := 0#1
  drivemode := 0
  joyx := 0#8
  joyy := 0#8
  speedknob := 0#8
  leds := 0#8
  flash := 0#8
  levels := Vector.replicate 256 .low
  busdat := 0#8
  txdat := 0#8
  cphase := 0
  tTail := 0
  tByte := 0#8
  tAddr := 0#8
  tVal := 0#8
  tCh := 0#8

/-- The agents of R15, one constructor per row of its table (the spec's decision D1: six agents). The
collaborators outside the block that act on it, the boot collaborator (R298) and the power supply
(R280), are parts of the environment (log 30). -/
inductive Agent where
  | producer | consumer | busEngine | txEngine | observer | environment
deriving DecidableEq, Repr, Inhabited

/-- One step of one agent, as the environment may choose it (R14, R15, R20, R90). -/
inductive Event where
  /-- A command word on `p_cmd`, from the receive interrupt context. -/
  | producer (w : Word)
  /-- A command word on `c_cmd`, from the main loop. -/
  | command (w : Word)
  /-- The consumer's next micro-step. -/
  | consumer
  /-- The main loop starts a pseudo-instruction. -/
  | pseudo (p : Pseudo)
  /-- `BUS.DONE`. -/
  | busDone
  /-- `TX.DONE`. -/
  | txDone
  /-- `OBS.READ(f)`, a field number on `o_sel`. -/
  | obsRead (f : BitVec 3)
  /-- The boot collaborator establishes `SerialConfigured` (R40). -/
  | serialConfigured
  /-- Power-on reset (R280), with what it draws for the unspecified values. -/
  | powerOn (d : PowerOnDraw)
deriving DecidableEq, Repr, Inhabited

/-- Which agent an event is a step of (R15). -/
def Event.agent : Event → Agent
  | .producer _ => .producer
  | .command _ => .consumer
  | .consumer => .consumer
  | .pseudo _ => .consumer
  | .busDone => .busEngine
  | .txDone => .txEngine
  | .obsRead _ => .observer
  | .serialConfigured => .environment
  | .powerOn _ => .environment

/-- A free value: the `n`-th step the environment chooses when no input is waiting (R298: any party
at any step boundary; log 1). -/
opaque Config.freeEvent (n : Nat) : Event

end Sys2Proof
end

