-- ==== Sys2Proof/Syntax.lean ====
section
/-! DEFINITION. The command words' operations, one constructor per row of the opcode map
(30_encoding.md R96, spec/opcode_table.json). -/

namespace Sys2Proof

/-- The 21 operations of R96, with their operands as fields of the word (R94). -/
inductive Instr where
  /-- `PUSH b`, `onByteReceived(byte)` (40_fifo.md R121). -/
  | push (b : Byte)
  /-- `AVAIL`, `available()` (R123). -/
  | avail
  /-- `POP`, `getByte()` (R124). -/
  | pop
  /-- `BUSINIT`, `initBus()` (41_bus.md R152). -/
  | businit
  /-- `BUSSEND a, v`, `sendTransaction(channelAddress, value)` (R154). -/
  | bussend (a v : Byte)
  /-- `RD.button1` (42_shared_state.md R182). -/
  | rdButton1
  /-- `RD.drivemode` (R183). -/
  | rdDrivemode
  /-- `RD.joyx` (R184). -/
  | rdJoyx
  /-- `RD.joyy` (R185). -/
  | rdJoyy
  /-- `RD.speedknob` (R186). -/
  | rdSpeedknob
  /-- `RD.leds` (R187). -/
  | rdLeds
  /-- `RD.flash` (R188). -/
  | rdFlash
  /-- `WR.button1 v` (R189). -/
  | wrButton1 (v : BitVec 1)
  /-- `WR.drivemode v` (R190); `v = 3` is reserved by value. -/
  | wrDrivemode (v : BitVec 2)
  /-- `WR.joyx v` (R191). -/
  | wrJoyx (v : Byte)
  /-- `WR.joyy v` (R192). -/
  | wrJoyy (v : Byte)
  /-- `WR.speedknob v` (R193). -/
  | wrSpeedknob (v : Byte)
  /-- `WR.leds v` (R194). -/
  | wrLeds (v : Byte)
  /-- `WR.flash v` (R195). -/
  | wrFlash (v : Byte)
  /-- `PINCFG pin, level`, `configureOutput(pin, initialLevel)` (43_pin.md R211). -/
  | pincfg (pin : Byte) (level : Level)
  /-- `TXBYTE ch`, `sendByte(ch)` (44_serial_tx.md R221). -/
  | txbyte (ch : Byte)
deriving DecidableEq, Repr, Inhabited

end Sys2Proof
end

