-- ==== Sys2Proof/WellFormed.lean ====
section
/-! DEFINITION. The one check an instruction's operands must pass beyond their widths: the mode code
3 does not exist (10_state.md R28, 30_encoding.md R99). -/

namespace Sys2Proof

/-- An instruction some command word stands for: `WR.drivemode 3` is "reserved by value" (R99). -/
def Instr.wf : Instr → Bool
  | .wrDrivemode v => v != 3#2
  | .push _ => true
  | .avail => true
  | .pop => true
  | .businit => true
  | .bussend _ _ => true
  | .rdButton1 => true
  | .rdDrivemode => true
  | .rdJoyx => true
  | .rdJoyy => true
  | .rdSpeedknob => true
  | .rdLeds => true
  | .rdFlash => true
  | .wrButton1 _ => true
  | .wrJoyx _ => true
  | .wrJoyy _ => true
  | .wrSpeedknob _ => true
  | .wrLeds _ => true
  | .wrFlash _ => true
  | .pincfg _ _ => true
  | .txbyte _ => true

end Sys2Proof
end

