-- ==== Sys2Proof/Decode.lean ====
section
/-! DEFINITION. Reading a command word and writing one: 30_encoding.md R92 to R101. Decoding is total
on 24-bit words and rejects by name (R99). -/

namespace Sys2Proof

/-- Why a word selects no operation (R99). -/
inductive Reject where
  /-- "every opcode not listed". -/
  | reservedOpcode
  /-- "a listed opcode with a nonzero bit in an operand position its format requires to be zero". -/
  | operandNotZero
  /-- "`WR.drivemode` with `b[1:0] == 3`". -/
  | reservedValue
deriving DecidableEq, Repr, Inhabited

/-- Bits 23:16 (R92). -/
def opField (w : Word) : Byte := w.extractLsb' 16 8

/-- Bits 15:8 (R92). -/
def aField (w : Word) : Byte := w.extractLsb' 8 8

/-- Bits 7:0 (R92). -/
def bField (w : Word) : Byte := w.extractLsb' 0 8

/-- The word with the three fields of R92. -/
def mkWord (op a b : Byte) : Word := op ++ a ++ b

/-- A pin level from its bit (R94: 0 = LOW, 1 = HIGH). -/
def levelOfBit (b : BitVec 1) : Level := if b = 1#1 then .high else .low

/-- The bit of a pin level (R94). -/
def bitOfLevel : Level → BitVec 1
  | .low => 0#1
  | .high => 1#1

/-- Format Z: both operand bytes zero (R93). -/
def formatZ (w : Word) (i : Instr) : Except Reject Instr :=
  if aField w = 0#8 ∧ bField w = 0#8 then .ok i else .error .operandNotZero

/-- Format B: `a` zero, `b` the operand byte (R93). -/
def formatB (w : Word) (k : Byte → Instr) : Except Reject Instr :=
  if aField w = 0#8 then .ok (k (bField w)) else .error .operandNotZero

/-- Format B1: `a` zero, bits 7:1 of `b` zero, bit 0 the operand (R93). -/
def formatB1 (w : Word) (k : BitVec 1 → Instr) : Except Reject Instr :=
  if aField w = 0#8 ∧ (bField w).extractLsb' 1 7 = 0#7 then .ok (k ((bField w).extractLsb' 0 1))
  else .error .operandNotZero

/-- Format B2, used by `WR.drivemode` alone: `a` zero, bits 7:2 of `b` zero, bits 1:0 the mode code,
of which 3 is reserved by value (R93, R99, R101 point 3). -/
def formatB2 (w : Word) (k : BitVec 2 → Instr) : Except Reject Instr :=
  if aField w = 0#8 ∧ (bField w).extractLsb' 2 6 = 0#6 then
    if (bField w).extractLsb' 0 2 = 3#2 then .error .reservedValue
    else .ok (k ((bField w).extractLsb' 0 2))
  else .error .operandNotZero

/-- Format AB: two operand bytes (R93). -/
def formatAB (w : Word) (k : Byte → Byte → Instr) : Except Reject Instr :=
  .ok (k (aField w) (bField w))

/-- Format AB1: `a` the pin id, bits 7:1 of `b` zero, bit 0 the level (R93). -/
def formatAB1 (w : Word) (k : Byte → Level → Instr) : Except Reject Instr :=
  if (bField w).extractLsb' 1 7 = 0#7 then .ok (k (aField w) (levelOfBit ((bField w).extractLsb' 0 1)))
  else .error .operandNotZero

/-- Points (1) to (3) of R101: the row of R96 the word selects, or the name of the reason it selects
none (R99). -/
def decode (w : Word) : Except Reject Instr :=
  match (opField w).toNat with
  | 0x01 => formatB w .push
  | 0x10 => formatZ w .avail
  | 0x11 => formatZ w .pop
  | 0x20 => formatZ w .businit
  | 0x21 => formatAB w .bussend
  | 0x30 => formatZ w .rdButton1
  | 0x31 => formatZ w .rdDrivemode
  | 0x32 => formatZ w .rdJoyx
  | 0x33 => formatZ w .rdJoyy
  | 0x34 => formatZ w .rdSpeedknob
  | 0x35 => formatZ w .rdLeds
  | 0x36 => formatZ w .rdFlash
  | 0x38 => formatB1 w .wrButton1
  | 0x39 => formatB2 w .wrDrivemode
  | 0x3A => formatB w .wrJoyx
  | 0x3B => formatB w .wrJoyy
  | 0x3C => formatB w .wrSpeedknob
  | 0x3D => formatB w .wrLeds
  | 0x3E => formatB w .wrFlash
  | 0x40 => formatAB1 w .pincfg
  | 0x50 => formatB w .txbyte
  | _ => .error .reservedOpcode

/-- The opcode of an instruction (R96). -/
def Instr.opcode : Instr → Byte
  | .push _ => 0x01#8
  | .avail => 0x10#8
  | .pop => 0x11#8
  | .businit => 0x20#8
  | .bussend _ _ => 0x21#8
  | .rdButton1 => 0x30#8
  | .rdDrivemode => 0x31#8
  | .rdJoyx => 0x32#8
  | .rdJoyy => 0x33#8
  | .rdSpeedknob => 0x34#8
  | .rdLeds => 0x35#8
  | .rdFlash => 0x36#8
  | .wrButton1 _ => 0x38#8
  | .wrDrivemode _ => 0x39#8
  | .wrJoyx _ => 0x3A#8
  | .wrJoyy _ => 0x3B#8
  | .wrSpeedknob _ => 0x3C#8
  | .wrLeds _ => 0x3D#8
  | .wrFlash _ => 0x3E#8
  | .pincfg _ _ => 0x40#8
  | .txbyte _ => 0x50#8

/-- The operand byte `a` of an instruction's word (R93). -/
def Instr.operandA : Instr → Byte
  | .bussend a _ => a
  | .pincfg pin _ => pin
  | .push _ | .avail | .pop | .businit | .rdButton1 | .rdDrivemode | .rdJoyx | .rdJoyy
  | .rdSpeedknob | .rdLeds | .rdFlash | .wrButton1 _ | .wrDrivemode _ | .wrJoyx _ | .wrJoyy _
  | .wrSpeedknob _ | .wrLeds _ | .wrFlash _ | .txbyte _ => 0#8

/-- The operand byte `b` of an instruction's word (R93, R94). -/
def Instr.operandB : Instr → Byte
  | .push b => b
  | .bussend _ v => v
  | .wrButton1 v => v.setWidth 8
  | .wrDrivemode v => v.setWidth 8
  | .wrJoyx v => v
  | .wrJoyy v => v
  | .wrSpeedknob v => v
  | .wrLeds v => v
  | .wrFlash v => v
  | .pincfg _ level => (bitOfLevel level).setWidth 8
  | .txbyte ch => ch
  | .avail | .pop | .businit | .rdButton1 | .rdDrivemode | .rdJoyx | .rdJoyy | .rdSpeedknob
  | .rdLeds | .rdFlash => 0#8

/-- The command word of an instruction (R92, R93, R96). -/
def encode (i : Instr) : Word := mkWord i.opcode i.operandA i.operandB

/-- The mask of an instruction's row in the opcode map (R96). -/
def Instr.rowMask : Instr → Word
  | .push _ => 0xFFFF00#24
  | .avail | .pop | .businit => 0xFFFFFF#24
  | .bussend _ _ => 0xFF0000#24
  | .rdButton1 | .rdDrivemode | .rdJoyx | .rdJoyy | .rdSpeedknob | .rdLeds | .rdFlash => 0xFFFFFF#24
  | .wrButton1 _ => 0xFFFFFE#24
  | .wrDrivemode _ => 0xFFFFFC#24
  | .wrJoyx _ | .wrJoyy _ | .wrSpeedknob _ | .wrLeds _ | .wrFlash _ => 0xFFFF00#24
  | .pincfg _ _ => 0xFF00FE#24
  | .txbyte _ => 0xFFFF00#24

/-- The match value of an instruction's row in the opcode map (R96). -/
def Instr.rowMatch : Instr → Word
  | .push _ => 0x010000#24
  | .avail => 0x100000#24
  | .pop => 0x110000#24
  | .businit => 0x200000#24
  | .bussend _ _ => 0x210000#24
  | .rdButton1 => 0x300000#24
  | .rdDrivemode => 0x310000#24
  | .rdJoyx => 0x320000#24
  | .rdJoyy => 0x330000#24
  | .rdSpeedknob => 0x340000#24
  | .rdLeds => 0x350000#24
  | .rdFlash => 0x360000#24
  | .wrButton1 _ => 0x380000#24
  | .wrDrivemode _ => 0x390000#24
  | .wrJoyx _ => 0x3A0000#24
  | .wrJoyy _ => 0x3B0000#24
  | .wrSpeedknob _ => 0x3C0000#24
  | .wrLeds _ => 0x3D0000#24
  | .wrFlash _ => 0x3E0000#24
  | .pincfg _ _ => 0x400000#24
  | .txbyte _ => 0x500000#24

/-- The rows of the opcode map as (match, mask) pairs, in its order (R96). -/
def opcodeRows : List (Word × Word) :=
  [(0x010000#24, 0xFFFF00#24), (0x100000#24, 0xFFFFFF#24), (0x110000#24, 0xFFFFFF#24),
   (0x200000#24, 0xFFFFFF#24), (0x210000#24, 0xFF0000#24), (0x300000#24, 0xFFFFFF#24),
   (0x310000#24, 0xFFFFFF#24), (0x320000#24, 0xFFFFFF#24), (0x330000#24, 0xFFFFFF#24),
   (0x340000#24, 0xFFFFFF#24), (0x350000#24, 0xFFFFFF#24), (0x360000#24, 0xFFFFFF#24)] ++
  [(0x380000#24, 0xFFFFFE#24), (0x390000#24, 0xFFFFFC#24), (0x3A0000#24, 0xFFFF00#24),
   (0x3B0000#24, 0xFFFF00#24), (0x3C0000#24, 0xFFFF00#24), (0x3D0000#24, 0xFFFF00#24),
   (0x3E0000#24, 0xFFFF00#24), (0x400000#24, 0xFF00FE#24), (0x500000#24, 0xFFFF00#24)]

/-- The field number of a record operation, `op[2:0]` (R97). -/
def fieldNumber (w : Word) : BitVec 3 := (opField w).extractLsb' 0 3

/-- The two ports a command word may be presented on (R90). -/
inductive Port where
  | producer
  | consumer
deriving DecidableEq, Repr, Inhabited

/-- The port that may carry an instruction: "only `PUSH` is legal" on the producer port, "every
operation but `PUSH`" on the consumer port (R90, R96, R100). -/
def Instr.port : Instr → Port
  | .push _ => .producer
  | .avail | .pop | .businit | .bussend _ _ | .rdButton1 | .rdDrivemode | .rdJoyx | .rdJoyy
  | .rdSpeedknob | .rdLeds | .rdFlash | .wrButton1 _ | .wrDrivemode _ | .wrJoyx _ | .wrJoyy _
  | .wrSpeedknob _ | .wrLeds _ | .wrFlash _ | .pincfg _ _ | .txbyte _ => .consumer

/-- The mnemonic, the spec's spelling (00_scope.md R18, 30_encoding.md R96). -/
def Instr.mnemonic : Instr → String
  | .push _ => "PUSH"
  | .avail => "AVAIL"
  | .pop => "POP"
  | .businit => "BUSINIT"
  | .bussend _ _ => "BUSSEND"
  | .rdButton1 => "RD.button1"
  | .rdDrivemode => "RD.drivemode"
  | .rdJoyx => "RD.joyx"
  | .rdJoyy => "RD.joyy"
  | .rdSpeedknob => "RD.speedknob"
  | .rdLeds => "RD.leds"
  | .rdFlash => "RD.flash"
  | .wrButton1 _ => "WR.button1"
  | .wrDrivemode _ => "WR.drivemode"
  | .wrJoyx _ => "WR.joyx"
  | .wrJoyy _ => "WR.joyy"
  | .wrSpeedknob _ => "WR.speedknob"
  | .wrLeds _ => "WR.leds"
  | .wrFlash _ => "WR.flash"
  | .pincfg _ _ => "PINCFG"
  | .txbyte _ => "TXBYTE"

/-- The operands in the order they are written (R105), as decimal numbers (R104). -/
def Instr.operands : Instr → List String
  | .push b => [toString b.toNat]
  | .bussend a v => [toString a.toNat, toString v.toNat]
  | .wrButton1 v => [toString v.toNat]
  | .wrDrivemode v => [toString v.toNat]
  | .wrJoyx v => [toString v.toNat]
  | .wrJoyy v => [toString v.toNat]
  | .wrSpeedknob v => [toString v.toNat]
  | .wrLeds v => [toString v.toNat]
  | .wrFlash v => [toString v.toNat]
  | .pincfg pin level => [toString pin.toNat, toString (bitOfLevel level).toNat]
  | .txbyte ch => [toString ch.toNat]
  | .avail | .pop | .businit | .rdButton1 | .rdDrivemode | .rdJoyx | .rdJoyy | .rdSpeedknob
  | .rdLeds | .rdFlash => []

/-- The assembler line of an instruction in the mnemonic spelling: "the mnemonic then the operands
separated by commas" (R104). -/
def Instr.assembly (i : Instr) : String :=
  match i.operands with
  | [] => i.mnemonic
  | ops => i.mnemonic ++ " " ++ String.intercalate ", " ops

/-- The instruction a row's word stands for, its bits numbered as spec/opcode_table.json numbers
them; bits above `nbits` are zero. -/
def decodeTableWord (nbits w : Nat) : Option Instr :=
  match decode (BitVec.ofNat 24 (w % 2 ^ nbits)) with
  | .ok i => some i
  | .error _ => none

end Sys2Proof
end

