-- ==== Sys2Proof/Machine/State.lean ====
section
/-! DEFINITION. The machine's state as plain data: everything 10_state.md R20 lists, the output ports of
30_encoding.md R90, and the model's own fields (the parameter N, what the main loop has still to
issue, the inputs waiting to happen, two counters for free values). -/

namespace Sys2Proof.Machine

/-- `storage` (R23, R60): the slots some PUSH has written since power-on, each with its byte, slots
strictly rising. A slot not listed holds no written value (log 6). -/
abbrev Memory := List Host.Cell

/-- The ring buffer (R21, R22, R23). `head` and `tail` are read modulo N (`State.headIdx`,
`State.tailIdx`), as registers of IDX_BITS bits are (log 7). -/
structure Ring where
  storage : Memory
  head    : Nat
  tail    : Nat
deriving DecidableEq, Repr, Inhabited

/-- The Shared State Record (R26 to R32). -/
structure Ssr where
  button1   : BitVec 1
  drivemode : BitVec 2
  joyx      : Byte
  joyy      : Byte
  speedknob : Byte
  leds      : Byte
  flash     : Byte
deriving DecidableEq, Repr, Inhabited

/-- `BUSCTL` (R36): bit 0 `EN`, bit 1 `MSTR`, bit 2 `X2`. -/
structure BusCtl where
  en   : Bool
  mstr : Bool
  x2   : Bool
deriving DecidableEq, Repr, Inhabited

/-- What the block has done on the bus (R44). -/
inductive BusEvent where
  | csFall
  | xfer (b : Byte)
  | csRise
deriving DecidableEq, Repr, Inhabited

/-- The pins (R35): `pin[p].dir` and `pin[p].level` for every pin id `p`, 0 to 255. -/
structure Pins where
  dir   : Vector Dir 256
  level : Vector Level 256
deriving DecidableEq, Repr

/-- The bus peripheral (R36, R37, R38, R44). -/
structure Bus where
  ctl   : BusCtl
  rdy   : Bool
  dat   : Byte
  busy  : Bool
  trace : List BusEvent
deriving DecidableEq, Repr, Inhabited

/-- `UCTL` (R40): bit 0 `RXEN`, bit 1 `TXEN`, bit 2 `RXIE`. -/
structure UCtl where
  rxen : Bool
  txen : Bool
  rxie : Bool
deriving DecidableEq, Repr, Inhabited

/-- The serial link (R40, R41, R42, R45). -/
structure Serial where
  ctl   : UCtl
  txrdy : Bool
  txdat : Byte
  busy  : Bool
  trace : List Byte
deriving DecidableEq, Repr, Inhabited

/-- The consumer's sequencer (R46): the operation in flight (none is IDLE), the number of its next
micro-step, and the temporaries. `tTail` is read modulo N (`State.tTailIdx`), as a register of IDX_BITS
bits is (log 7). While `cop` is IDLE the others have any value (R49, U5); what the model leaves in them
is said at `State.finish` (log 29). -/
structure Seq where
  cop    : Option Instr
  cphase : Nat
  tTail  : Nat
  tByte  : Byte
  tAddr  : Byte
  tVal   : Byte
  tCh    : Byte
deriving DecidableEq, Repr, Inhabited

/-- The latest completion on `c_rsp` (R90, R95): none since reset, one with no value, or a byte. -/
inductive Response where
  | noneYet
  | done
  | value (v : Byte)
deriving DecidableEq, Repr, Inhabited

/-- The output ports that carry results: `c_rsp` and `o_val` (R90; log 19). -/
structure Ports where
  rsp  : Response
  oVal : Option Byte
deriving DecidableEq, Repr, Inhabited

/-- What the main loop has still to issue of a pseudo-instruction (R106): a real operation, or one
that depends on the result of the operation before it. -/
inductive MainOp where
  /-- A real operation of an expansion. -/
  | op (i : Instr)
  /-- GETC's second half: "if `n != 0` then `POP -> v`". -/
  | popIfNonzero
  /-- REFLECT.f's second half: `BUSSEND CH_f, v` with the `v` just read. -/
  | sendRead (channel : Byte)
  /-- CYCLE's second half: `WR.drivemode next_mode(m)` with the `m` just read. -/
  | writeNextMode
deriving DecidableEq, Repr, Inhabited

/-- The world around the block: the model's own fields (log 1, log 6, log 20). -/
structure Env where
  pending : List MainOp
  inputs  : List Event
  tick    : Nat
  boots   : Nat
deriving DecidableEq, Repr, Inhabited

/-- The state: R20's tuple, the output ports, and the model's own `size` and `env`. -/
structure State where
  size  : RingSize
  ring  : Ring
  ssr   : Ssr
  pins  : Pins
  bus   : Bus
  ser   : Serial
  seq   : Seq
  ports : Ports
  env   : Env
deriving DecidableEq, Repr

/-- The block never faults: "There is no synchronous exception, no trap, no cause code and no error
return anywhere in the block" (60_exceptions.md R250), "Fault: none" (R268). Raised by nobody; an
empty type says so, which is safe. -/
inductive Fault where
deriving DecidableEq, Repr

/-- The spec gives no meaning (R99, R268: "a refusal is the spec declining to say"). Every one is
safe: nothing is claimed of a run that meets one. -/
inductive Refusal where
  /-- An instruction whose meaning is not written yet; raised by exec's arms only. Safe. -/
  | notModelled (mnemonic : String)
  /-- A reserved word, raised by the decoder on either port (R99). Safe. -/
  | reservedWord (r : Reject)
  /-- A legal word on the wrong port, raised by the decoder (R100, R263). Safe. -/
  | wrongPort
  /-- `WR.drivemode 3`, raised by the operation when it is issued without a word (R190). Safe. -/
  | reservedMode
  /-- `BUSSEND` before `BUSINIT`, raised by the operation (41_bus.md R157). Safe. -/
  | busNotInitialised
  /-- `PINCFG` of a bus pin after `BUSINIT`, raised by the operation (43_pin.md R212). Safe. -/
  | busPinOwned
  /-- `OBS.READ(7)`, raised by the observer port (R98). Safe. -/
  | noSuchField
  /-- `TXUNS` or `TXSGN` with a base outside 2 to 36, raised by the expansion (R230). Safe. -/
  | badBase
  /-- `TXSTR` of a sequence with no 0x00, raised by the expansion (R225). Safe. -/
  | unterminatedString
deriving DecidableEq, Repr

/-- The result of a step of this machine. -/
abbrev Result := Host.Outcome State Fault Refusal

/-- The state with another ring buffer. -/
def State.setRing (s : State) (r : Ring) : State := { s with ring := r }

/-- The state with another record. -/
def State.setSsr (s : State) (r : Ssr) : State := { s with ssr := r }

/-- The state with other pins. -/
def State.setPins (s : State) (p : Pins) : State := { s with pins := p }

/-- The state with another bus peripheral. -/
def State.setBus (s : State) (b : Bus) : State := { s with bus := b }

/-- The state with another serial link. -/
def State.setSer (s : State) (u : Serial) : State := { s with ser := u }

/-- The state with another sequencer. -/
def State.setSeq (s : State) (q : Seq) : State := { s with seq := q }

/-- The state with other output ports. -/
def State.setPorts (s : State) (p : Ports) : State := { s with ports := p }

/-- The state with another world around it. -/
def State.setEnv (s : State) (e : Env) : State := { s with env := e }

/-- The record a power-on draws: SSR_RESET (R49, R202). -/
def Ssr.ofDraw (d : PowerOnDraw) : Ssr where
  button1 := d.button1
  drivemode := BitVec.ofNat 2 d.drivemode.val
  joyx := d.joyx
  joyy := d.joyy
  speedknob := d.speedknob
  leds := d.leds
  flash := d.flash

/-- The machine right after reset, for every draw of the values R49 leaves unspecified or OPEN. -/
def State.resetWith (n : RingSize) (d : PowerOnDraw) : State where
  size := n
  ring := { storage := [], head := 0, tail := 0 }
  ssr := Ssr.ofDraw d
  pins := { dir := Vector.replicate 256 .input, level := d.levels }
  bus := { ctl := { en := false, mstr := false, x2 := false }, rdy := false, dat := d.busdat, busy := false, trace := [] }
  ser := { ctl := { rxen := false, txen := false, rxie := false }, txrdy := false, txdat := d.txdat, busy := false, trace := [] }
  seq := { cop := none, cphase := d.cphase, tTail := d.tTail % n.slots, tByte := d.tByte, tAddr := d.tAddr, tVal := d.tVal, tCh := d.tCh }
  ports := { rsp := .noneYet, oVal := none }
  env := { pending := [], inputs := [], tick := 0, boots := 0 }

/-- The machine right after reset (R49), at the default N and the zero draw (log 3, log 4, log 5,
log 7). -/
def State.reset : State := State.resetWith Config.defaultSize PowerOnDraw.zero

end Sys2Proof.Machine
end

