-- ==== Sys2Proof/Machine/Operands.lean ====
section
/-! DEFINITION. The operand and result forms: zero extension (30_encoding.md R95), field selection
(R97, R98), the drive-mode successor (42_shared_state.md R200), the digits and numerals of the
formatters (44_serial_tx.md R226 to R229), and the register images (10_state.md R34, R36,
60_exceptions.md R265). -/

namespace Sys2Proof.Machine

/-- `zext_8(v)` (00_scope.md R13). -/
def zext8 {w : Nat} (v : BitVec w) : Byte := v.setWidth 8

/-- The value of record field number `f`, zero-extended; there is no field 7 (R97, R98). -/
def Ssr.field (r : Ssr) (f : BitVec 3) : Option Byte :=
  match f.toNat with
  | 0 => some (zext8 r.button1)
  | 1 => some (zext8 r.drivemode)
  | 2 => some r.joyx
  | 3 => some r.joyy
  | 4 => some r.speedknob
  | 5 => some r.leds
  | 6 => some r.flash
  | _ => none

/-- `next_mode(m) = (m + 1) mod 3` (R28, R200). -/
def nextMode (m : BitVec 2) : BitVec 2 := BitVec.ofNat 2 ((m.toNat + 1) % 3)

/-- The status bits of `leds`, `[LED_BITS-1:0]` (R31). -/
def statusLeds (leds : Byte) : BitVec Config.ledBits := leds.setWidth Config.ledBits

/-- `digit(d)`: `0x30 + d` below 10, `0x61 + (d - 10)` from 10 on (R226). -/
def digit (d : Nat) : Byte :=
  if d < 10 then BitVec.ofNat 8 (0x30 + d) else BitVec.ofNat 8 (0x61 + (d - 10))

/-- `fmt_unsigned(value, base)` (R227), with a bound on the number of calls: "as many calls as the
number has digits (at most 16, for base 2 at FMT_BITS = 16)". -/
def fmtUnsignedIn : Nat → Nat → Nat → List Byte
  | 0, value, _ => [digit value]
  | calls + 1, value, base =>
    if base ≤ value then fmtUnsignedIn calls (value / base) base ++ [digit (value % base)]
    else [digit value]

/-- `fmt_unsigned(value, base)` (R227). -/
def fmtUnsigned (value base : Nat) : List Byte := fmtUnsignedIn Config.fmtBits value base

/-- `fmt_signed(value, base)`: "'-' then magnitude", the magnitude `(0 - value) mod 2^FMT_BITS` taken
as unsigned (R229). -/
def fmtSigned (value : BitVec 16) (base : Nat) : List Byte :=
  if value.msb then 0x2D#8 :: fmtUnsigned (0#16 - value).toNat base
  else fmtUnsigned value.toNat base

/-- "`base`, 2 to 36" (R227, R230). -/
def legalBase (base : Nat) : Bool := 2 ≤ base && base ≤ 36

/-- The bit of a flag. -/
def bit (b : Bool) : BitVec 1 := if b then 1#1 else 0#1

/-- `BUSCTL` as a byte (R36, R265). -/
def BusCtl.image (c : BusCtl) : Byte := 0#5 ++ bit c.x2 ++ bit c.mstr ++ bit c.en

/-- `BUSSTAT` as a byte (R37, R265). -/
def Bus.statImage (b : Bus) : Byte := 0#7 ++ bit b.rdy

/-- `UCTL` as a byte (R40, R265). -/
def UCtl.image (c : UCtl) : Byte := 0#5 ++ bit c.rxie ++ bit c.txen ++ bit c.rxen

/-- `USTAT` as a byte (R41, R265). -/
def Serial.statImage (u : Serial) : Byte := 0#7 ++ bit u.txrdy

/-- The record's packed image, byte `k` holding field number `k` (R34). -/
def Ssr.image (r : Ssr) : List Byte :=
  [zext8 r.button1, zext8 r.drivemode, r.joyx, r.joyy, r.speedknob, r.leds, r.flash]

end Sys2Proof.Machine
end

