-- ==== Sys2Proof/Machine/Ops.lean ====
section
/-! DEFINITION. The operations every meaning is made of: one byte of `storage` (20_memory.md R60, R61),
the index registers and their arithmetic (R63, R69), a pin (43_pin.md R211), the consumer's sequencer
(10_state.md R46). The block takes no exception (60_exceptions.md R250); its one interrupt is the
PUSH step itself, which saves and restores nothing (R257, R259). -/

namespace Sys2Proof.Machine

/-! ### storage -/

/-- The canonical form of memory: slots strictly rising. What an unlisted slot holds is no value at
all, so no entry can equal it. -/
abbrev Memory.wf (m : Memory) : Prop := m.Pairwise (fun x y => x.1 < y.1)

/-- The byte the PUSHes since power-on left in slot `a`, if any. -/
def Memory.read : Memory → Nat → Option Byte
  | [], _ => none
  | (k, b) :: m, a => if k = a then some b else Memory.read m a

/-- Slot `a` holding `v`, every other slot as before. -/
def Memory.write : Memory → Nat → Byte → Memory
  | [], a, v => [(a, v)]
  | (k, b) :: m, a, v =>
    if a < k then (a, v) :: (k, b) :: m
    else if k = a then (a, v) :: m
    else (k, b) :: Memory.write m a v

/-- N, the number of slots. -/
def State.slots (s : State) : Nat := s.size.slots

/-- `head`, a register of IDX_BITS bits, so always in `[0, N)` (R21). -/
def State.headIdx (s : State) : Nat := s.ring.head % s.slots

/-- `tail`, a register of IDX_BITS bits, so always in `[0, N)` (R22). -/
def State.tailIdx (s : State) : Nat := s.ring.tail % s.slots

/-- `t_tail`, a temporary of IDX_BITS bits, so always in `[0, N)` (R46). -/
def State.tTailIdx (s : State) : Nat := s.seq.tTail % s.slots

/-- `MemRead(i, 1)`: the byte in slot `i`; a slot no PUSH has written since power-on holds a free
value (R23, R49; log 6). -/
def State.readSlot (s : State) (i : Nat) : Byte :=
  match s.ring.storage.read i with
  | some b => b
  | none => Config.resetByte s.env.boots i

/-- `MemWrite(i, 1, v)`: `storage[i] <- v`. -/
def State.writeSlot (s : State) (i : Nat) (v : Byte) : State :=
  s.setRing { s.ring with storage := s.ring.storage.write i v }

/-! ### the index registers -/

/-- `(i + 1) mod N` (R69). -/
def nextIdx (n i : Nat) : Nat := (i + 1) % n

/-- `(tail - head) mod N`, the occupied count (R12, R69). -/
def occupied (n head tail : Nat) : Nat := (((tail : Int) - (head : Int)) % (n : Int)).toNat

/-- `head <- i`. -/
def State.setHead (s : State) (i : Nat) : State := s.setRing { s.ring with head := i }

/-- `tail <- i`. -/
def State.setTail (s : State) (i : Nat) : State := s.setRing { s.ring with tail := i }

/-! ### the pins -/

/-- `pin[p]` (R35). -/
def State.pin (s : State) (p : Byte) : Pin :=
  { dir := s.pins.dir[p.toNat], level := s.pins.level[p.toNat] }

/-- `pin[p] <- v`. -/
def State.setPin (s : State) (p : Byte) (v : Pin) : State :=
  s.setPins { dir := s.pins.dir.set p.toNat v.dir, level := s.pins.level.set p.toNat v.level }

/-- `pin[p] <- (dir = OUT, level = l)`, "both in the same step" (R211, R214). -/
def State.configureOutput (s : State) (p : Byte) (l : Level) : State :=
  s.setPin p { dir := .output, level := l }

/-- `pin[p].level <- l`, the direction as it is (R212, R154). -/
def State.driveLevel (s : State) (p : Byte) (l : Level) : State :=
  s.setPin p { s.pin p with level := l }

/-- What a pin drives: its level when it is an output, nothing when it is an input (R35). -/
def State.driven (s : State) (p : Byte) : Option Level :=
  match (s.pin p).dir with
  | .output => some (s.pin p).level
  | .input => none

/-- One of the three pins of the bus (R35, R212). -/
def isBusPin (p : Byte) : Bool :=
  p == Config.pinBusData || p == Config.pinBusClk || p == Config.pinBusCs

/-! ### the sequencer -/

/-- The number of the micro-step of `i` that is due: 1 when the consumer is IDLE and takes `i`,
`cphase` when `i` is in flight, none when another operation is (R46, R91). -/
def State.phaseOf (s : State) (i : Instr) : Option Nat :=
  match s.seq.cop with
  | none => some 1
  | some j => if j = i then some s.seq.cphase else none

/-- `cop = i`, `cphase <- k`. -/
def State.goto (s : State) (i : Instr) (k : Nat) : State :=
  s.setSeq { s.seq with cop := some i, cphase := k }

/-- The operation ends: `cop = IDLE` and the completion appears on `c_rsp` (R13 `return`, R95). The spec
lets `cphase` and the temporaries have any value from here on (R49, U5 of 93_implementation_defined.md);
DESIGN CHOICE: they keep the values the operation left, which no operation reads (log 29, unsafe). -/
def State.finish (s : State) (r : Response) : State :=
  (s.setSeq { s.seq with cop := none }).setPorts { s.ports with rsp := r }

/-- An operation of one micro-step: its effect when the consumer is IDLE; otherwise the port is busy
and the word is not taken (R91, R101 point 5). -/
def State.whenIdle (s : State) (effect : State → Result) : Result :=
  match s.seq.cop with
  | none => effect s
  | some _ => .next s

end Sys2Proof.Machine
end

