-- ==== Sys2Proof/Machine/Flags.lean ====
section
/-! DEFINITION. The two stored flags, RDY and TXRDY, with what sets and clears them, and the two
conditions that are computed (10_state.md R37, R41, R47). -/

namespace Sys2Proof.Machine

/-- `empty = (head == tail)` (R47). -/
def State.isEmpty (s : State) : Bool := s.headIdx == s.tailIdx

/-- `full = ((tail + 1) mod N == head)` (R47). -/
def State.isFull (s : State) : Bool := nextIdx s.slots s.tailIdx == s.headIdx

/-- A write of `BUSDAT`: "`BUSDAT <- d`, `BUSSTAT.RDY <- 0`, `bus_busy <- 1`" in one step (41_bus.md
R155). -/
def State.writeBusdat (s : State) (d : Byte) : State :=
  s.setBus { s.bus with dat := d, rdy := false, busy := true }

/-- A write of `TXDAT`: "`TXDAT <- d`, `USTAT.TXRDY <- 0`, `tx_busy <- 1`" in one step (44_serial_tx.md
R222). -/
def State.writeTxdat (s : State) (d : Byte) : State :=
  s.setSer { s.ser with txdat := d, txrdy := false, busy := true }

/-- `emit e to bus_trace` (R44). -/
def State.emitBus (s : State) (e : BusEvent) : State :=
  s.setBus { s.bus with trace := s.bus.trace ++ [e] }

/-- Whether `BUS.DONE` is enabled: "`bus_busy == 1` and `BUSCTL.EN == 1` and `BUSCTL.MSTR == 1`"
(R158). -/
def State.busDoneEnabled (s : State) : Bool := s.bus.busy && s.bus.ctl.en && s.bus.ctl.mstr

/-- `BUS.DONE`: "`emit XFER(BUSDAT) to bus_trace`; `bus_busy <- 0`; `BUSSTAT.RDY <- 1`" (R158). A
step the engine cannot take changes nothing (log 11). -/
def State.busDone (s : State) : State :=
  if s.busDoneEnabled then
    s.setBus { s.bus with trace := s.bus.trace ++ [.xfer s.bus.dat], busy := false, rdy := true }
  else s

/-- Whether `TX.DONE` is enabled: "`tx_busy == 1` and `UCTL.TXEN == 1`" (R223). -/
def State.txDoneEnabled (s : State) : Bool := s.ser.busy && s.ser.ctl.txen

/-- `TX.DONE`: "`emit TXDAT to tx_trace`; `tx_busy <- 0`; `USTAT.TXRDY <- 1`" (R223). A step the
engine cannot take changes nothing (log 11). -/
def State.txDone (s : State) : State :=
  if s.txDoneEnabled then
    s.setSer { s.ser with trace := s.ser.trace ++ [s.ser.txdat], busy := false, txrdy := true }
  else s

/-- The precondition of BUSSEND: "`BUSCTL.EN == 1`, `BUSCTL.MSTR == 1` and the three bus pins are
outputs" (R157). -/
def State.busReady (s : State) : Bool :=
  s.bus.ctl.en && s.bus.ctl.mstr && (s.pin Config.pinBusData).dir == .output &&
    (s.pin Config.pinBusClk).dir == .output && (s.pin Config.pinBusCs).dir == .output

end Sys2Proof.Machine
end

