-- ==== Sys2Proof/Machine/Bus.lean ====
section
/-! DEFINITION. The bus protocol driver: BUSINIT and BUSSEND (41_bus.md R152, R154). -/

namespace Sys2Proof.Machine

/-- `BUSINIT` (R152): the chip-select pin, the data pin, the clock pin, then the control register. A
second run is admitted (R153). -/
def execBusinit (s : State) : Result :=
  match s.phaseOf .businit with
  | none => .next s
  | some 1 => .next ((s.configureOutput Config.pinBusCs .high).goto .businit 2)
  | some 2 => .next ((s.configureOutput Config.pinBusData .low).goto .businit 3)
  | some 3 => .next ((s.configureOutput Config.pinBusClk .low).goto .businit 4)
  | some 4 => .next ((s.setBus { s.bus with ctl := { en := true, mstr := true, x2 := false }, rdy := false, busy := false }).goto .businit 5)
  | some _ => .next (s.finish .done)

/-- `BUSSEND a, v` (R154): s1 chip-select LOW, s2 and s4 write BUSDAT, s3 and s5 wait for RDY, s6
chip-select HIGH, s7 returns. Refused when the bus is not initialised (R157). -/
def execBussend (a v : Byte) (s : State) : Result :=
  match s.phaseOf (.bussend a v) with
  | none => .next s
  | some 1 =>
    if s.busReady then
      .next ((((s.setSeq { s.seq with tAddr := a, tVal := v }).driveLevel Config.pinBusCs .low).emitBus .csFall).goto (.bussend a v) 2)
    else .refused .busNotInitialised
  | some 2 => .next ((s.writeBusdat s.seq.tAddr).goto (.bussend a v) 3)
  | some 3 => if s.bus.rdy then .next (s.goto (.bussend a v) 4) else .next s
  | some 4 => .next ((s.writeBusdat s.seq.tVal).goto (.bussend a v) 5)
  | some 5 => if s.bus.rdy then .next (s.goto (.bussend a v) 6) else .next s
  | some 6 => .next (((s.driveLevel Config.pinBusCs .high).emitBus .csRise).goto (.bussend a v) 7)
  | some _ => .next (s.finish .done)

/-- `pot_log`: "the list of latched pairs, a function of the trace", one pair for each complete group
of four events (R161). -/
def potLog : List BusEvent → List (Byte × Byte)
  | .csFall :: .xfer a :: .xfer v :: .csRise :: rest => (a, v) :: potLog rest
  | _ => []

/-- The four events of one transaction (R159). -/
def busGroup (a v : Byte) : List BusEvent := [.csFall, .xfer a, .xfer v, .csRise]

/-- One sample of the two lines below the byte: the clock, and the data line where it is specified. -/
structure LineSample where
  clk  : Level
  data : Option Level
deriving DecidableEq, Repr, Inhabited

/-- Bit `i` of a byte as a line level. -/
def bitLevel (b : Byte) (i : Nat) : Level := if b.getLsbD i then .high else .low

/-- One clock pulse of `XFER(b)` for bit `i`: data driven while the clock is LOW, the clock raised
(the device samples), the clock lowered; after bit 0 "the level of `bus_data` is unspecified" (R160). -/
def pulse (b : Byte) (i : Nat) : List LineSample :=
  [{ clk := .low, data := some (bitLevel b i) },
   { clk := .high, data := some (bitLevel b i) },
   { clk := .low, data := if i = 0 then none else some (bitLevel b i) }]

/-- `XFER(b)` below the byte: eight pulses, most significant bit first (R160). -/
def xferWave (b : Byte) : List LineSample := [7, 6, 5, 4, 3, 2, 1, 0].flatMap (pulse b)

/-- What the device samples: the data line at the rising edges of the clock (R160). -/
def sampledBits (b : Byte) : List Level := [7, 6, 5, 4, 3, 2, 1, 0].map (bitLevel b)

end Sys2Proof.Machine
end

