-- ==== Sys2Proof/Machine/Fifo.lean ====
section
/-! DEFINITION. The ring buffer operations PUSH, AVAIL and POP (40_fifo.md). -/

namespace Sys2Proof.Machine

/-- `tail <- next` when the buffer is not full; otherwise `tail` unchanged (R121, R122). -/
def State.commit (s : State) : State :=
  if s.isFull then s else s.setTail (nextIdx s.slots s.tailIdx)

/-- `PUSH b` (R121, R122): the slot at `tail` written unconditionally, then the commit. One step, in
any state of the consumer (R71, R257). -/
def execPush (b : Byte) (s : State) : Result :=
  .next (s.writeSlot s.tailIdx b).commit

/-- `AVAIL` (R123): a1 reads `tail` once, a2 returns `zext_8((t_tail - head) mod N)`. -/
def execAvail (s : State) : Result :=
  match s.phaseOf .avail with
  | none => .next s
  | some 1 => .next ((s.setSeq { s.seq with tTail := s.tailIdx }).goto .avail 2)
  | some _ => .next (s.finish (.value (BitVec.ofNat 8 (occupied s.slots s.headIdx s.tTailIdx))))

/-- `POP` (R124, R125): p1 reads `tail` once, p2 returns the sentinel when empty, p3 reads the slot,
p4 advances `head`, p5 returns the byte. -/
def execPop (s : State) : Result :=
  match s.phaseOf .pop with
  | none => .next s
  | some 1 => .next ((s.setSeq { s.seq with tTail := s.tailIdx }).goto .pop 2)
  | some 2 => if s.headIdx = s.tTailIdx then .next (s.finish (.value Config.sentinel)) else .next (s.goto .pop 3)
  | some 3 => .next ((s.setSeq { s.seq with tByte := s.readSlot s.headIdx }).goto .pop 4)
  | some 4 => .next ((s.setHead (nextIdx s.slots s.headIdx)).goto .pop 5)
  | some _ => .next (s.finish (.value s.seq.tByte))

/-- The queue the ring buffer stands for: the bytes in slots `head` up to `tail`, oldest first (R132). -/
def State.queue (s : State) : List Byte :=
  (List.range (occupied s.slots s.headIdx s.tailIdx)).map
    (fun k => s.readSlot ((s.headIdx + k) % s.slots))

end Sys2Proof.Machine
end

