-- ==== Sys2Proof/Machine/Pins.lean ====
section
/-! DEFINITION. The pin driver, PINCFG (43_pin.md). -/

namespace Sys2Proof.Machine

/-- `PINCFG pin, level` (R211), "one consumer micro-step": c1 sets direction and level together, c2
returns (log 9). Refused for a bus pin once `BUSCTL.EN == 1` (R212). -/
def execPincfg (pin : Byte) (level : Level) (s : State) : Result :=
  s.whenIdle (fun s =>
    if s.bus.ctl.en && isBusPin pin then .refused .busPinOwned
    else .next ((s.configureOutput pin level).finish .done))

end Sys2Proof.Machine
end

