-- ==== Sys2Proof/Machine/Record.lean ====
section
/-! DEFINITION. The Shared State Record operations RD.f and WR.f and the observer's read
(42_shared_state.md). -/

namespace Sys2Proof.Machine

/-- `r1: return v`: "one consumer micro-step", nothing written (R181). -/
def returnField (v : Byte) (s : State) : Result :=
  s.whenIdle (fun s => .next (s.finish (.value v)))

/-- `w1: ssr.f <- v`: one consumer micro-step, no result (R181). -/
def writeRecord (r : Ssr) (s : State) : Result :=
  s.whenIdle (fun s => .next ((s.setSsr r).finish .done))

/-- `RD.button1` (R182). -/
def execRdButton1 (s : State) : Result := returnField (zext8 s.ssr.button1) s

/-- `RD.drivemode` (R183). -/
def execRdDrivemode (s : State) : Result := returnField (zext8 s.ssr.drivemode) s

/-- `RD.joyx` (R184). -/
def execRdJoyx (s : State) : Result := returnField s.ssr.joyx s

/-- `RD.joyy` (R185). -/
def execRdJoyy (s : State) : Result := returnField s.ssr.joyy s

/-- `RD.speedknob` (R186). -/
def execRdSpeedknob (s : State) : Result := returnField s.ssr.speedknob s

/-- `RD.leds` (R187). -/
def execRdLeds (s : State) : Result := returnField s.ssr.leds s

/-- `RD.flash` (R188). -/
def execRdFlash (s : State) : Result := returnField s.ssr.flash s

/-- `WR.button1 v` (R189). -/
def execWrButton1 (v : BitVec 1) (s : State) : Result := writeRecord { s.ssr with button1 := v } s

/-- `WR.drivemode v` (R190): "`v = 3` is reserved by value and refused". -/
def execWrDrivemode (v : BitVec 2) (s : State) : Result :=
  if v = 3#2 then .refused .reservedMode else writeRecord { s.ssr with drivemode := v } s

/-- `WR.joyx v` (R191). -/
def execWrJoyx (v : Byte) (s : State) : Result := writeRecord { s.ssr with joyx := v } s

/-- `WR.joyy v` (R192). -/
def execWrJoyy (v : Byte) (s : State) : Result := writeRecord { s.ssr with joyy := v } s

/-- `WR.speedknob v` (R193). -/
def execWrSpeedknob (v : Byte) (s : State) : Result := writeRecord { s.ssr with speedknob := v } s

/-- `WR.leds v` (R194). -/
def execWrLeds (v : Byte) (s : State) : Result := writeRecord { s.ssr with leds := v } s

/-- `WR.flash v` (R195). -/
def execWrFlash (v : Byte) (s : State) : Result := writeRecord { s.ssr with flash := v } s

/-- `OBS.READ(f)` (R196): `zext_8(ssr.f)` on `o_val`, nothing else changed; field 7 is refused (R98). -/
def observe (f : BitVec 3) (s : State) : Result :=
  match s.ssr.field f with
  | some v => .next (s.setPorts { s.ports with oVal := some v })
  | none => .refused .noSuchField

end Sys2Proof.Machine
end

