-- ==== Sys2Proof/Machine/SerialTx.lean ====
section
/-! DEFINITION. Serial transmit: TXBYTE (44_serial_tx.md R221), the configuration of the link by the
boot collaborator (10_state.md R40, 70_reset_and_hazards.md R284), the frame on the line (R224). -/

namespace Sys2Proof.Machine

/-- `TXBYTE ch` (R221): t1 waits for TXRDY, t2 hands the byte over, t3 returns. -/
def execTxbyte (ch : Byte) (s : State) : Result :=
  match s.phaseOf (.txbyte ch) with
  | none => .next s
  | some 1 => .next ((s.setSeq { s.seq with tCh := ch }).goto (.txbyte ch) (if s.ser.txrdy then 2 else 1))
  | some 2 => .next ((s.writeTxdat s.seq.tCh).goto (.txbyte ch) 3)
  | some _ => .next (s.finish .done)

/-- The boot collaborator's step: `UCTL = 0b111`, `TXRDY = 1`, `tx_busy = 0` (R284), once, while the
link is not configured (R40, R298: "establish `SerialConfigured` before launch"; log 15). -/
def State.configureSerial (s : State) : State :=
  if s.ser.ctl = { rxen := false, txen := false, rxie := false } then
    s.setSer { s.ser with ctl := { rxen := true, txen := true, rxie := true }, txrdy := true, busy := false }
  else s

/-- The frame of one byte on `txd`: a start bit at LOW, eight data bits least significant first, a
stop bit at HIGH (R224). -/
def txFrame (d : Byte) : List Level :=
  [.low] ++ (List.range 8).map (fun i => if d.getLsbD i then .high else .low) ++ [.high]

/-- The level `txd` idles at between frames (R224). -/
def txIdle : Level := .high

end Sys2Proof.Machine
end

