-- ==== Sys2Proof/Machine/Dispatch.lean ====
section
/-! DEFINITION. One arm per operation of the opcode map (30_encoding.md R96): the micro-step of the
operation that is due (log 8). -/

namespace Sys2Proof.Machine

def exec (i : Instr) (s : State) : Host.Outcome State Fault Refusal :=
  match i with
  | .push b => Sys2Proof.Machine.execPush b s
  | .avail => Sys2Proof.Machine.execAvail s
  | .pop => Sys2Proof.Machine.execPop s
  | .businit => Sys2Proof.Machine.execBusinit s
  | .bussend a v => Sys2Proof.Machine.execBussend a v s
  | .rdButton1 => Sys2Proof.Machine.execRdButton1 s
  | .rdDrivemode => Sys2Proof.Machine.execRdDrivemode s
  | .rdJoyx => Sys2Proof.Machine.execRdJoyx s
  | .rdJoyy => Sys2Proof.Machine.execRdJoyy s
  | .rdSpeedknob => Sys2Proof.Machine.execRdSpeedknob s
  | .rdLeds => Sys2Proof.Machine.execRdLeds s
  | .rdFlash => Sys2Proof.Machine.execRdFlash s
  | .wrButton1 v => Sys2Proof.Machine.execWrButton1 v s
  | .wrDrivemode v => Sys2Proof.Machine.execWrDrivemode v s
  | .wrJoyx v => Sys2Proof.Machine.execWrJoyx v s
  | .wrJoyy v => Sys2Proof.Machine.execWrJoyy v s
  | .wrSpeedknob v => Sys2Proof.Machine.execWrSpeedknob v s
  | .wrLeds v => Sys2Proof.Machine.execWrLeds v s
  | .wrFlash v => Sys2Proof.Machine.execWrFlash v s
  | .pincfg pin level => Sys2Proof.Machine.execPincfg pin level s
  | .txbyte ch => Sys2Proof.Machine.execTxbyte ch s

end Sys2Proof.Machine
end

