-- ==== Sys2Proof/Machine/Pseudo.lean ====
section
/-! DEFINITION. The pseudo-instructions and how the main loop issues them (30_encoding.md R106,
44_serial_tx.md R225 to R230, 42_shared_state.md R200). -/

namespace Sys2Proof.Machine

/-- The bytes before the first 0x00, or none where there is no 0x00 (R225). -/
def beforeTerminator : List Byte → Option (List Byte)
  | [] => none
  | b :: rest => if b = 0#8 then some [] else (beforeTerminator rest).map (b :: ·)

/-- One `TXBYTE` for each byte, in order. -/
def sendAll (bytes : List Byte) : List MainOp := bytes.map (fun b => .op (.txbyte b))

/-- `CH_f` of R106. -/
def reflectChannel : Reflected → Byte
  | .joyx => Config.chJoyx
  | .joyy => Config.chJoyy
  | .speedknob => Config.chSpeed

/-- The read of REFLECT.f (R106). -/
def reflectRead : Reflected → Instr
  | .joyx => .rdJoyx
  | .joyy => .rdJoyy
  | .speedknob => .rdSpeedknob

/-- The expansion of a pseudo-instruction (R106), or why it has none: "a model refuses" a sequence
with no 0x00 (R225) and a base outside 2 to 36 (R230). -/
def expand : Pseudo → Except Refusal (List MainOp)
  | .txstr s =>
    match beforeTerminator s with
    | some bytes => .ok (sendAll bytes)
    | none => .error .unterminatedString
  | .txuns value base =>
    if legalBase base then .ok (sendAll (fmtUnsigned value.toNat base)) else .error .badBase
  | .txsgn value base =>
    if legalBase base then .ok (sendAll (fmtSigned value base)) else .error .badBase
  | .getc => .ok [.op .avail, .popIfNonzero]
  | .reflect f => .ok [.op (reflectRead f), .sendRead (reflectChannel f)]
  | .cycle => .ok [.op .rdDrivemode, .writeNextMode]

/-- The byte of the latest result, which the conditional parts of R106 use; 0 where the latest
operation returned none, which an expansion never meets. -/
def State.lastByte (s : State) : Byte :=
  match s.ports.rsp with
  | .value v => v
  | .done => 0#8
  | .noneYet => 0#8

/-- The operation an item of an expansion stands for once the byte `last` has been returned by the
operation before it; none where the expansion issues nothing there (R106). -/
def MainOp.due (last : Byte) : MainOp → Option Instr
  | .op i => some i
  | .popIfNonzero => if last = 0#8 then none else some .pop
  | .sendRead channel => some (.bussend channel last)
  | .writeNextMode => some (.wrDrivemode (nextMode (last.setWidth 2)))

/-- The main loop issues one item of an expansion (R106). -/
def issue (m : MainOp) (s : State) : Result :=
  match m.due s.lastByte with
  | none => .next s
  | some i => exec i s

/-- The items of an expansion with the first one settled: it no longer waits for the byte `last`. -/
def settleFirst (last : Byte) : List MainOp → List MainOp
  | [] => []
  | m :: rest =>
    match m.due last with
    | none => rest
    | some i => .op i :: rest

/-- The state in which the main loop has taken note of the latest result for the item it is to issue
next, so that another operation may overwrite `c_rsp` (log 20). Nothing of the block is changed. -/
def State.settled (s : State) : State :=
  s.setEnv { s.env with pending := settleFirst s.lastByte s.env.pending }

/-- The main loop is inside an operation or a pseudo-instruction: it starts no other
pseudo-instruction until that returns (R106, R298; log 12). -/
def State.mainBusy (s : State) : Bool := s.seq.cop.isSome || !s.env.pending.isEmpty

/-- The main loop starts a pseudo-instruction: refused where it has no expansion, not started while
the main loop is busy. -/
def startPseudo (p : Pseudo) (s : State) : Result :=
  match expand p with
  | .error r => .refused r
  | .ok ops => if s.mainBusy then .next s else .next (s.setEnv { s.env with pending := ops })

end Sys2Proof.Machine
end

