-- ==== Sys2Proof/Machine/Agents.lean ====
section
/-! DEFINITION. One step of one agent (00_scope.md R14, R15): words on the two ports (30_encoding.md
R90, R91, R100, R101), the consumer's micro-steps, the engines, the observer, and the environment (boot, power). -/

namespace Sys2Proof.Machine

/-- A word on `p_cmd`: points (1) to (4) and (6) of R101 for the producer port. The arrival, the entry
into interrupt context, the PUSH and the return are this one step (60_exceptions.md R256, R257, R259). -/
def onProducerPort (w : Word) (s : State) : Result :=
  match decode w with
  | .error r => .refused (.reservedWord r)
  | .ok i => if i.port = .producer then exec i s else .refused .wrongPort

/-- A word on `c_cmd`: points (1) to (6) of R101 for the consumer port; a word that comes while
`cop != IDLE` is not taken. What an expansion has still to issue waits, as it would in the main
loop's own routine (log 12, log 20). -/
def onConsumerPort (w : Word) (s : State) : Result :=
  match decode w with
  | .error r => .refused (.reservedWord r)
  | .ok i =>
    if i.port = .consumer then (if s.seq.cop.isSome then .next s else exec i s.settled)
    else .refused .wrongPort

/-- The consumer's next micro-step: that of the operation in flight (R46); when IDLE, the next item
of a pseudo-instruction; when there is none, nothing. -/
def consumerStep (s : State) : Result :=
  match s.seq.cop with
  | some i => exec i s
  | none =>
    match s.env.pending with
    | [] => .next s
    | m :: rest => issue m (s.setEnv { s.env with pending := rest })

/-- Power-on reset (70_reset_and_hazards.md R280): every piece of the block's state at its value of
R49, the unspecified ones drawn. N and the inputs still to come are not the block's. -/
def State.powerOn (s : State) (d : PowerOnDraw) : State :=
  (State.resetWith s.size d).setEnv { s.env with pending := [], boots := s.env.boots + 1 }

/-- One step of one agent. -/
def fire (e : Event) (s : State) : Result :=
  match e with
  | .producer w => onProducerPort w s
  | .command w => onConsumerPort w s
  | .consumer => consumerStep s
  | .pseudo p => startPseudo p s
  | .busDone => .next s.busDone
  | .txDone => .next s.txDone
  | .obsRead f => observe f s
  | .serialConfigured => .next s.configureSerial
  | .powerOn d => .next (s.powerOn d)

/-- The event that happens next: the oldest waiting input, or the environment's free choice (log 1). -/
def State.nextEvent (s : State) : Event :=
  match s.env.inputs with
  | e :: _ => e
  | [] => Config.freeEvent s.env.tick

/-- The state with that event taken off the inputs, or the free choice counted. -/
def State.taken (s : State) : State :=
  match s.env.inputs with
  | _ :: rest => s.setEnv { s.env with inputs := rest }
  | [] => s.setEnv { s.env with tick := s.env.tick + 1 }

/-- The event that presents a word on the port its operation belongs to; the consumer port for a word
that selects none. -/
def presentWord (w : Word) : Event :=
  match decode w with
  | .ok i => match i.port with
    | .producer => .producer w
    | .consumer => .command w
  | .error _ => .command w

/-- The state with a word waiting as the oldest input, and, for a word of the consumer port, a main
loop free to issue it. -/
def State.withWord (s : State) (w : Word) : State :=
  match presentWord w with
  | .producer w => s.setEnv { s.env with inputs := .producer w :: s.env.inputs }
  | e => (s.setSeq { s.seq with cop := none }).setEnv { s.env with pending := [], inputs := e :: s.env.inputs }

end Sys2Proof.Machine
end

