-- ==== Sys2Proof/Machine/Step.lean ====
section
/-! DEFINITION. One step of the machine: the next event happens (00_scope.md R14, 20_memory.md R70). -/

namespace Sys2Proof.Machine

/-- One step: the oldest waiting input, or the environment's free choice, is performed. -/
def step (s : State) : Host.Outcome State Fault Refusal := fire s.nextEvent s.taken

/-- The state whose next step runs the instruction of `nbits` bits whose bits are `w`: the word waits
on its port as the oldest input (log 2). -/
def State.withFetchWord (s : State) (nbits w : Nat) : State :=
  s.withWord (BitVec.ofNat 24 (w % 2 ^ nbits))

end Sys2Proof.Machine
end

