-- ==== Sys2Proof/Safety.lean ====
section
/-! DEFINITION. What claims are stated in: the launch premises (70_reset_and_hazards.md R284), the end of
a run (R285), the invariant every step keeps (10_state.md R24, 41_bus.md R159, R168, 44_serial_tx.md
R222), runs and the fairness premises (41_bus.md R167, 44_serial_tx.md R233). -/

namespace Sys2Proof.Machine

/-! ### launch premises and the end of a run -/

/-- `FifoReset`: `head = tail = 0` (R284). -/
def FifoReset (s : State) : Prop := s.ring.head = 0 ∧ s.ring.tail = 0

/-- `SerialConfigured`: `UCTL = 0b111`, `TXRDY = 1`, `tx_busy = 0` (R284). -/
def SerialConfigured (s : State) : Prop :=
  s.ser.ctl.image = 0b111#8 ∧ s.ser.txrdy = true ∧ s.ser.busy = false

/-- `BusInitialised`: `BUSCTL.EN = BUSCTL.MSTR = 1`, three bus pins outputs, chip-select HIGH, and
`bus_busy = 0` (R282 point 3, R284). -/
def BusInitialised (s : State) : Prop :=
  s.busReady = true ∧ (s.pin Config.pinBusCs).level = .high ∧ s.bus.busy = false

/-- `Idle`: `cop = IDLE` (R284). -/
def Idle (s : State) : Prop := s.seq.cop = none

/-- `TracesEmpty` (R284). -/
def TracesEmpty (s : State) : Prop := s.bus.trace = [] ∧ s.ser.trace = []

/-- A run is over: no command left to give, the consumer IDLE, no transfer in flight (R285). How a state
shows that the issuing agents have no more commands to give is not in the spec; DESIGN CHOICE: no input
of any kind waits and no expansion is under way, whatever `Config.freeEvent` would choose next (log 31,
unsafe). -/
def Final (s : State) : Prop :=
  s.env.inputs = [] ∧ s.env.pending = [] ∧ Idle s ∧ s.bus.busy = false ∧ s.ser.busy = false

/-- The next step presents operation `i` to the consumer: as a word on `c_cmd`, or as the item of an
expansion that the main loop issues next (R91, R106). -/
def Presents (s : State) (i : Instr) : Prop :=
  (∃ w, s.nextEvent = .command w ∧ decode w = .ok i) ∨
  (s.nextEvent = .consumer ∧ ∃ m rest, s.env.pending = m :: rest ∧ m.due s.lastByte = some i)

/-- The consumer waits at s3 or s5 for RDY, or at t1 for TXRDY (60_exceptions.md R268 "stuck"). -/
def Waiting (s : State) : Prop :=
  (∃ a v, s.seq.cop = some (.bussend a v) ∧ (s.seq.cphase = 3 ∨ s.seq.cphase = 5) ∧ s.bus.rdy = false) ∨
  (∃ ch, s.seq.cop = some (.txbyte ch) ∧ s.seq.cphase = 1 ∧ s.ser.txrdy = false)

/-! ### the invariant -/

/-- The ring buffer: memory canonical and inside the N slots, both indices in `[0, N)` (R24), every
slot from `head` up to `tail` written by a PUSH (R129). -/
structure RingOk (s : State) : Prop where
  canonical : s.ring.storage.wf
  inside    : ∀ c ∈ s.ring.storage, c.1 < s.slots
  headRange : s.ring.head < s.slots
  tailRange : s.ring.tail < s.slots
  written   : ∀ k, k < occupied s.slots s.headIdx s.tailIdx →
    (s.ring.storage.read ((s.headIdx + k) % s.slots)).isSome = true

/-- The record: "The value 3 is reserved: no operation can store it" (R28). -/
def ModeOk (s : State) : Prop := s.ssr.drivemode ≠ 3#2

/-- The sequencer: the operation in flight is one of several micro-steps, its number one it has, its
operands in its temporaries (R46); inside POP, what p1 to p3 have established (R77, R78). -/
def SeqOk (s : State) : Prop :=
  match s.seq.cop with
  | none => True
  | some .avail => s.seq.cphase = 2 ∧ s.seq.tTail < s.slots
  | some .pop =>
    (s.seq.cphase = 2 ∧ s.seq.tTail < s.slots ∧ (s.isEmpty = true → s.seq.tTail = s.headIdx)) ∨
    (s.seq.cphase = 3 ∧ s.isEmpty = false) ∨
    (s.seq.cphase = 4 ∧ s.isEmpty = false ∧ s.seq.tByte = s.readSlot s.headIdx) ∨
    s.seq.cphase = 5
  | some .businit => 2 ≤ s.seq.cphase ∧ s.seq.cphase ≤ 5
  | some (.bussend a v) => 2 ≤ s.seq.cphase ∧ s.seq.cphase ≤ 7 ∧ s.seq.tAddr = a ∧ s.seq.tVal = v
  | some (.txbyte ch) =>
    1 ≤ s.seq.cphase ∧ s.seq.cphase ≤ 3 ∧ s.seq.tCh = ch ∧ (s.seq.cphase = 2 → s.ser.txrdy = true)
  | some (.push _) => False
  | some (.pincfg _ _) => False
  | some .rdButton1 => False
  | some .rdDrivemode => False
  | some .rdJoyx => False
  | some .rdJoyy => False
  | some .rdSpeedknob => False
  | some .rdLeds => False
  | some .rdFlash => False
  | some (.wrButton1 _) => False
  | some (.wrDrivemode _) => False
  | some (.wrJoyx _) => False
  | some (.wrJoyy _) => False
  | some (.wrSpeedknob _) => False
  | some (.wrLeds _) => False
  | some (.wrFlash _) => False

/-- A BUSSEND is between s1 and s6: chip-select is asserted (R168). -/
def selected (s : State) : Bool :=
  match s.seq.cop with
  | some (.bussend _ _) => 2 ≤ s.seq.cphase && s.seq.cphase ≤ 6
  | _ => false

/-- A BUSSEND stands at s3 or s5 with RDY still 0: a transfer is in flight (R155). -/
def transferring (s : State) : Bool :=
  match s.seq.cop with
  | some (.bussend _ _) => (s.seq.cphase == 3 || s.seq.cphase == 5) && !s.bus.rdy
  | _ => false

/-- What the transaction in flight has appended to `bus_trace`: "a proper prefix of one more group"
(R159), or the whole group when only s7 is left. -/
def groupSoFar (s : State) : List BusEvent :=
  match s.seq.cop with
  | some (.bussend a v) =>
    match s.seq.cphase with
    | 2 => [.csFall]
    | 3 => if s.bus.rdy then [.csFall, .xfer a] else [.csFall]
    | 4 => [.csFall, .xfer a]
    | 5 => if s.bus.rdy then [.csFall, .xfer a, .xfer v] else [.csFall, .xfer a]
    | 6 => [.csFall, .xfer a, .xfer v]
    | 7 => busGroup a v
    | _ => []
  | _ => []

/-- The bus: the legal values of BUSCTL (R36), the pins and chip-select once it is enabled (R157,
R168), a transfer in flight exactly where BUSSEND waits for it (R155), the byte being shifted, what
the micro-steps of BUSINIT have set (R152), and the trace law (R159). -/
structure BusOk (s : State) : Prop where
  ctl      : s.bus.ctl = { en := false, mstr := false, x2 := false } ∨ s.bus.ctl = { en := true, mstr := true, x2 := false }
  outputs  : s.bus.ctl.en = true → (s.pin Config.pinBusData).dir = .output ∧
    (s.pin Config.pinBusClk).dir = .output ∧ (s.pin Config.pinBusCs).dir = .output
  cs       : s.bus.ctl.en = true → (s.pin Config.pinBusCs).level = (if selected s then .low else .high)
  enabled  : ∀ a v, s.seq.cop = some (.bussend a v) → s.bus.ctl.en = true
  busy     : s.bus.busy = transferring s
  shifting : ∀ a v, s.seq.cop = some (.bussend a v) → s.bus.busy = true →
    s.bus.dat = (if s.seq.cphase = 3 then a else v)
  i1       : s.seq.cop = some .businit → s.pin Config.pinBusCs = { dir := .output, level := .high }
  i2       : s.seq.cop = some .businit → 3 ≤ s.seq.cphase → (s.pin Config.pinBusData).dir = .output
  i3       : s.seq.cop = some .businit → 4 ≤ s.seq.cphase → (s.pin Config.pinBusClk).dir = .output
  trace    : ∃ groups : List (Byte × Byte),
    s.bus.trace = groups.flatMap (fun g => busGroup g.1 g.2) ++ groupSoFar s

/-- The serial link: not configured, and then nothing ready or busy, or configured, and then busy
exactly when not ready (R40, R222, R223). -/
def SerialOk (s : State) : Prop :=
  (s.ser.ctl = { rxen := false, txen := false, rxie := false } ∧ s.ser.txrdy = false ∧ s.ser.busy = false) ∨
  (s.ser.ctl = { rxen := true, txen := true, rxie := true } ∧ s.ser.busy = !s.ser.txrdy)

/-- What the main loop has still to issue is made of consumer operations that have a word (R106). -/
def PendingOk (s : State) : Prop :=
  ∀ i, MainOp.op i ∈ s.env.pending → i.port = .consumer ∧ i.wf = true

/-- What holds of the block at power-on and after every micro-step of every operation. -/
structure BlockInv (s : State) : Prop where
  ring   : RingOk s
  mode   : ModeOk s
  seq    : SeqOk s
  bus    : BusOk s
  serial : SerialOk s

/-- What holds at power-on and after every step of every agent. -/
structure Inv (s : State) : Prop where
  block   : BlockInv s
  pending : PendingOk s

/-! ### observations used by claims -/

/-- The bytes handed to the transmitter so far: those on the line, then the one it still holds
(R231, R232). -/
def State.handedOver (s : State) : List Byte :=
  s.ser.trace ++ (if s.ser.busy then [s.ser.txdat] else [])

/-- Two states that differ at most in the bytes of slots outside the occupied range `[head, tail)`
(R127, R128, R129). -/
def AgreeOnOccupied (s t : State) : Prop :=
  t = s.setRing { s.ring with storage := t.ring.storage } ∧
  ∀ k, k < occupied s.slots s.headIdx s.tailIdx →
    t.readSlot ((s.headIdx + k) % s.slots) = s.readSlot ((s.headIdx + k) % s.slots)

/-- PUSHes of the given bytes, one after another. -/
def pushAll : List Byte → State → Result
  | [], s => .next s
  | b :: bs, s =>
    match exec (.push b) s with
    | .next t => pushAll bs t
    | .fault f => .fault f
    | .refused r => .refused r

/-- `k` micro-steps of one operation with nothing of another agent between them. -/
def microSteps : Nat → Instr → State → Result
  | 0, _, s => .next s
  | k + 1, i, s =>
    match exec i s with
    | .next t => microSteps k i t
    | .fault f => .fault f
    | .refused r => .refused r

/-- The consumer pops `k` times, each POP run to its end with nothing of another agent between its
micro-steps: the bytes returned and the state left. A POP that does not end with a byte gives none. -/
def popMany : Nat → State → Option (List Byte × State)
  | 0, s => some ([], s)
  | k + 1, s =>
    match microSteps 5 .pop s with
    | .next t =>
      match t.ports.rsp with
      | .value b => (popMany k t).map (fun r => (b :: r.1, r.2))
      | .done => none
      | .noneYet => none
    | .fault _ => none
    | .refused _ => none

/-- Events that happen one after another, stopping at the first refusal. -/
def fireAll : List Event → State → Result
  | [], s => .next s
  | e :: es, s =>
    match fire e s with
    | .next t => fireAll es t
    | .fault f => .fault f
    | .refused r => .refused r

/-- The value of a numeral given by its digit values, most significant first. -/
def numeralValue (base : Nat) (digits : List Nat) : Nat :=
  digits.foldl (fun acc d => acc * base + d) 0

/-- The value of a digit character (the reverse of R226's `digit`). -/
def digitValue (c : Byte) : Nat := if c.toNat < 0x3A then c.toNat - 0x30 else c.toNat - 0x61 + 10

/-! ### runs and fairness -/

/-- An infinite run under a schedule: which agent's step comes `k`-th is "inputs of the step relation,
not state" (R20). -/
def IsRun (ev : Nat → Event) (run : Nat → State) : Prop :=
  ∀ k, fire (ev k) (run k) = .next (run (k + 1))

/-- `BusResponds`: "whenever `bus_busy == 1` and the engine is enabled, `BUS.DONE` eventually occurs"
(R167). -/
def BusResponds (ev : Nat → Event) (run : Nat → State) : Prop :=
  ∀ k, (run k).busDoneEnabled = true → ∃ j, k ≤ j ∧ ev j = .busDone

/-- `TxResponds`, the same of `TX.DONE` (R233). -/
def TxResponds (ev : Nat → Event) (run : Nat → State) : Prop :=
  ∀ k, (run k).txDoneEnabled = true → ∃ j, k ≤ j ∧ ev j = .txDone

/-- The consumer is scheduled again and again: the main loop is the running program (R266). -/
def ConsumerRuns (ev : Nat → Event) : Prop := ∀ k, ∃ j, k ≤ j ∧ ev j = .consumer

/-- The event is a power-on reset (R280). -/
def isPowerOn : Event → Bool
  | .powerOn _ => true
  | .producer _ => false
  | .command _ => false
  | .consumer => false
  | .pseudo _ => false
  | .busDone => false
  | .txDone => false
  | .obsRead _ => false
  | .serialConfigured => false

end Sys2Proof.Machine
end

