-- ==== Sys2Proof/Certificates/Slice0/Obligations.lean ====
section
/-! DEFINITION. The statements for the provers. Each docstring names the rules of spec/ it rests on, and says
where it rests on a decision of the spec (92_eei_decisions.md) or of this model (notes/assumptions/). -/

open Sys2Proof Sys2Proof.Machine

/-! ### encoding -/

/-- The words 95_test_vectors.md writes out for each family decode as it says, and its reserved words are
rejected by name (V36, V39 to V46; the encoding is the spec's decision D2). -/
def Obligations.WordsOfEveryFamilyDecode : Prop :=
  decode 0x010041#24 = .ok (.push 0x41#8) ∧
  decode 0x100000#24 = .ok .avail ∧
  decode 0x110000#24 = .ok .pop ∧
  decode 0x200000#24 = .ok .businit ∧
  decode 0x2102C8#24 = .ok (.bussend 2#8 200#8) ∧
  decode 0x340000#24 = .ok .rdSpeedknob ∧
  decode 0x3A00C8#24 = .ok (.wrJoyx 200#8) ∧
  decode 0x390002#24 = .ok (.wrDrivemode 2#2) ∧
  decode 0x400201#24 = .ok (.pincfg 2#8 .high) ∧
  decode 0x500066#24 = .ok (.txbyte 0x66#8) ∧
  decode 0x01FF41#24 = .error .operandNotZero ∧
  decode 0x100001#24 = .error .operandNotZero ∧
  decode 0x380002#24 = .error .operandNotZero ∧
  decode 0x400202#24 = .error .operandNotZero ∧
  decode 0x390003#24 = .error .reservedValue ∧
  decode 0x370000#24 = .error .reservedOpcode ∧
  decode 0x3F0000#24 = .error .reservedOpcode ∧
  decode 0x000000#24 = .error .reservedOpcode ∧
  decode 0xFFFFFF#24 = .error .reservedOpcode

/-- Decoding the word of a well-formed instruction gives it back, every operand at every value (R92 to
R97). -/
def Obligations.EncodedInstructionDecodesToItself : Prop :=
  ∀ i : Instr, i.wf = true → decode (encode i) = .ok i

/-- A word that decodes is the word of the instruction it decodes to, and that instruction is well
formed (R92 to R97): no bit of a word is ignored. -/
def Obligations.DecodedWordIsItsInstructionsWord : Prop :=
  ∀ (w : Word) (i : Instr), decode w = .ok i → encode i = w ∧ i.wf = true

/-- "The rows do not overlap" (R96): no word selects two rows of the opcode map. -/
def Obligations.OpcodeRowsDoNotOverlap : Prop :=
  opcodeRows.Pairwise (fun r q => ∀ w : Word, ¬ (w &&& r.2 = r.1 ∧ w &&& q.2 = q.1))

/-- A word is rejected exactly when it selects no row of R96 or is `WR.drivemode 3` (R99). -/
def Obligations.ReservedWordsAreExactlyTheOthers : Prop :=
  ∀ w : Word, (∃ i, decode w = .ok i) ↔ (∃ r ∈ opcodeRows, w &&& r.2 = r.1) ∧ w ≠ 0x390003#24

/-! ### one step -/

/-- A step runs the decoded instruction: a word taken on its port, the operation in flight on a
consumer step, and the word `withFetchWord` places, each as `exec` of it on the state without that
input; a word is taken whenever the consumer is IDLE, and the item an expansion is to issue next then
keeps the result it waited for (the form of a step is the model's, log 1, log 2, log 8, log 20). -/
def Obligations.StepRunsTheDecodedInstruction : Prop :=
  (∀ (s : State) (w : Word) (i : Instr) (rest : List Event), s.env.inputs = .command w :: rest →
    decode w = .ok i → i.port = .consumer → Idle s →
    step s = exec i (s.setEnv { s.env with inputs := rest }).settled) ∧
  (∀ (s : State) (w : Word) (b : Byte) (rest : List Event), s.env.inputs = .producer w :: rest →
    decode w = .ok (.push b) → step s = exec (.push b) (s.setEnv { s.env with inputs := rest })) ∧
  (∀ (s : State) (i : Instr) (rest : List Event), s.env.inputs = .consumer :: rest →
    s.seq.cop = some i → step s = exec i (s.setEnv { s.env with inputs := rest })) ∧
  (∀ (s : State) (nbits w : Nat) (i : Instr), decode (BitVec.ofNat 24 (w % 2 ^ nbits)) = .ok i →
    i.port = .consumer → step (s.withFetchWord nbits w) =
      exec i ((s.setSeq { s.seq with cop := none }).setEnv { s.env with pending := [] })) ∧
  (∀ (s : State) (nbits w : Nat) (b : Byte), decode (BitVec.ofNat 24 (w % 2 ^ nbits)) = .ok (.push b) →
    step (s.withFetchWord nbits w) = exec (.push b) s)

/-- What each port does with each word (R100, R101; the refusals are the spec's decisions D30 and
D33): a reserved word refused on both ports, PUSH refused on the consumer port and every other
operation on the producer port, a word not taken while an operation is in flight (`cop` alone says so,
whatever an expansion has still to issue), and otherwise one operation, on a state that differs at most
in what the main loop has noted for its next item (log 20), and not at all when nothing is pending. -/
def Obligations.EachPortRefusesIgnoresOrPerforms : Prop :=
  (∀ (s : State) (w : Word) (r : Reject), decode w = .error r →
    fire (.producer w) s = .refused (.reservedWord r) ∧ fire (.command w) s = .refused (.reservedWord r)) ∧
  (∀ (s : State) (w : Word) (b : Byte), decode w = .ok (.push b) →
    fire (.producer w) s = exec (.push b) s ∧ fire (.command w) s = .refused .wrongPort) ∧
  (∀ (s : State) (w : Word) (i : Instr), decode w = .ok i → (∀ b, i ≠ .push b) →
    fire (.producer w) s = .refused .wrongPort ∧
    (s.seq.cop ≠ none → fire (.command w) s = .next s) ∧
    (Idle s → fire (.command w) s = exec i s.settled) ∧
    s.settled = s.setEnv { s.env with pending := s.settled.env.pending } ∧
    (s.env.pending = [] → s.settled = s))

/-- No step faults, and where the invariant holds a step refuses only for the reasons R268 lists, each
with its cause: a reserved word (`WR.drivemode 3` among them: nothing else of the main loop's can
carry that mode), the wrong port, a BUSSEND presented from IDLE while the bus is not initialised, a
PINCFG of a bus pin presented from IDLE while it is enabled, field 7, an illegal base, a string with no
end (R250, R268, R98, R157, R212). -/
def Obligations.StepRefusesOnlyWhereTheSpecDeclines : Prop :=
  (∀ (s : State) (f : Fault), step s ≠ .fault f) ∧
  (∀ (s : State) (r : Refusal), Inv s → step s = .refused r →
    (∃ w q, (s.nextEvent = .producer w ∨ s.nextEvent = .command w) ∧ decode w = .error q ∧
      r = .reservedWord q) ∨
    (∃ w i, ((s.nextEvent = .producer w ∧ i.port = .consumer) ∨
      (s.nextEvent = .command w ∧ i.port = .producer)) ∧ decode w = .ok i ∧ r = .wrongPort) ∨
    (∃ a v, Presents s (.bussend a v) ∧ Idle s ∧ s.busReady = false ∧ r = .busNotInitialised) ∨
    (∃ p l, Presents s (.pincfg p l) ∧ Idle s ∧ s.bus.ctl.en = true ∧ isBusPin p = true ∧ r = .busPinOwned) ∨
    (s.nextEvent = .obsRead 7#3 ∧ r = .noSuchField) ∨
    (∃ v b, (s.nextEvent = .pseudo (.txuns v b) ∨ s.nextEvent = .pseudo (.txsgn v b)) ∧
      (b < 2 ∨ 36 < b) ∧ r = .badBase) ∨
    (∃ bytes, s.nextEvent = .pseudo (.txstr bytes) ∧ 0#8 ∉ bytes ∧ r = .unterminatedString))

/-! ### the ring buffer -/

/-- PUSH (R121; that the consumer port refuses it is R100, the spec's decision D30): its word and port; in
every state it completes; the slot at `tail` holds the byte, every
other slot is as before; `tail` moves on exactly when the next index is not `head`; `head`, the
flags and everything else are unchanged, and nothing is returned. -/
def Obligations.PushWritesTheSlotThenCommits : Prop :=
  ∀ (s : State) (b : Byte),
    encode (.push b) = 0x010000#24 ||| b.setWidth 24 ∧
    fire (.producer (encode (.push b))) s = exec (.push b) s ∧
    fire (.command (encode (.push b))) s = .refused .wrongPort ∧
    ∃ t, exec (.push b) s = .next t ∧
      t.ring.storage.read s.tailIdx = some b ∧
      (∀ x, x ≠ s.tailIdx → t.ring.storage.read x = s.ring.storage.read x) ∧
      t.tailIdx = (if nextIdx s.slots s.tailIdx ≠ s.headIdx then nextIdx s.slots s.tailIdx else s.tailIdx) ∧
      t.ring.head = s.ring.head ∧ t.size = s.size ∧ t.ssr = s.ssr ∧ t.pins = s.pins ∧ t.bus = s.bus ∧
      t.ser = s.ser ∧ t.seq = s.seq ∧ t.ports = s.ports ∧ t.env = s.env

/-- PUSH when full (R122): however many bytes arrive, the slot at `tail` shows the latest, and nothing
else is changed: neither index, nor any other slot, nor anything outside the ring buffer. -/
def Obligations.PushesWhenFullRewriteOneSlot : Prop :=
  ∀ (s : State) (bs : List Byte) (b : Byte), s.isFull = true →
    ∃ t, pushAll (bs ++ [b]) s = .next t ∧
      t.ring.storage.read s.tailIdx = some b ∧
      (∀ x, x ≠ s.tailIdx → t.ring.storage.read x = s.ring.storage.read x) ∧
      t = s.setRing { s.ring with storage := t.ring.storage }

/-- AVAIL (R123, R133 a, R77; its two micro-steps are the spec's decision D6): whatever PUSHes fall
between a1 and a2, it returns the occupied count of the state at a1, in eight bits without loss, and
changes nothing but the sequencer and `c_rsp`. -/
def Obligations.AvailReturnsTheCountAtItsRead : Prop :=
  ∀ (s : State) (bs : List Byte), Idle s →
    ∃ s1 s2 t v, exec .avail s = .next s1 ∧ pushAll bs s1 = .next s2 ∧ exec .avail s2 = .next t ∧
      t.ports = { s.ports with rsp := .value v } ∧ v.toNat = occupied s.slots s.headIdx s.tailIdx ∧
      Idle t ∧ s1.ring = s.ring ∧ t.ring = s2.ring ∧ t.size = s.size ∧ t.ssr = s.ssr ∧
      t.pins = s.pins ∧ t.bus = s.bus ∧ t.ser = s.ser ∧ t.env = s.env

/-- POP of a non-empty buffer (R124, R133 c to e, R77; its micro-steps are the spec's decision D6):
whatever PUSHes fall between its micro-steps, it completes, returns the byte that was at `head` when
it began, and advances `head` by one. Each of its own micro-steps leaves `storage` and `tail`. -/
def Obligations.PopReturnsTheOldestByte : Prop :=
  ∀ (s : State) (b1 b2 b3 b4 : List Byte), Idle s → s.isEmpty = false →
    ∃ s1 s2 s3 s4 s5 s6 s7 s8 t,
      exec .pop s = .next s1 ∧ pushAll b1 s1 = .next s2 ∧
      exec .pop s2 = .next s3 ∧ pushAll b2 s3 = .next s4 ∧
      exec .pop s4 = .next s5 ∧ pushAll b3 s5 = .next s6 ∧
      exec .pop s6 = .next s7 ∧ pushAll b4 s7 = .next s8 ∧
      exec .pop s8 = .next t ∧
      t.ports = { s.ports with rsp := .value (s.readSlot s.headIdx) } ∧
      t.headIdx = nextIdx s.slots s.headIdx ∧ Idle t ∧
      s1.ring = s.ring ∧ s3.ring = s2.ring ∧ s5.ring = s4.ring ∧
      s7.ring = { s6.ring with head := nextIdx s.slots s.headIdx } ∧ t.ring = s8.ring ∧
      t.size = s.size ∧ t.ssr = s.ssr ∧ t.pins = s.pins ∧ t.bus = s.bus ∧ t.ser = s.ser ∧ t.env = s.env

/-- POP of an empty buffer (R125): it returns the sentinel 0x00 and changes no state; a PUSH that falls
after p1 is not seen by it, and its byte is still there. -/
def Obligations.PopOfEmptyReturnsTheSentinel : Prop :=
  ∀ (s : State) (bs : List Byte), Idle s → s.isEmpty = true →
    ∃ s1 s2 t, exec .pop s = .next s1 ∧ pushAll bs s1 = .next s2 ∧ exec .pop s2 = .next t ∧
      t.ports = { s.ports with rsp := .value 0x00#8 } ∧ Idle t ∧
      s1.ring = s.ring ∧ t.ring = s2.ring ∧ t.ring.head = s.ring.head ∧
      t.size = s.size ∧ t.ssr = s.ssr ∧ t.pins = s.pins ∧ t.bus = s.bus ∧ t.ser = s.ser ∧ t.env = s.env

/-- R130: from `head = tail = 0`, after k PUSHes and no POP, `head = 0`, `tail = min(k, N - 1)`, the
first N - 1 bytes are in slots 0 on, and for `k >= N` slot N - 1 holds the last byte. -/
def Obligations.PushesFromResetFillUpToCapacity : Prop :=
  ∀ (s : State) (bs : List Byte), FifoReset s →
    ∃ t, pushAll bs s = .next t ∧ t.ring.head = 0 ∧ t.tailIdx = min bs.length (s.slots - 1) ∧
      occupied t.slots t.headIdx t.tailIdx = min bs.length (s.slots - 1) ∧
      (∀ k, k < min bs.length (s.slots - 1) → bs[k]? = some (t.readSlot k)) ∧
      (s.slots ≤ bs.length → bs.getLast? = some (t.readSlot (s.slots - 1)))

/-- R131, in its general form: with m bytes already held, pushing k more with `m + k <= N - 1` and then
popping `m + k` times yields the m older bytes and then the k new ones, in order, from any start. -/
def Obligations.PushedBytesArePoppedInOrder : Prop :=
  ∀ (s : State) (bs : List Byte), Idle s →
    occupied s.slots s.headIdx s.tailIdx + bs.length ≤ s.slots - 1 →
    ∃ t u, pushAll bs s = .next t ∧
      popMany (occupied s.slots s.headIdx s.tailIdx + bs.length) t = some (s.queue ++ bs, u) ∧
      u.isEmpty = true

/-- R132: every step of the block is a step of a queue of at most N - 1 bytes: a PUSH appends when there
is room and changes nothing when there is none, the p4 of a POP takes the first byte off (the byte p5
then returns), every other step leaves the queue. -/
def Obligations.StepsRefineTheQueue : Prop :=
  ∀ s t : State, Inv s → step s = .next t → isPowerOn s.nextEvent = false →
    (∀ w b, s.nextEvent = .producer w → decode w = .ok (.push b) →
      t.queue = if s.queue.length < s.slots - 1 then s.queue ++ [b] else s.queue) ∧
    (s.nextEvent = .consumer → s.seq.cop = some .pop → s.seq.cphase = 4 →
      s.queue = s.seq.tByte :: t.queue) ∧
    ((∀ w, s.nextEvent ≠ .producer w) →
      ¬ (s.nextEvent = .consumer ∧ s.seq.cop = some .pop ∧ s.seq.cphase = 4) → t.queue = s.queue)

/-- R127, R128, R129: what a slot outside the occupied range holds never reaches a result. Two states
that differ only there step alike, and differ only there again. -/
def Obligations.UncommittedSlotsAreNeverSeen : Prop :=
  ∀ s t s' : State, Inv s → AgreeOnOccupied s t → step s = .next s' →
    ∃ t', step t = .next t' ∧ AgreeOnOccupied s' t'

/-- R129: "the byte read is always one some `PUSH` wrote": the p3 of a POP reads a slot that has been
written since power-on. -/
def Obligations.PopReadsOnlyPushedBytes : Prop :=
  ∀ s t : State, Inv s → s.seq.cop = some .pop → s.seq.cphase = 3 → exec .pop s = .next t →
    s.ring.storage.read s.headIdx = some t.seq.tByte

/-- R24: "`head` and `tail` are always in `[0, N)`; the buffer is logically empty when `head == tail`;
occupied slot count = `(tail - head) mod N`", after reset and after every step of every agent. -/
def Obligations.IndicesStayInRange : Prop :=
  ∀ t : State, ((∃ n d, t = State.resetWith n d) ∨
      ∃ s : State, s.ring.head < s.slots ∧ s.ring.tail < s.slots ∧ step s = .next t) →
    t.ring.head < t.slots ∧ t.ring.tail < t.slots ∧
    (t.isEmpty = true ↔ t.ring.head = t.ring.tail) ∧
    (occupied t.slots t.headIdx t.tailIdx : Int) = ((t.ring.tail : Int) - t.ring.head) % t.slots

/-! ### the invariant -/

/-- Every step of every agent keeps the invariant (R24, R28, R36, R46, R155, R157, R159, R168, R222; its
clause that TXRDY is 0 while the link is not configured is the model's choice, log 5, kept because a
TXBYTE waits there, log 16):
memory canonical and inside the N slots, indices in range, the occupied slots written, no mode 3,
legal BUSCTL and UCTL, the bus and the transmitter busy exactly where they may be, chip-select LOW
exactly inside a transaction, the trace made of whole groups. -/
def Obligations.EveryStepKeepsTheInvariant : Prop :=
  ∀ s t : State, Inv s → step s = .next t → Inv t

/-- The invariant holds after power-on, whatever the values R49 leaves unspecified or OPEN are; TXRDY,
which R49 gives at launch only, is 0 there by the model's choice (log 5). -/
def Obligations.PowerOnMeetsTheInvariant : Prop :=
  ∀ (n : RingSize) (d : PowerOnDraw), Inv (State.resetWith n d)

/-! ### reset and boot -/

/-- What reset leaves (R49; the values are the spec's decisions but for `head` and `tail`), for every
draw of what R49 leaves open: indices 0, no slot written, the record SSR_RESET with a legal mode,
pins inputs, BUSCTL, RDY, `bus_busy`, UCTL and `tx_busy` 0, traces empty, the consumer IDLE.
`State.reset` is the default N with the zero draw (log 3, log 4, log 7). -/
def Obligations.ResetLeavesTheStatedValues : Prop :=
  (∀ (n : RingSize) (d : PowerOnDraw),
    FifoReset (State.resetWith n d) ∧
    (∀ x, (State.resetWith n d).ring.storage.read x = none) ∧
    (State.resetWith n d).ssr.drivemode ≠ 3#2 ∧
    (State.resetWith n d).ssr = Ssr.ofDraw d ∧
    (∀ p, ((State.resetWith n d).pin p).dir = .input) ∧
    (State.resetWith n d).bus.ctl.image = 0#8 ∧ (State.resetWith n d).bus.statImage = 0#8 ∧
    (State.resetWith n d).bus.busy = false ∧
    (State.resetWith n d).ser.ctl.image = 0#8 ∧ (State.resetWith n d).ser.busy = false ∧
    TracesEmpty (State.resetWith n d) ∧ Idle (State.resetWith n d)) ∧
  State.reset = State.resetWith .n16 PowerOnDraw.zero

/-- Power-on reset from any state sets the whole of the block's state as after reset, whatever it was
(R280; that it is one event of the power supply is the model's, log 18). -/
def Obligations.PowerOnForgetsEverything : Prop :=
  ∀ (s : State) (d : PowerOnDraw), ∃ t, fire (.powerOn d) s = .next t ∧
    t = (State.resetWith s.size d).setEnv t.env ∧ t.env.pending = [] ∧ t.env.inputs = s.env.inputs

/-- The boot collaborator's step establishes `SerialConfigured` (R40, R284, the spec's decision D22);
once the link is configured it changes nothing (log 15). -/
def Obligations.BootConfiguresTheSerialLinkOnce : Prop :=
  ∀ s : State, Inv s → ∃ t, fire .serialConfigured s = .next t ∧
    (s.ser.ctl.image = 0#8 → SerialConfigured t ∧ t = s.setSer t.ser ∧ t.ser.trace = s.ser.trace ∧
      t.ser.txdat = s.ser.txdat) ∧
    (s.ser.ctl.image ≠ 0#8 → t = s)

/-! ### frames -/

/-- The access matrix by agent (R48, R72, R198): the producer writes the ring buffer alone and never
`head`; the bus engine BUSSTAT, `bus_busy` and `bus_trace` alone; the transmit engine TXRDY, `tx_busy`
and `tx_trace` alone; the observer nothing of the block; the environment, but for power-on, the serial
link's configuration alone (log 15, log 30); the consumer neither `storage` nor `tail`, nor UCTL, nor
`tx_trace`. -/
def Obligations.EachAgentWritesOnlyItsOwnState : Prop :=
  ∀ (e : Event) (s t : State), Inv s → fire e s = .next t →
    (e.agent = .producer → t = s.setRing t.ring ∧ t.ring.head = s.ring.head) ∧
    (e.agent = .busEngine → t = s.setBus t.bus ∧ t.bus.ctl = s.bus.ctl ∧ t.bus.dat = s.bus.dat) ∧
    (e.agent = .txEngine → t = s.setSer t.ser ∧ t.ser.ctl = s.ser.ctl ∧ t.ser.txdat = s.ser.txdat) ∧
    (e.agent = .observer → t = s.setPorts { s.ports with oVal := t.ports.oVal }) ∧
    (e.agent = .environment → isPowerOn e = false →
      t = s.setSer t.ser ∧ t.ser.trace = s.ser.trace ∧ t.ser.txdat = s.ser.txdat) ∧
    (e.agent = .consumer → (∀ x, t.ring.storage.read x = s.ring.storage.read x) ∧
      t.ring.tail = s.ring.tail ∧ t.ser.ctl = s.ser.ctl ∧ t.ser.trace = s.ser.trace ∧
      t.ports.oVal = s.ports.oVal ∧ t.size = s.size)

/-- The access matrix by consumer operation (R48), each micro-step of each: what it leaves unchanged
when it answers a next state. No operation of the consumer stores to memory. -/
def Obligations.EachOperationWritesOnlyItsOwnState : Prop :=
  ∀ s t : State,
    (exec .avail s = .next t → t.ring = s.ring ∧ t.ssr = s.ssr ∧ t.pins = s.pins ∧ t.bus = s.bus ∧ t.ser = s.ser) ∧
    (exec .pop s = .next t → (∀ x, t.ring.storage.read x = s.ring.storage.read x) ∧
      t.ring.tail = s.ring.tail ∧ t.ssr = s.ssr ∧ t.pins = s.pins ∧ t.bus = s.bus ∧ t.ser = s.ser) ∧
    (exec .businit s = .next t → t.ring = s.ring ∧ t.ssr = s.ssr ∧ t.ser = s.ser ∧
      (∀ p, isBusPin p = false → t.pin p = s.pin p) ∧ t.bus.dat = s.bus.dat ∧ t.bus.trace = s.bus.trace) ∧
    (∀ a v, exec (.bussend a v) s = .next t → t.ring = s.ring ∧ t.ssr = s.ssr ∧ t.ser = s.ser ∧
      (∀ p, p ≠ Config.pinBusCs → t.pin p = s.pin p) ∧
      (t.pin Config.pinBusCs).dir = (s.pin Config.pinBusCs).dir ∧ t.bus.ctl = s.bus.ctl) ∧
    (∀ i ∈ [Instr.rdButton1, .rdDrivemode, .rdJoyx, .rdJoyy, .rdSpeedknob, .rdLeds, .rdFlash],
      exec i s = .next t → t.ring = s.ring ∧ t.ssr = s.ssr ∧ t.pins = s.pins ∧ t.bus = s.bus ∧ t.ser = s.ser) ∧
    (∀ v1 v2 v, ∀ i ∈ [Instr.wrButton1 v1, .wrDrivemode v2, .wrJoyx v, .wrJoyy v, .wrSpeedknob v, .wrLeds v, .wrFlash v],
      exec i s = .next t → t.ring = s.ring ∧ t.pins = s.pins ∧ t.bus = s.bus ∧ t.ser = s.ser) ∧
    (∀ p l, exec (.pincfg p l) s = .next t → t.ring = s.ring ∧ t.ssr = s.ssr ∧ t.bus = s.bus ∧ t.ser = s.ser ∧
      (∀ q, q ≠ p → t.pin q = s.pin q)) ∧
    (∀ ch, exec (.txbyte ch) s = .next t → t.ring = s.ring ∧ t.ssr = s.ssr ∧ t.pins = s.pins ∧ t.bus = s.bus ∧
      t.ser.ctl = s.ser.ctl ∧ t.ser.trace = s.ser.trace)

/-- R260: a byte arrival that coincides with BUS.DONE, TX.DONE or OBS.READ may come before or after it:
"the order does not matter because these steps touch disjoint state". -/
def Obligations.PushCommutesWithEnginesAndObserver : Prop :=
  ∀ (s t : State) (b : Byte), exec (.push b) s = .next t →
    exec (.push b) s.busDone = .next t.busDone ∧
    exec (.push b) s.txDone = .next t.txDone ∧
    (∀ f u, observe f s = .next u → ∃ x, exec (.push b) u = .next x ∧ observe f t = .next x)

/-! ### the bus -/

/-- BUSINIT (R152, R214; micro-step order, the LOW levels and EN are the spec's decision D15): from
IDLE its five micro-steps complete, chip-select is an output at HIGH from the first on, data and clock
are outputs at LOW at the end, BUSCTL is 0b011, RDY and `bus_busy` are 0, and nothing else is changed but the sequencer
and the completion. -/
def Obligations.BusinitInitialisesTheBus : Prop :=
  ∀ s : State, Idle s →
    ∃ s1 s2 s3 s4 t, exec .businit s = .next s1 ∧ exec .businit s1 = .next s2 ∧
      exec .businit s2 = .next s3 ∧ exec .businit s3 = .next s4 ∧ exec .businit s4 = .next t ∧
      (∀ x ∈ [s1, s2, s3, s4, t], x.pin Config.pinBusCs = { dir := .output, level := .high }) ∧
      t.pin Config.pinBusData = { dir := .output, level := .low } ∧
      t.pin Config.pinBusClk = { dir := .output, level := .low } ∧
      (∀ p, isBusPin p = false → t.pin p = s.pin p) ∧
      t.bus.ctl.image = 0b011#8 ∧ t.bus.rdy = false ∧ t.bus.busy = false ∧
      t.bus.dat = s.bus.dat ∧ t.bus.trace = s.bus.trace ∧ BusInitialised t ∧
      Idle t ∧ t.ports = { s.ports with rsp := .done } ∧ t.ring = s.ring ∧ t.ssr = s.ssr ∧ t.ser = s.ser ∧
      t.size = s.size ∧ t.env = s.env

/-- A second BUSINIT right after the first changes neither the bus nor a pin (R153, the spec's decision
D35). -/
def Obligations.SecondBusinitChangesNothing : Prop :=
  ∀ s : State, Idle s → ∃ t u, microSteps 5 .businit s = .next t ∧ microSteps 5 .businit t = .next u ∧
    u.bus = t.bus ∧ u.pins = t.pins ∧ u.ring = t.ring ∧ u.ssr = t.ssr ∧ u.ser = t.ser

/-- BUSSEND (R154, R155, R158; the ready flag's protocol is the spec's decision D14): from IDLE on an
initialised bus, with the engine's BUS.DONE after each of the two writes, it completes; chip-select
is LOW from s1 until s6 and HIGH at the end; the two bytes are the operands; the trace gains exactly
`CS_FALL, XFER(a), XFER(v), CS_RISE`; nothing else is changed but BUSDAT, RDY, the sequencer and the
completion. -/
def Obligations.BussendIsOneFramedTransaction : Prop :=
  ∀ (s : State) (a v : Byte), Idle s → s.busReady = true →
    ∃ s1 s2 s3 s4 s5 s6 t, exec (.bussend a v) s = .next s1 ∧ exec (.bussend a v) s1 = .next s2 ∧
      exec (.bussend a v) s2.busDone = .next s3 ∧ exec (.bussend a v) s3 = .next s4 ∧
      exec (.bussend a v) s4.busDone = .next s5 ∧ exec (.bussend a v) s5 = .next s6 ∧
      exec (.bussend a v) s6 = .next t ∧
      (∀ x ∈ [s1, s2, s3, s4, s5], (x.pin Config.pinBusCs).level = .low) ∧
      s1.bus.trace = s.bus.trace ++ [.csFall] ∧
      s2.bus.dat = a ∧ s2.bus.rdy = false ∧ s2.bus.busy = true ∧
      s4.bus.dat = v ∧ s4.bus.rdy = false ∧ s4.bus.busy = true ∧
      t.pin Config.pinBusCs = { dir := (s.pin Config.pinBusCs).dir, level := .high } ∧
      (∀ p, p ≠ Config.pinBusCs → t.pin p = s.pin p) ∧
      t.bus = { s.bus with dat := v, rdy := true, busy := false, trace := s.bus.trace ++ [.csFall, .xfer a, .xfer v, .csRise] } ∧
      Idle t ∧ t.ports = { s.ports with rsp := .done } ∧ t.ring = s.ring ∧ t.ssr = s.ssr ∧ t.ser = s.ser ∧
      t.size = s.size ∧ t.env = s.env

/-- BUSSEND before BUSINIT is refused (R157, the spec's decision D18), in particular right after reset. -/
def Obligations.BussendBeforeBusinitIsRefused : Prop :=
  (∀ (s : State) (a v : Byte), Idle s → s.busReady = false →
    exec (.bussend a v) s = .refused .busNotInitialised) ∧
  (∀ (n : RingSize) (d : PowerOnDraw) (a v : Byte),
    exec (.bussend a v) (State.resetWith n d) = .refused .busNotInitialised)

/-- R156: at s3 and s5 the consumer re-reads RDY and goes no further until it reads 1, without count or
timeout; and what sets RDY is BUS.DONE and nothing else (that a scheduled re-read is a step that changes
nothing is the model's reading, log 10). -/
def Obligations.BussendWaitsUntilReady : Prop :=
  (∀ (s : State) (a v : Byte), s.seq.cop = some (.bussend a v) → (s.seq.cphase = 3 ∨ s.seq.cphase = 5) →
    (s.bus.rdy = false → exec (.bussend a v) s = .next s) ∧
    (s.bus.rdy = true → exec (.bussend a v) s = .next (s.setSeq { s.seq with cphase := s.seq.cphase + 1 }))) ∧
  (∀ (e : Event) (s t : State), fire e s = .next t → s.bus.rdy = false → t.bus.rdy = true → e = .busDone)

/-- BUS.DONE (R158, the spec's decision D14): enabled when a transfer is in flight and the peripheral is
enabled as master, it appends `XFER(BUSDAT)`, clears `bus_busy` and sets RDY, and touches nothing
else; not enabled, it is no step (log 11). -/
def Obligations.BusEngineFinishesOneTransfer : Prop :=
  ∀ s : State, ∃ t, fire .busDone s = .next t ∧
    (s.bus.busy = true ∧ s.bus.ctl.en = true ∧ s.bus.ctl.mstr = true →
      t = s.setBus { s.bus with trace := s.bus.trace ++ [.xfer s.bus.dat], busy := false, rdy := true }) ∧
    (¬ (s.bus.busy = true ∧ s.bus.ctl.en = true ∧ s.bus.ctl.mstr = true) → t = s)

/-- R168: from the first BUSINIT on, after every step, chip-select is an output, LOW exactly while a
BUSSEND is between s1 and s6, and HIGH otherwise; two transactions never share one window. -/
def Obligations.ChipSelectIsLowExactlyInTransactions : Prop :=
  ∀ s t : State, Inv s → step s = .next t → t.bus.ctl.en = true →
    (t.pin Config.pinBusCs).dir = .output ∧
    ((t.pin Config.pinBusCs).level = .low ↔
      ∃ a v, t.seq.cop = some (.bussend a v) ∧ 2 ≤ t.seq.cphase ∧ t.seq.cphase ≤ 6)

/-- R159: after every step `bus_trace` is a concatenation of groups of four, followed, only while a
BUSSEND is in flight, by a beginning of that transaction's own group. -/
def Obligations.BusTraceIsMadeOfGroups : Prop :=
  ∀ s t : State, Inv s → step s = .next t →
    ∃ (groups : List (Byte × Byte)) (a v : Byte) (k : Nat), k ≤ 4 ∧
      t.bus.trace = groups.flatMap (fun g => busGroup g.1 g.2) ++ (busGroup a v).take k ∧
      (k ≠ 0 → t.seq.cop = some (.bussend a v))

/-- R161: the device latches one pair for each complete group and nothing of an unfinished one (the
device as a sink is the spec's decision D17). -/
def Obligations.DeviceLatchesWholeGroupsOnly : Prop :=
  ∀ (groups : List (Byte × Byte)) (a v : Byte) (k : Nat), k < 4 →
    potLog (groups.flatMap (fun g => busGroup g.1 g.2) ++ (busGroup a v).take k) = groups

/-- R165, R253: if BUS.DONE never comes, a BUSSEND that waits stays where it is for ever, whatever else
happens short of a new power-on: `cop`, its micro-step, chip-select and the trace are as they were,
and no further command is taken. -/
def Obligations.BussendHangsWithoutBusDone : Prop :=
  ∀ (ev : Nat → Event) (run : Nat → State) (a v : Byte), IsRun ev run →
    (∀ k, ev k ≠ .busDone ∧ isPowerOn (ev k) = false) →
    (run 0).seq.cop = some (.bussend a v) → ((run 0).seq.cphase = 3 ∨ (run 0).seq.cphase = 5) →
    (run 0).bus.rdy = false →
    ∀ k, (run k).seq = (run 0).seq ∧ (run k).bus = (run 0).bus ∧ (run k).pins = (run 0).pins ∧
      (run k).ssr = (run 0).ssr ∧ Waiting (run k)

/-- R167: under `BusResponds` (and a consumer that is scheduled again and again) every BUSSEND returns. -/
def Obligations.BussendReturnsIfTheBusResponds : Prop :=
  ∀ (ev : Nat → Event) (run : Nat → State) (a v : Byte), IsRun ev run → Inv (run 0) →
    BusResponds ev run → ConsumerRuns ev → (run 0).seq.cop = some (.bussend a v) →
    ∃ k, (run k).seq.cop = none

/-! ### the record -/

/-- RD.f (R182 to R188): its word; from IDLE it completes in one micro-step, returns the field
zero-extended, and changes nothing but the sequencer and `c_rsp`; `button1` is 0 or 1, and
`drivemode` is never 3 where the invariant holds. -/
def Obligations.ReadsReturnTheirField : Prop :=
  encode .rdButton1 = 0x300000#24 ∧ encode .rdDrivemode = 0x310000#24 ∧ encode .rdJoyx = 0x320000#24 ∧
  encode .rdJoyy = 0x330000#24 ∧ encode .rdSpeedknob = 0x340000#24 ∧ encode .rdLeds = 0x350000#24 ∧
  encode .rdFlash = 0x360000#24 ∧
  ∀ s : State, Idle s →
    (∀ p ∈ [(Instr.rdButton1, zext8 s.ssr.button1), (.rdDrivemode, zext8 s.ssr.drivemode), (.rdJoyx, s.ssr.joyx),
        (.rdJoyy, s.ssr.joyy), (.rdSpeedknob, s.ssr.speedknob), (.rdLeds, s.ssr.leds), (.rdFlash, s.ssr.flash)],
      ∃ t, exec p.1 s = .next t ∧ t.ports = { s.ports with rsp := .value p.2 } ∧ Idle t ∧ t.ssr = s.ssr ∧
        t.ring = s.ring ∧ t.pins = s.pins ∧ t.bus = s.bus ∧ t.ser = s.ser ∧ t.size = s.size ∧ t.env = s.env) ∧
    (zext8 s.ssr.button1 = 0#8 ∨ zext8 s.ssr.button1 = 1#8) ∧
    (Inv s → zext8 s.ssr.drivemode = 0#8 ∨ zext8 s.ssr.drivemode = 1#8 ∨ zext8 s.ssr.drivemode = 2#8)

/-- WR.f v (R189, R191 to R195): its word, and for `button1` that a word with any of bits 7 to 1 of `b`
set is reserved; from IDLE it completes in one micro-step, stores the operand in
its own field alone, returns no value and changes nothing else. -/
def Obligations.WritesSetTheirField : Prop :=
  ∀ (s : State) (b : BitVec 1) (v : Byte),
    encode (.wrButton1 b) = 0x380000#24 ||| b.setWidth 24 ∧ encode (.wrJoyx v) = 0x3A0000#24 ||| v.setWidth 24 ∧
    encode (.wrJoyy v) = 0x3B0000#24 ||| v.setWidth 24 ∧ encode (.wrSpeedknob v) = 0x3C0000#24 ||| v.setWidth 24 ∧
    encode (.wrLeds v) = 0x3D0000#24 ||| v.setWidth 24 ∧ encode (.wrFlash v) = 0x3E0000#24 ||| v.setWidth 24 ∧
    (∀ w : Word, opField w = 0x38#8 → (bField w).extractLsb' 1 7 ≠ 0#7 → decode w = .error .operandNotZero) ∧
    (Idle s →
      ∀ p ∈ [(Instr.wrButton1 b, { s.ssr with button1 := b }), (.wrJoyx v, { s.ssr with joyx := v }),
          (.wrJoyy v, { s.ssr with joyy := v }), (.wrSpeedknob v, { s.ssr with speedknob := v }),
          (.wrLeds v, { s.ssr with leds := v }), (.wrFlash v, { s.ssr with flash := v })],
        ∃ t, exec p.1 s = .next t ∧ t.ssr = p.2 ∧ t.ports = { s.ports with rsp := .done } ∧ Idle t ∧
          t.ring = s.ring ∧ t.pins = s.pins ∧ t.bus = s.bus ∧ t.ser = s.ser ∧ t.size = s.size ∧ t.env = s.env)

/-- WR.drivemode (R190, the spec's decisions D9 and D10): from IDLE any of the three modes may be written
from any current one; 3 is reserved by value and refused, as a word and as an operation. -/
def Obligations.DrivemodeTakesThreeValuesOnly : Prop :=
  (∀ (s : State) (v : BitVec 2), Idle s → v ≠ 3#2 →
    ∃ t, exec (.wrDrivemode v) s = .next t ∧ t.ssr = { s.ssr with drivemode := v } ∧
      t.ports = { s.ports with rsp := .done } ∧ Idle t ∧ t.ring = s.ring ∧ t.pins = s.pins ∧ t.bus = s.bus ∧
      t.ser = s.ser ∧ t.size = s.size ∧ t.env = s.env) ∧
  (∀ s : State, exec (.wrDrivemode 3#2) s = .refused .reservedMode ∧
    fire (.command 0x390003#24) s = .refused (.reservedWord .reservedValue))

/-- R201: a read after a write returns the value written, whatever PUSH, engine, observer or boot steps
fall between, and a write of one field changes the read of no other. -/
def Obligations.ReadAfterWriteReturnsTheValue : Prop :=
  ∀ (s t u : State) (es : List Event) (b : BitVec 1) (m : BitVec 2) (v : Byte), Idle s →
    (∀ e ∈ es, e.agent ≠ .consumer ∧ isPowerOn e = false) →
    ∀ p ∈ [(Instr.wrButton1 b, Instr.rdButton1, zext8 b), (.wrDrivemode m, .rdDrivemode, zext8 m),
        (.wrJoyx v, .rdJoyx, v), (.wrJoyy v, .rdJoyy, v), (.wrSpeedknob v, .rdSpeedknob, v),
        (.wrLeds v, .rdLeds, v), (.wrFlash v, .rdFlash, v)],
      exec p.1 s = .next t → fireAll es t = .next u →
        (∃ x, exec p.2.1 u = .next x ∧ x.ports.rsp = .value p.2.2) ∧
        (∀ g ∈ [Instr.rdButton1, .rdDrivemode, .rdJoyx, .rdJoyy, .rdSpeedknob, .rdLeds, .rdFlash],
          g ≠ p.2.1 → ∃ x y, exec g u = .next x ∧ exec g s = .next y ∧ x.ports.rsp = y.ports.rsp)

/-- OBS.READ (R196, R98; the observer is the spec's decision D12): every field 0 to 6 can be read in any
state, the value appears on `o_val` zero-extended, nothing else is changed; field 7 is refused. -/
def Obligations.ObserverReadsAnyFieldAnyTime : Prop :=
  ∀ s : State,
    (∀ p ∈ [(0#3, zext8 s.ssr.button1), (1#3, zext8 s.ssr.drivemode), (2#3, s.ssr.joyx), (3#3, s.ssr.joyy),
        (4#3, s.ssr.speedknob), (5#3, s.ssr.leds), (6#3, s.ssr.flash)],
      fire (.obsRead p.1) s = .next (s.setPorts { s.ports with oVal := some p.2 })) ∧
    fire (.obsRead 7#3) s = .refused .noSuchField

/-- CYCLE and `next_mode` (R200, R28; the order of the cycle is the spec's decision D10; that two consumer
steps issue its items, the second from the latest `c_rsp`, and how the main loop holds them, is the
model's, log 20): from IDLE with nothing pending and a legal mode, the read and the write complete and
leave the record with the next mode and nothing pending; three of them bring the mode back. -/
def Obligations.CycleStepsTheMode : Prop :=
  (∀ s : State, Idle s → s.env.pending = [] → s.ssr.drivemode ≠ 3#2 →
    ∃ s1 s2 t, fire (.pseudo .cycle) s = .next s1 ∧ fire .consumer s1 = .next s2 ∧
      fire .consumer s2 = .next t ∧ s2.ports.rsp = .value (zext8 s.ssr.drivemode) ∧
      t.ssr = { s.ssr with drivemode := nextMode s.ssr.drivemode } ∧ Idle t ∧ t.env.pending = [] ∧
      t.ring = s.ring ∧ t.pins = s.pins ∧ t.bus = s.bus ∧ t.ser = s.ser) ∧
  nextMode 0#2 = 1#2 ∧ nextMode 1#2 = 2#2 ∧ nextMode 2#2 = 0#2

/-! ### the pins -/

/-- PINCFG (R211): its word; from IDLE, for a pin the bus does not own (R212, the spec's decision D38), it
completes in one micro-step that sets direction and level together; no other pin and nothing else is
changed but the completion. -/
def Obligations.PincfgSetsDirectionAndLevelTogether : Prop :=
  ∀ (s : State) (p : Byte) (l : Level),
    encode (.pincfg p l) = mkWord 0x40#8 p ((bitOfLevel l).setWidth 8) ∧
    (Idle s → (s.bus.ctl.en && isBusPin p) = false →
      ∃ t, exec (.pincfg p l) s = .next t ∧ t.pin p = { dir := .output, level := l } ∧
        (∀ q, q ≠ p → t.pin q = s.pin q) ∧
        Idle t ∧ t.ports = { s.ports with rsp := .done } ∧ t.ring = s.ring ∧ t.ssr = s.ssr ∧ t.bus = s.bus ∧
        t.ser = s.ser ∧ t.size = s.size ∧ t.env = s.env)

/-- PINCFG of a bus pin (R212, the spec's decision D38): refused once `BUSCTL.EN == 1`; every pin id is
accepted before that, and every other pin id always. -/
def Obligations.PincfgIsRefusedForOwnedPinsOnly : Prop :=
  ∀ (s : State) (p : Byte) (l : Level), Idle s →
    (exec (.pincfg p l) s = .refused .busPinOwned ↔
      s.bus.ctl.en = true ∧ (p = 0#8 ∨ p = 1#8 ∨ p = 2#8)) ∧
    (s.bus.ctl.en = false ∨ ¬ (p = 0#8 ∨ p = 1#8 ∨ p = 2#8) → ∃ t, exec (.pincfg p l) s = .next t)

/-! ### the transmitter -/

/-- TXBYTE (R221): its word; from IDLE with TXRDY = 1 it completes in three micro-steps, the byte in
TXDAT, TXRDY 0, `tx_busy` 1, returning before the byte is on the line, where the next TX.DONE of a
transmitter that is on puts it; with TXRDY = 0 it waits at t1 (log 10), before the link is configured
too, where the precondition of R221 fails (log 16);
nothing else is changed but the sequencer and the completion. -/
def Obligations.TxbyteWaitsThenHandsOver : Prop :=
  ∀ (s : State) (ch : Byte), encode (.txbyte ch) = 0x500000#24 ||| ch.setWidth 24 ∧
    (Idle s → s.ser.txrdy = true →
      ∃ s1 s2 t, exec (.txbyte ch) s = .next s1 ∧ exec (.txbyte ch) s1 = .next s2 ∧
        exec (.txbyte ch) s2 = .next t ∧ s1.ser = s.ser ∧
        t.ser = { s.ser with txdat := ch, txrdy := false, busy := true } ∧ s2.ser = t.ser ∧
        (s.ser.ctl.txen = true → t.txDone.ser.trace = s.ser.trace ++ [ch] ∧ t.txDone.ser.txrdy = true) ∧
        Idle t ∧ t.ports = { s.ports with rsp := .done } ∧ t.ring = s.ring ∧ t.ssr = s.ssr ∧ t.pins = s.pins ∧
        t.bus = s.bus ∧ t.size = s.size ∧ t.env = s.env) ∧
    (Idle s → s.ser.txrdy = false →
      ∃ s1, exec (.txbyte ch) s = .next s1 ∧ exec (.txbyte ch) s1 = .next s1 ∧
        s1.seq.cop = some (.txbyte ch) ∧ s1.seq.cphase = 1 ∧ s1 = s.setSeq s1.seq)

/-- TX.DONE (R223, the spec's decision D22): enabled while the transmitter is on and holds a byte, it puts
TXDAT on the line, clears `tx_busy` and sets TXRDY, and touches nothing else; not enabled, it is no
step (log 11). -/
def Obligations.TransmitEngineSendsOneByte : Prop :=
  ∀ s : State, ∃ t, fire .txDone s = .next t ∧
    (s.ser.busy = true ∧ s.ser.ctl.txen = true →
      t = s.setSer { s.ser with trace := s.ser.trace ++ [s.ser.txdat], busy := false, txrdy := true }) ∧
    (¬ (s.ser.busy = true ∧ s.ser.ctl.txen = true) → t = s)

/-- R232: a byte handed to the transmitter is never lost, duplicated or reordered: the bytes on the line
followed by the one still held change by no step but the t2 of a TXBYTE, which appends its operand, and
power-on, which forgets them; and the line only grows. -/
def Obligations.TransmittedBytesKeepTheirOrder : Prop :=
  ∀ s t : State, Inv s → step s = .next t →
    (isPowerOn s.nextEvent = true → t.handedOver = []) ∧
    (∀ ch, s.nextEvent = .consumer → s.seq.cop = some (.txbyte ch) → s.seq.cphase = 2 →
      t.handedOver = s.handedOver ++ [ch]) ∧
    (isPowerOn s.nextEvent = false →
      ¬ (s.nextEvent = .consumer ∧ (∃ ch, s.seq.cop = some (.txbyte ch)) ∧ s.seq.cphase = 2) →
      t.handedOver = s.handedOver) ∧
    (isPowerOn s.nextEvent = false → s.ser.trace <+: t.ser.trace)

/-- R233: under `TxResponds` (and a consumer that is scheduled again and again), on a configured link,
every TXBYTE returns. -/
def Obligations.TxbyteReturnsIfTheTransmitterResponds : Prop :=
  ∀ (ev : Nat → Event) (run : Nat → State) (ch : Byte), IsRun ev run → Inv (run 0) →
    TxResponds ev run → ConsumerRuns ev → (run 0).ser.ctl.image = 0b111#8 →
    (run 0).seq.cop = some (.txbyte ch) → ∃ k, (run k).seq.cop = none

/-! ### formatting and pseudo-instructions -/

/-- `digit` and `fmt_unsigned` (R226, R227; the alphabet is the spec's decision D23): the recursion of
R227 for every value of FMT_BITS bits and every legal base, and TXUNS as one TXBYTE for each of its
bytes in order. -/
def Obligations.UnsignedFormatFollowsTheRecursion : Prop :=
  (∀ value base : Nat, value < 65536 → 2 ≤ base → base ≤ 36 →
    fmtUnsigned value base =
      if base ≤ value then fmtUnsigned (value / base) base ++ [digit (value % base)] else [digit value]) ∧
  (∀ d : Nat, d < 10 → (digit d).toNat = 0x30 + d) ∧
  (∀ d : Nat, 10 ≤ d → d < 36 → (digit d).toNat = 0x61 + (d - 10)) ∧
  (∀ (value : BitVec 16) (base : Nat), 2 ≤ base → base ≤ 36 →
    expand (.txuns value base) = .ok ((fmtUnsigned value.toNat base).map (fun c => .op (.txbyte c))))

/-- R228: reading a numeral back gives the value; it has `1 + floor(log_base(value))` digits, one for 0;
every digit is below the base. -/
def Obligations.NumeralReadsBackAsItsValue : Prop :=
  ∀ value base : Nat, value < 65536 → 2 ≤ base → base ≤ 36 →
    numeralValue base ((fmtUnsigned value base).map digitValue) = value ∧
    (fmtUnsigned value base).length = Nat.log base value + 1 ∧
    (∀ c ∈ fmtUnsigned value base, digitValue c < base)

/-- R229 (the magnitude of the most negative value is the spec's decision D23): a negative value sends
'-' and then its magnitude, every other value no sign; TXSGN is one TXBYTE for each byte. -/
def Obligations.SignedFormatSendsTheSignFirst : Prop :=
  ∀ (value : BitVec 16) (base : Nat), 2 ≤ base → base ≤ 36 →
    fmtSigned value base = (if value.toInt < 0 then 0x2D#8 :: fmtUnsigned value.toInt.natAbs base
      else fmtUnsigned value.toInt.natAbs base) ∧
    expand (.txsgn value base) = .ok ((fmtSigned value base).map (fun c => .op (.txbyte c)))

/-- R225: TXSTR sends the bytes before the first 0x00, in order, and nothing of what follows it; a
sequence with no 0x00 is refused. -/
def Obligations.StringIsSentUpToItsTerminator : Prop :=
  (∀ before after : List Byte, 0#8 ∉ before →
    expand (.txstr (before ++ 0#8 :: after)) = .ok (before.map (fun c => .op (.txbyte c)))) ∧
  (∀ (bytes : List Byte) (s : State), 0#8 ∉ bytes →
    fire (.pseudo (.txstr bytes)) s = .refused .unterminatedString)

/-- R230 (the spec's decision D23): TXUNS and TXSGN with a base outside 2 to 36 are refused. -/
def Obligations.IllegalBaseIsRefused : Prop :=
  ∀ (s : State) (value : BitVec 16) (base : Nat), base < 2 ∨ 36 < base →
    fire (.pseudo (.txuns value base)) s = .refused .badBase ∧
    fire (.pseudo (.txsgn value base)) s = .refused .badBase

/-- An expansion of TXBYTEs is issued byte by byte: the main loop that starts it from IDLE has exactly
those operations pending, and a consumer step while IDLE issues the oldest (R106, R231; how the main
loop holds them is the model's, log 20). -/
def Obligations.ExpansionIsIssuedInOrder : Prop :=
  (∀ (s : State) (p : Pseudo) (ops : List MainOp), expand p = .ok ops → Idle s → s.env.pending = [] →
    fire (.pseudo p) s = .next (s.setEnv { s.env with pending := ops })) ∧
  (∀ (s : State) (i : Instr) (rest : List MainOp), Idle s → s.env.pending = .op i :: rest →
    fire .consumer s = exec i (s.setEnv { s.env with pending := rest })) ∧
  (∀ (s : State) (i : Instr), s.seq.cop = some i → fire .consumer s = exec i s)

/-- GETC (R106, R287; how the main loop holds its items is the model's, log 20): AVAIL, which returns the
occupied count, and then POP exactly when that is not 0. From IDLE with a non-empty buffer the POP it
issues begins; with an empty one nothing more is issued. -/
def Obligations.GetcPopsOnlyWhatIsThere : Prop :=
  ∀ s : State, Idle s → s.env.pending = [] →
    ∃ s1 s2 s3 s4, fire (.pseudo .getc) s = .next s1 ∧ fire .consumer s1 = .next s2 ∧
      fire .consumer s2 = .next s3 ∧ fire .consumer s3 = .next s4 ∧
      s2.seq.cop = some .avail ∧
      (∃ v, s3.ports.rsp = .value v ∧ v.toNat = occupied s.slots s.headIdx s.tailIdx) ∧
      Idle s3 ∧ s4.env.pending = [] ∧
      s4.ring = s.ring ∧
      (s.isEmpty = true → Idle s4 ∧ s4.ports = s3.ports) ∧
      (s.isEmpty = false → s4.seq.cop = some .pop ∧ s4.seq.cphase = 2 ∧ s4.seq.tTail = s.tailIdx)

/-- REFLECT.f (R106, R164; the channel bytes are OPEN, log 21; that the value sent is taken from the latest
`c_rsp`, and how the main loop holds its items, is the model's, log 20): the read of the field and then BUSSEND of
that field's value on its channel, whatever the channel bytes are. -/
def Obligations.ReflectSendsTheFieldJustRead : Prop :=
  ∀ s : State, Idle s → s.env.pending = [] → s.busReady = true →
    ∀ p ∈ [(Reflected.joyx, Config.chJoyx, s.ssr.joyx), (.joyy, Config.chJoyy, s.ssr.joyy),
        (.speedknob, Config.chSpeed, s.ssr.speedknob)],
      ∃ s1 s2 t, fire (.pseudo (.reflect p.1)) s = .next s1 ∧ fire .consumer s1 = .next s2 ∧
        fire .consumer s2 = .next t ∧ s2.ports.rsp = .value p.2.2 ∧
        t.seq.cop = some (.bussend p.2.1 p.2.2) ∧ t.seq.cphase = 2 ∧
        t.bus.trace = s.bus.trace ++ [.csFall] ∧ t.env.pending = []

/-! ### register images and lines -/

/-- The register images (R34, R36, R37, R40, R41, R265; the layouts are the spec's decisions D9, D13,
D22): the bits and bytes of each register are the fields the spec puts there, the others zero. -/
def Obligations.RegisterImagesHoldTheirFields : Prop :=
  (∀ c : BusCtl, c.image.getLsbD 0 = c.en ∧ c.image.getLsbD 1 = c.mstr ∧ c.image.getLsbD 2 = c.x2 ∧
    c.image.extractLsb' 3 5 = 0#5) ∧
  (∀ b : Bus, b.statImage.getLsbD 0 = b.rdy ∧ b.statImage.extractLsb' 1 7 = 0#7) ∧
  (∀ u : UCtl, u.image.getLsbD 0 = u.rxen ∧ u.image.getLsbD 1 = u.txen ∧ u.image.getLsbD 2 = u.rxie ∧
    u.image.extractLsb' 3 5 = 0#5) ∧
  (∀ u : Serial, u.statImage.getLsbD 0 = u.txrdy ∧ u.statImage.extractLsb' 1 7 = 0#7) ∧
  (∀ (r : Ssr) (f : BitVec 3), r.image[f.toNat]? = r.field f)

/-- Below the byte (R160, R224; the spec's decisions D16 and D22): the device samples a byte's bits most
significant first at the rising clock edges and the clock is LOW before and after; a frame is a LOW
start bit, the bits least significant first, a HIGH stop bit. -/
def Obligations.LinesCarryTheBitsInOrder : Prop :=
  ∀ b : Byte,
    ((xferWave b).filter (fun x => x.clk == .high)).map (fun x => x.data) =
      [7, 6, 5, 4, 3, 2, 1, 0].map (fun i => some (if b.getLsbD i then Level.high else Level.low)) ∧
    (xferWave b).head?.map (fun x => x.clk) = some .low ∧
    (xferWave b).getLast? = some { clk := .low, data := none } ∧
    txFrame b = [Level.low] ++ [0, 1, 2, 3, 4, 5, 6, 7].map (fun i => if b.getLsbD i then Level.high else Level.low) ++ [Level.high]
end

