-- ==== Sys2Proof/Laws/DecodeLaws.lean ====
section
/-! SUPPORT. The fields of a word that is made of three fields, and a word made of its fields
(30_encoding.md R92); the narrow operands inside an operand byte (R94). -/

namespace Sys2Proof

@[simp] theorem opField_mkWord (op a b : Byte) : opField (mkWord op a b) = op := by
  unfold opField mkWord
  ext i hi
  simp only [BitVec.getElem_extractLsb', BitVec.getLsbD_append]
  have h1 : ¬ (16 + i < 8) := by omega
  have h2 : ¬ (16 + i - 8 < 8) := by omega
  have h3 : 16 + i - 8 - 8 = i := by omega
  simp [h1, h2, h3, BitVec.getLsbD_eq_getElem hi]

@[simp] theorem aField_mkWord (op a b : Byte) : aField (mkWord op a b) = a := by
  unfold aField mkWord
  ext i hi
  simp only [BitVec.getElem_extractLsb', BitVec.getLsbD_append]
  have h1 : ¬ (8 + i < 8) := by omega
  have h3 : 8 + i - 8 = i := by omega
  simp [h1, h3, hi]

@[simp] theorem bField_mkWord (op a b : Byte) : bField (mkWord op a b) = b := by
  unfold bField mkWord
  ext i hi
  simp only [BitVec.getElem_extractLsb', BitVec.getLsbD_append]
  simp [hi]

/-- A word is made of its three fields. -/
theorem mkWord_fields (w : Word) : mkWord (opField w) (aField w) (bField w) = w := by
  unfold mkWord opField aField bField
  ext i hi
  rw [BitVec.getElem_append]
  simp only [BitVec.getElem_append, BitVec.getElem_extractLsb']
  split_ifs with h1 h2
  · rw [Nat.zero_add, BitVec.getLsbD_eq_getElem]
  · rw [BitVec.getLsbD_eq_getElem (by omega)]; congr 1; omega
  · rw [BitVec.getLsbD_eq_getElem (by omega)]; congr 1; omega

/-- Two words with the same three fields are the same word. -/
theorem word_ext {w x : Word} (h1 : opField w = opField x) (h2 : aField w = aField x)
    (h3 : bField w = bField x) : w = x := by
  rw [← mkWord_fields w, ← mkWord_fields x, h1, h2, h3]

@[simp] theorem levelOfBit_bitOfLevel (l : Level) : levelOfBit (bitOfLevel l) = l := by
  cases l <;> decide

@[simp] theorem bitOfLevel_levelOfBit (b : BitVec 1) : bitOfLevel (levelOfBit b) = b := by
  revert b; decide

/-- A one-bit operand in an operand byte (R94). -/
theorem oneBit_operand (v : BitVec 1) :
    (v.setWidth 8 : Byte).extractLsb' 1 7 = 0#7 ∧ (v.setWidth 8 : Byte).extractLsb' 0 1 = v := by
  revert v; decide

/-- A two-bit operand in an operand byte (R94). -/
theorem twoBit_operand (v : BitVec 2) :
    (v.setWidth 8 : Byte).extractLsb' 2 6 = 0#6 ∧ (v.setWidth 8 : Byte).extractLsb' 0 2 = v := by
  revert v; decide

end Sys2Proof
end

