-- ==== Sys2Proof/Laws/State.lean ====
section
/-! SUPPORT. One lemma per field per update of State, each true by rfl. -/

namespace Sys2Proof.Machine

@[simp] theorem State.setRing_size (s : State) (x : Ring) : (s.setRing x).size = s.size := rfl
@[simp] theorem State.setRing_ring (s : State) (x : Ring) : (s.setRing x).ring = x := rfl
@[simp] theorem State.setRing_ssr (s : State) (x : Ring) : (s.setRing x).ssr = s.ssr := rfl
@[simp] theorem State.setRing_pins (s : State) (x : Ring) : (s.setRing x).pins = s.pins := rfl
@[simp] theorem State.setRing_bus (s : State) (x : Ring) : (s.setRing x).bus = s.bus := rfl
@[simp] theorem State.setRing_ser (s : State) (x : Ring) : (s.setRing x).ser = s.ser := rfl
@[simp] theorem State.setRing_seq (s : State) (x : Ring) : (s.setRing x).seq = s.seq := rfl
@[simp] theorem State.setRing_ports (s : State) (x : Ring) : (s.setRing x).ports = s.ports := rfl
@[simp] theorem State.setRing_env (s : State) (x : Ring) : (s.setRing x).env = s.env := rfl

@[simp] theorem State.setSsr_size (s : State) (x : Ssr) : (s.setSsr x).size = s.size := rfl
@[simp] theorem State.setSsr_ring (s : State) (x : Ssr) : (s.setSsr x).ring = s.ring := rfl
@[simp] theorem State.setSsr_ssr (s : State) (x : Ssr) : (s.setSsr x).ssr = x := rfl
@[simp] theorem State.setSsr_pins (s : State) (x : Ssr) : (s.setSsr x).pins = s.pins := rfl
@[simp] theorem State.setSsr_bus (s : State) (x : Ssr) : (s.setSsr x).bus = s.bus := rfl
@[simp] theorem State.setSsr_ser (s : State) (x : Ssr) : (s.setSsr x).ser = s.ser := rfl
@[simp] theorem State.setSsr_seq (s : State) (x : Ssr) : (s.setSsr x).seq = s.seq := rfl
@[simp] theorem State.setSsr_ports (s : State) (x : Ssr) : (s.setSsr x).ports = s.ports := rfl
@[simp] theorem State.setSsr_env (s : State) (x : Ssr) : (s.setSsr x).env = s.env := rfl

@[simp] theorem State.setPins_size (s : State) (x : Pins) : (s.setPins x).size = s.size := rfl
@[simp] theorem State.setPins_ring (s : State) (x : Pins) : (s.setPins x).ring = s.ring := rfl
@[simp] theorem State.setPins_ssr (s : State) (x : Pins) : (s.setPins x).ssr = s.ssr := rfl
@[simp] theorem State.setPins_pins (s : State) (x : Pins) : (s.setPins x).pins = x := rfl
@[simp] theorem State.setPins_bus (s : State) (x : Pins) : (s.setPins x).bus = s.bus := rfl
@[simp] theorem State.setPins_ser (s : State) (x : Pins) : (s.setPins x).ser = s.ser := rfl
@[simp] theorem State.setPins_seq (s : State) (x : Pins) : (s.setPins x).seq = s.seq := rfl
@[simp] theorem State.setPins_ports (s : State) (x : Pins) : (s.setPins x).ports = s.ports := rfl
@[simp] theorem State.setPins_env (s : State) (x : Pins) : (s.setPins x).env = s.env := rfl

@[simp] theorem State.setBus_size (s : State) (x : Bus) : (s.setBus x).size = s.size := rfl
@[simp] theorem State.setBus_ring (s : State) (x : Bus) : (s.setBus x).ring = s.ring := rfl
@[simp] theorem State.setBus_ssr (s : State) (x : Bus) : (s.setBus x).ssr = s.ssr := rfl
@[simp] theorem State.setBus_pins (s : State) (x : Bus) : (s.setBus x).pins = s.pins := rfl
@[simp] theorem State.setBus_bus (s : State) (x : Bus) : (s.setBus x).bus = x := rfl
@[simp] theorem State.setBus_ser (s : State) (x : Bus) : (s.setBus x).ser = s.ser := rfl
@[simp] theorem State.setBus_seq (s : State) (x : Bus) : (s.setBus x).seq = s.seq := rfl
@[simp] theorem State.setBus_ports (s : State) (x : Bus) : (s.setBus x).ports = s.ports := rfl
@[simp] theorem State.setBus_env (s : State) (x : Bus) : (s.setBus x).env = s.env := rfl

@[simp] theorem State.setSer_size (s : State) (x : Serial) : (s.setSer x).size = s.size := rfl
@[simp] theorem State.setSer_ring (s : State) (x : Serial) : (s.setSer x).ring = s.ring := rfl
@[simp] theorem State.setSer_ssr (s : State) (x : Serial) : (s.setSer x).ssr = s.ssr := rfl
@[simp] theorem State.setSer_pins (s : State) (x : Serial) : (s.setSer x).pins = s.pins := rfl
@[simp] theorem State.setSer_bus (s : State) (x : Serial) : (s.setSer x).bus = s.bus := rfl
@[simp] theorem State.setSer_ser (s : State) (x : Serial) : (s.setSer x).ser = x := rfl
@[simp] theorem State.setSer_seq (s : State) (x : Serial) : (s.setSer x).seq = s.seq := rfl
@[simp] theorem State.setSer_ports (s : State) (x : Serial) : (s.setSer x).ports = s.ports := rfl
@[simp] theorem State.setSer_env (s : State) (x : Serial) : (s.setSer x).env = s.env := rfl

@[simp] theorem State.setSeq_size (s : State) (x : Seq) : (s.setSeq x).size = s.size := rfl
@[simp] theorem State.setSeq_ring (s : State) (x : Seq) : (s.setSeq x).ring = s.ring := rfl
@[simp] theorem State.setSeq_ssr (s : State) (x : Seq) : (s.setSeq x).ssr = s.ssr := rfl
@[simp] theorem State.setSeq_pins (s : State) (x : Seq) : (s.setSeq x).pins = s.pins := rfl
@[simp] theorem State.setSeq_bus (s : State) (x : Seq) : (s.setSeq x).bus = s.bus := rfl
@[simp] theorem State.setSeq_ser (s : State) (x : Seq) : (s.setSeq x).ser = s.ser := rfl
@[simp] theorem State.setSeq_seq (s : State) (x : Seq) : (s.setSeq x).seq = x := rfl
@[simp] theorem State.setSeq_ports (s : State) (x : Seq) : (s.setSeq x).ports = s.ports := rfl
@[simp] theorem State.setSeq_env (s : State) (x : Seq) : (s.setSeq x).env = s.env := rfl

@[simp] theorem State.setPorts_size (s : State) (x : Ports) : (s.setPorts x).size = s.size := rfl
@[simp] theorem State.setPorts_ring (s : State) (x : Ports) : (s.setPorts x).ring = s.ring := rfl
@[simp] theorem State.setPorts_ssr (s : State) (x : Ports) : (s.setPorts x).ssr = s.ssr := rfl
@[simp] theorem State.setPorts_pins (s : State) (x : Ports) : (s.setPorts x).pins = s.pins := rfl
@[simp] theorem State.setPorts_bus (s : State) (x : Ports) : (s.setPorts x).bus = s.bus := rfl
@[simp] theorem State.setPorts_ser (s : State) (x : Ports) : (s.setPorts x).ser = s.ser := rfl
@[simp] theorem State.setPorts_seq (s : State) (x : Ports) : (s.setPorts x).seq = s.seq := rfl
@[simp] theorem State.setPorts_ports (s : State) (x : Ports) : (s.setPorts x).ports = x := rfl
@[simp] theorem State.setPorts_env (s : State) (x : Ports) : (s.setPorts x).env = s.env := rfl

@[simp] theorem State.setEnv_size (s : State) (x : Env) : (s.setEnv x).size = s.size := rfl
@[simp] theorem State.setEnv_ring (s : State) (x : Env) : (s.setEnv x).ring = s.ring := rfl
@[simp] theorem State.setEnv_ssr (s : State) (x : Env) : (s.setEnv x).ssr = s.ssr := rfl
@[simp] theorem State.setEnv_pins (s : State) (x : Env) : (s.setEnv x).pins = s.pins := rfl
@[simp] theorem State.setEnv_bus (s : State) (x : Env) : (s.setEnv x).bus = s.bus := rfl
@[simp] theorem State.setEnv_ser (s : State) (x : Env) : (s.setEnv x).ser = s.ser := rfl
@[simp] theorem State.setEnv_seq (s : State) (x : Env) : (s.setEnv x).seq = s.seq := rfl
@[simp] theorem State.setEnv_ports (s : State) (x : Env) : (s.setEnv x).ports = s.ports := rfl
@[simp] theorem State.setEnv_env (s : State) (x : Env) : (s.setEnv x).env = x := rfl

@[simp] theorem State.lastByte_setEnv (s : State) (x : Env) : (s.setEnv x).lastByte = s.lastByte := rfl
@[simp] theorem State.settled_size (s : State) : s.settled.size = s.size := rfl
@[simp] theorem State.settled_ring (s : State) : s.settled.ring = s.ring := rfl
@[simp] theorem State.settled_ssr (s : State) : s.settled.ssr = s.ssr := rfl
@[simp] theorem State.settled_pins (s : State) : s.settled.pins = s.pins := rfl
@[simp] theorem State.settled_bus (s : State) : s.settled.bus = s.bus := rfl
@[simp] theorem State.settled_ser (s : State) : s.settled.ser = s.ser := rfl
@[simp] theorem State.settled_seq (s : State) : s.settled.seq = s.seq := rfl
@[simp] theorem State.settled_ports (s : State) : s.settled.ports = s.ports := rfl
@[simp] theorem State.settled_env (s : State) :
    s.settled.env = { s.env with pending := settleFirst s.lastByte s.env.pending } := rfl

end Sys2Proof.Machine
end

