-- ==== Sys2Proof/Laws/Index.lean ====
section
/-! SUPPORT. The arithmetic of the index registers: 20_memory.md R69, 40_fifo.md R126. -/

namespace Sys2Proof

theorem RingSize.two_le_slots (n : RingSize) : 2 ≤ n.slots := by
  cases n <;> decide

theorem RingSize.slots_le (n : RingSize) : n.slots ≤ 256 := by
  cases n <;> decide

namespace Machine

theorem State.two_le_slots (s : State) : 2 ≤ s.slots := RingSize.two_le_slots _

theorem State.slots_le (s : State) : s.slots ≤ 256 := RingSize.slots_le _

theorem State.headIdx_lt (s : State) : s.headIdx < s.slots :=
  Nat.mod_lt _ (by have := s.two_le_slots; omega)

theorem State.tailIdx_lt (s : State) : s.tailIdx < s.slots :=
  Nat.mod_lt _ (by have := s.two_le_slots; omega)

theorem nextIdx_lt {n : Nat} (h : 2 ≤ n) (i : Nat) : nextIdx n i < n := Nat.mod_lt _ (by omega)

/-- `(i + 1) mod N` without the remainder (R69). -/
theorem nextIdx_eq {n i : Nat} (h : i < n) : nextIdx n i = if i + 1 = n then 0 else i + 1 := by
  unfold nextIdx
  split
  · next h1 => rw [h1, Nat.mod_self]
  · exact Nat.mod_eq_of_lt (by omega)

/-- `(tail - head) mod N` without the remainder (R69). -/
theorem occupied_eq {n h t : Nat} (hh : h < n) (ht : t < n) :
    occupied n h t = if h ≤ t then t - h else t + n - h := by
  unfold occupied
  split
  · rw [Int.emod_eq_of_lt (by omega) (by omega)]; omega
  · have : ((t : Int) - h) % n = (t : Int) - h + n := by
      rw [← Int.add_emod_right, Int.emod_eq_of_lt (by omega) (by omega)]
    rw [this]; omega

/-- `(h + k) mod N` without the remainder, for an offset below N. -/
theorem addMod_eq {n h k : Nat} (hh : h < n) (hk : k < n) :
    (h + k) % n = if h + k < n then h + k else h + k - n := by
  split
  · next h1 => exact Nat.mod_eq_of_lt h1
  · rw [Nat.mod_eq_sub_mod (by omega), Nat.mod_eq_of_lt (by omega)]

/-- "The occupied count never exceeds N - 1" (R126). -/
theorem occupied_lt {n h t : Nat} (hh : h < n) (ht : t < n) : occupied n h t < n := by
  rw [occupied_eq hh ht]; split <;> omega

/-- The occupied count is 0 exactly when the buffer is empty. -/
theorem occupied_eq_zero {n h t : Nat} (hh : h < n) (ht : t < n) : occupied n h t = 0 ↔ h = t := by
  rw [occupied_eq hh ht]; split <;> omega

/-- A commit adds one to the occupied count, when the buffer is not full. -/
theorem occupied_nextIdx_tail {n h t : Nat} (hh : h < n) (ht : t < n) (hf : nextIdx n t ≠ h) :
    occupied n h (nextIdx n t) = occupied n h t + 1 := by
  have h2 : 2 ≤ n ∨ n = 1 := by omega
  rcases h2 with h2 | h2
  · rw [occupied_eq hh (nextIdx_lt h2 t), occupied_eq hh ht]
    rw [nextIdx_eq ht] at hf ⊢
    split_ifs at hf ⊢ <;> omega
  · subst h2
    exact absurd (by simp [nextIdx]; omega) hf

/-- Advancing `head` takes one from the occupied count, when the buffer is not empty. -/
theorem occupied_nextIdx_head {n h t : Nat} (hh : h < n) (ht : t < n) (hne : h ≠ t) :
    occupied n (nextIdx n h) t + 1 = occupied n h t := by
  have h2 : 2 ≤ n := by omega
  rw [occupied_eq (nextIdx_lt h2 h) ht, occupied_eq hh ht, nextIdx_eq hh]
  split_ifs <;> omega

/-- The slot at offset `occupied` from `head` is the one `tail` names. -/
theorem add_occupied_mod {n h t : Nat} (hh : h < n) (ht : t < n) : (h + occupied n h t) % n = t := by
  rw [addMod_eq hh (occupied_lt hh ht), occupied_eq hh ht]
  split_ifs <;> omega

/-- No slot of the occupied range is the one `tail` names (R78). -/
theorem occupied_slot_ne_tail {n h t k : Nat} (hh : h < n) (ht : t < n) (hk : k < occupied n h t) :
    (h + k) % n ≠ t := by
  have hn := occupied_lt hh ht
  rw [addMod_eq hh (by omega)]
  rw [occupied_eq hh ht] at hk
  split_ifs at hk ⊢ <;> omega

/-- Offsets counted from the next slot. -/
theorem nextIdx_add_mod {n h k : Nat} : (nextIdx n h + k) % n = (h + (k + 1)) % n := by
  simp only [nextIdx, Nat.mod_add_mod]
  congr 1
  omega

@[simp] theorem nextIdx_mod {n i : Nat} : nextIdx n i % n = nextIdx n i := Nat.mod_mod _ _

end Machine

end Sys2Proof
end

