-- ==== Sys2Proof/Laws/Ops.lean ====
section
/-! SUPPORT. What each shared operation changes and what it leaves, so that no proof unfolds one: one
lemma per part of the state, and the lookup lemmas of a pin, a slot, the sequencer and the engines. -/

namespace Sys2Proof.Machine

@[simp] theorem State.writeSlot_size (s : State) (i : Nat) (v : Byte) :
    (s.writeSlot i v).size = s.size := rfl
@[simp] theorem State.writeSlot_ring (s : State) (i : Nat) (v : Byte) :
    (s.writeSlot i v).ring = { s.ring with storage := s.ring.storage.write i v } := rfl
@[simp] theorem State.writeSlot_ssr (s : State) (i : Nat) (v : Byte) :
    (s.writeSlot i v).ssr = s.ssr := rfl
@[simp] theorem State.writeSlot_pins (s : State) (i : Nat) (v : Byte) :
    (s.writeSlot i v).pins = s.pins := rfl
@[simp] theorem State.writeSlot_bus (s : State) (i : Nat) (v : Byte) :
    (s.writeSlot i v).bus = s.bus := rfl
@[simp] theorem State.writeSlot_ser (s : State) (i : Nat) (v : Byte) :
    (s.writeSlot i v).ser = s.ser := rfl
@[simp] theorem State.writeSlot_seq (s : State) (i : Nat) (v : Byte) :
    (s.writeSlot i v).seq = s.seq := rfl
@[simp] theorem State.writeSlot_ports (s : State) (i : Nat) (v : Byte) :
    (s.writeSlot i v).ports = s.ports := rfl
@[simp] theorem State.writeSlot_env (s : State) (i : Nat) (v : Byte) :
    (s.writeSlot i v).env = s.env := rfl

@[simp] theorem State.setHead_size (s : State) (i : Nat) :
    (s.setHead i).size = s.size := rfl
@[simp] theorem State.setHead_ring (s : State) (i : Nat) :
    (s.setHead i).ring = { s.ring with head := i } := rfl
@[simp] theorem State.setHead_ssr (s : State) (i : Nat) :
    (s.setHead i).ssr = s.ssr := rfl
@[simp] theorem State.setHead_pins (s : State) (i : Nat) :
    (s.setHead i).pins = s.pins := rfl
@[simp] theorem State.setHead_bus (s : State) (i : Nat) :
    (s.setHead i).bus = s.bus := rfl
@[simp] theorem State.setHead_ser (s : State) (i : Nat) :
    (s.setHead i).ser = s.ser := rfl
@[simp] theorem State.setHead_seq (s : State) (i : Nat) :
    (s.setHead i).seq = s.seq := rfl
@[simp] theorem State.setHead_ports (s : State) (i : Nat) :
    (s.setHead i).ports = s.ports := rfl
@[simp] theorem State.setHead_env (s : State) (i : Nat) :
    (s.setHead i).env = s.env := rfl

@[simp] theorem State.setTail_size (s : State) (i : Nat) :
    (s.setTail i).size = s.size := rfl
@[simp] theorem State.setTail_ring (s : State) (i : Nat) :
    (s.setTail i).ring = { s.ring with tail := i } := rfl
@[simp] theorem State.setTail_ssr (s : State) (i : Nat) :
    (s.setTail i).ssr = s.ssr := rfl
@[simp] theorem State.setTail_pins (s : State) (i : Nat) :
    (s.setTail i).pins = s.pins := rfl
@[simp] theorem State.setTail_bus (s : State) (i : Nat) :
    (s.setTail i).bus = s.bus := rfl
@[simp] theorem State.setTail_ser (s : State) (i : Nat) :
    (s.setTail i).ser = s.ser := rfl
@[simp] theorem State.setTail_seq (s : State) (i : Nat) :
    (s.setTail i).seq = s.seq := rfl
@[simp] theorem State.setTail_ports (s : State) (i : Nat) :
    (s.setTail i).ports = s.ports := rfl
@[simp] theorem State.setTail_env (s : State) (i : Nat) :
    (s.setTail i).env = s.env := rfl

@[simp] theorem State.setPin_size (s : State) (p : Byte) (v : Pin) :
    (s.setPin p v).size = s.size := rfl
@[simp] theorem State.setPin_ring (s : State) (p : Byte) (v : Pin) :
    (s.setPin p v).ring = s.ring := rfl
@[simp] theorem State.setPin_ssr (s : State) (p : Byte) (v : Pin) :
    (s.setPin p v).ssr = s.ssr := rfl
@[simp] theorem State.setPin_pins (s : State) (p : Byte) (v : Pin) :
    (s.setPin p v).pins = { dir := s.pins.dir.set p.toNat v.dir, level := s.pins.level.set p.toNat v.level } := rfl
@[simp] theorem State.setPin_bus (s : State) (p : Byte) (v : Pin) :
    (s.setPin p v).bus = s.bus := rfl
@[simp] theorem State.setPin_ser (s : State) (p : Byte) (v : Pin) :
    (s.setPin p v).ser = s.ser := rfl
@[simp] theorem State.setPin_seq (s : State) (p : Byte) (v : Pin) :
    (s.setPin p v).seq = s.seq := rfl
@[simp] theorem State.setPin_ports (s : State) (p : Byte) (v : Pin) :
    (s.setPin p v).ports = s.ports := rfl
@[simp] theorem State.setPin_env (s : State) (p : Byte) (v : Pin) :
    (s.setPin p v).env = s.env := rfl

@[simp] theorem State.writeBusdat_size (s : State) (d : Byte) :
    (s.writeBusdat d).size = s.size := rfl
@[simp] theorem State.writeBusdat_ring (s : State) (d : Byte) :
    (s.writeBusdat d).ring = s.ring := rfl
@[simp] theorem State.writeBusdat_ssr (s : State) (d : Byte) :
    (s.writeBusdat d).ssr = s.ssr := rfl
@[simp] theorem State.writeBusdat_pins (s : State) (d : Byte) :
    (s.writeBusdat d).pins = s.pins := rfl
@[simp] theorem State.writeBusdat_bus (s : State) (d : Byte) :
    (s.writeBusdat d).bus = { s.bus with dat := d, rdy := false, busy := true } := rfl
@[simp] theorem State.writeBusdat_ser (s : State) (d : Byte) :
    (s.writeBusdat d).ser = s.ser := rfl
@[simp] theorem State.writeBusdat_seq (s : State) (d : Byte) :
    (s.writeBusdat d).seq = s.seq := rfl
@[simp] theorem State.writeBusdat_ports (s : State) (d : Byte) :
    (s.writeBusdat d).ports = s.ports := rfl
@[simp] theorem State.writeBusdat_env (s : State) (d : Byte) :
    (s.writeBusdat d).env = s.env := rfl

@[simp] theorem State.emitBus_size (s : State) (e : BusEvent) :
    (s.emitBus e).size = s.size := rfl
@[simp] theorem State.emitBus_ring (s : State) (e : BusEvent) :
    (s.emitBus e).ring = s.ring := rfl
@[simp] theorem State.emitBus_ssr (s : State) (e : BusEvent) :
    (s.emitBus e).ssr = s.ssr := rfl
@[simp] theorem State.emitBus_pins (s : State) (e : BusEvent) :
    (s.emitBus e).pins = s.pins := rfl
@[simp] theorem State.emitBus_bus (s : State) (e : BusEvent) :
    (s.emitBus e).bus = { s.bus with trace := s.bus.trace ++ [e] } := rfl
@[simp] theorem State.emitBus_ser (s : State) (e : BusEvent) :
    (s.emitBus e).ser = s.ser := rfl
@[simp] theorem State.emitBus_seq (s : State) (e : BusEvent) :
    (s.emitBus e).seq = s.seq := rfl
@[simp] theorem State.emitBus_ports (s : State) (e : BusEvent) :
    (s.emitBus e).ports = s.ports := rfl
@[simp] theorem State.emitBus_env (s : State) (e : BusEvent) :
    (s.emitBus e).env = s.env := rfl

@[simp] theorem State.writeTxdat_size (s : State) (d : Byte) :
    (s.writeTxdat d).size = s.size := rfl
@[simp] theorem State.writeTxdat_ring (s : State) (d : Byte) :
    (s.writeTxdat d).ring = s.ring := rfl
@[simp] theorem State.writeTxdat_ssr (s : State) (d : Byte) :
    (s.writeTxdat d).ssr = s.ssr := rfl
@[simp] theorem State.writeTxdat_pins (s : State) (d : Byte) :
    (s.writeTxdat d).pins = s.pins := rfl
@[simp] theorem State.writeTxdat_bus (s : State) (d : Byte) :
    (s.writeTxdat d).bus = s.bus := rfl
@[simp] theorem State.writeTxdat_ser (s : State) (d : Byte) :
    (s.writeTxdat d).ser = { s.ser with txdat := d, txrdy := false, busy := true } := rfl
@[simp] theorem State.writeTxdat_seq (s : State) (d : Byte) :
    (s.writeTxdat d).seq = s.seq := rfl
@[simp] theorem State.writeTxdat_ports (s : State) (d : Byte) :
    (s.writeTxdat d).ports = s.ports := rfl
@[simp] theorem State.writeTxdat_env (s : State) (d : Byte) :
    (s.writeTxdat d).env = s.env := rfl

@[simp] theorem State.goto_size (s : State) (i : Instr) (k : Nat) :
    (s.goto i k).size = s.size := rfl
@[simp] theorem State.goto_ring (s : State) (i : Instr) (k : Nat) :
    (s.goto i k).ring = s.ring := rfl
@[simp] theorem State.goto_ssr (s : State) (i : Instr) (k : Nat) :
    (s.goto i k).ssr = s.ssr := rfl
@[simp] theorem State.goto_pins (s : State) (i : Instr) (k : Nat) :
    (s.goto i k).pins = s.pins := rfl
@[simp] theorem State.goto_bus (s : State) (i : Instr) (k : Nat) :
    (s.goto i k).bus = s.bus := rfl
@[simp] theorem State.goto_ser (s : State) (i : Instr) (k : Nat) :
    (s.goto i k).ser = s.ser := rfl
@[simp] theorem State.goto_seq (s : State) (i : Instr) (k : Nat) :
    (s.goto i k).seq = { s.seq with cop := some i, cphase := k } := rfl
@[simp] theorem State.goto_ports (s : State) (i : Instr) (k : Nat) :
    (s.goto i k).ports = s.ports := rfl
@[simp] theorem State.goto_env (s : State) (i : Instr) (k : Nat) :
    (s.goto i k).env = s.env := rfl

@[simp] theorem State.finish_size (s : State) (r : Response) :
    (s.finish r).size = s.size := rfl
@[simp] theorem State.finish_ring (s : State) (r : Response) :
    (s.finish r).ring = s.ring := rfl
@[simp] theorem State.finish_ssr (s : State) (r : Response) :
    (s.finish r).ssr = s.ssr := rfl
@[simp] theorem State.finish_pins (s : State) (r : Response) :
    (s.finish r).pins = s.pins := rfl
@[simp] theorem State.finish_bus (s : State) (r : Response) :
    (s.finish r).bus = s.bus := rfl
@[simp] theorem State.finish_ser (s : State) (r : Response) :
    (s.finish r).ser = s.ser := rfl
@[simp] theorem State.finish_seq (s : State) (r : Response) :
    (s.finish r).seq = { s.seq with cop := none } := rfl
@[simp] theorem State.finish_ports (s : State) (r : Response) :
    (s.finish r).ports = { s.ports with rsp := r } := rfl
@[simp] theorem State.finish_env (s : State) (r : Response) :
    (s.finish r).env = s.env := rfl

@[simp] theorem State.configureOutput_size (s : State) (p : Byte) (l : Level) :
    (s.configureOutput p l).size = s.size := rfl
@[simp] theorem State.configureOutput_ring (s : State) (p : Byte) (l : Level) :
    (s.configureOutput p l).ring = s.ring := rfl
@[simp] theorem State.configureOutput_ssr (s : State) (p : Byte) (l : Level) :
    (s.configureOutput p l).ssr = s.ssr := rfl
@[simp] theorem State.configureOutput_bus (s : State) (p : Byte) (l : Level) :
    (s.configureOutput p l).bus = s.bus := rfl
@[simp] theorem State.configureOutput_ser (s : State) (p : Byte) (l : Level) :
    (s.configureOutput p l).ser = s.ser := rfl
@[simp] theorem State.configureOutput_seq (s : State) (p : Byte) (l : Level) :
    (s.configureOutput p l).seq = s.seq := rfl
@[simp] theorem State.configureOutput_ports (s : State) (p : Byte) (l : Level) :
    (s.configureOutput p l).ports = s.ports := rfl
@[simp] theorem State.configureOutput_env (s : State) (p : Byte) (l : Level) :
    (s.configureOutput p l).env = s.env := rfl

@[simp] theorem State.driveLevel_size (s : State) (p : Byte) (l : Level) :
    (s.driveLevel p l).size = s.size := rfl
@[simp] theorem State.driveLevel_ring (s : State) (p : Byte) (l : Level) :
    (s.driveLevel p l).ring = s.ring := rfl
@[simp] theorem State.driveLevel_ssr (s : State) (p : Byte) (l : Level) :
    (s.driveLevel p l).ssr = s.ssr := rfl
@[simp] theorem State.driveLevel_bus (s : State) (p : Byte) (l : Level) :
    (s.driveLevel p l).bus = s.bus := rfl
@[simp] theorem State.driveLevel_ser (s : State) (p : Byte) (l : Level) :
    (s.driveLevel p l).ser = s.ser := rfl
@[simp] theorem State.driveLevel_seq (s : State) (p : Byte) (l : Level) :
    (s.driveLevel p l).seq = s.seq := rfl
@[simp] theorem State.driveLevel_ports (s : State) (p : Byte) (l : Level) :
    (s.driveLevel p l).ports = s.ports := rfl
@[simp] theorem State.driveLevel_env (s : State) (p : Byte) (l : Level) :
    (s.driveLevel p l).env = s.env := rfl

@[simp] theorem State.commit_size (s : State) : s.commit.size = s.size := by
  unfold State.commit; split <;> rfl
@[simp] theorem State.commit_ssr (s : State) : s.commit.ssr = s.ssr := by
  unfold State.commit; split <;> rfl
@[simp] theorem State.commit_pins (s : State) : s.commit.pins = s.pins := by
  unfold State.commit; split <;> rfl
@[simp] theorem State.commit_bus (s : State) : s.commit.bus = s.bus := by
  unfold State.commit; split <;> rfl
@[simp] theorem State.commit_ser (s : State) : s.commit.ser = s.ser := by
  unfold State.commit; split <;> rfl
@[simp] theorem State.commit_seq (s : State) : s.commit.seq = s.seq := by
  unfold State.commit; split <;> rfl
@[simp] theorem State.commit_ports (s : State) : s.commit.ports = s.ports := by
  unfold State.commit; split <;> rfl
@[simp] theorem State.commit_env (s : State) : s.commit.env = s.env := by
  unfold State.commit; split <;> rfl

@[simp] theorem State.busDone_size (s : State) : s.busDone.size = s.size := by
  unfold State.busDone; split <;> rfl
@[simp] theorem State.busDone_ring (s : State) : s.busDone.ring = s.ring := by
  unfold State.busDone; split <;> rfl
@[simp] theorem State.busDone_ssr (s : State) : s.busDone.ssr = s.ssr := by
  unfold State.busDone; split <;> rfl
@[simp] theorem State.busDone_pins (s : State) : s.busDone.pins = s.pins := by
  unfold State.busDone; split <;> rfl
@[simp] theorem State.busDone_ser (s : State) : s.busDone.ser = s.ser := by
  unfold State.busDone; split <;> rfl
@[simp] theorem State.busDone_seq (s : State) : s.busDone.seq = s.seq := by
  unfold State.busDone; split <;> rfl
@[simp] theorem State.busDone_ports (s : State) : s.busDone.ports = s.ports := by
  unfold State.busDone; split <;> rfl
@[simp] theorem State.busDone_env (s : State) : s.busDone.env = s.env := by
  unfold State.busDone; split <;> rfl

@[simp] theorem State.txDone_size (s : State) : s.txDone.size = s.size := by
  unfold State.txDone; split <;> rfl
@[simp] theorem State.txDone_ring (s : State) : s.txDone.ring = s.ring := by
  unfold State.txDone; split <;> rfl
@[simp] theorem State.txDone_ssr (s : State) : s.txDone.ssr = s.ssr := by
  unfold State.txDone; split <;> rfl
@[simp] theorem State.txDone_pins (s : State) : s.txDone.pins = s.pins := by
  unfold State.txDone; split <;> rfl
@[simp] theorem State.txDone_bus (s : State) : s.txDone.bus = s.bus := by
  unfold State.txDone; split <;> rfl
@[simp] theorem State.txDone_seq (s : State) : s.txDone.seq = s.seq := by
  unfold State.txDone; split <;> rfl
@[simp] theorem State.txDone_ports (s : State) : s.txDone.ports = s.ports := by
  unfold State.txDone; split <;> rfl
@[simp] theorem State.txDone_env (s : State) : s.txDone.env = s.env := by
  unfold State.txDone; split <;> rfl

@[simp] theorem State.configureSerial_size (s : State) : s.configureSerial.size = s.size := by
  unfold State.configureSerial; split <;> rfl
@[simp] theorem State.configureSerial_ring (s : State) : s.configureSerial.ring = s.ring := by
  unfold State.configureSerial; split <;> rfl
@[simp] theorem State.configureSerial_ssr (s : State) : s.configureSerial.ssr = s.ssr := by
  unfold State.configureSerial; split <;> rfl
@[simp] theorem State.configureSerial_pins (s : State) : s.configureSerial.pins = s.pins := by
  unfold State.configureSerial; split <;> rfl
@[simp] theorem State.configureSerial_bus (s : State) : s.configureSerial.bus = s.bus := by
  unfold State.configureSerial; split <;> rfl
@[simp] theorem State.configureSerial_seq (s : State) : s.configureSerial.seq = s.seq := by
  unfold State.configureSerial; split <;> rfl
@[simp] theorem State.configureSerial_ports (s : State) : s.configureSerial.ports = s.ports := by
  unfold State.configureSerial; split <;> rfl
@[simp] theorem State.configureSerial_env (s : State) : s.configureSerial.env = s.env := by
  unfold State.configureSerial; split <;> rfl


/-! ### derived reads -/

theorem State.slots_of_size {s t : State} (h : t.size = s.size) : t.slots = s.slots := by
  simp only [State.slots, h]

theorem State.headIdx_eq_of {s t : State} (hs : t.size = s.size) (hr : t.ring = s.ring) :
    t.headIdx = s.headIdx := by simp only [State.headIdx, State.slots, hs, hr]

theorem State.tailIdx_eq_of {s t : State} (hs : t.size = s.size) (hr : t.ring = s.ring) :
    t.tailIdx = s.tailIdx := by simp only [State.tailIdx, State.slots, hs, hr]

theorem State.readSlot_eq_of {s t : State} (hr : t.ring = s.ring) (he : t.env.boots = s.env.boots)
    (i : Nat) : t.readSlot i = s.readSlot i := by simp only [State.readSlot, hr, he]

/-- A slot after a PUSH's write: the byte at the slot written, every other as before (R23). -/
theorem State.readSlot_writeSlot (s : State) (i : Nat) (v : Byte) (x : Nat) :
    (s.writeSlot i v).readSlot x = if x = i then v else s.readSlot x := by
  simp only [State.readSlot, State.writeSlot_ring, State.writeSlot_env, Memory.read_write]
  by_cases h : x = i <;> simp [h]

/-- The ring after a commit (R121, R122). -/
theorem State.commit_ring (s : State) :
    s.commit.ring = if s.isFull then s.ring else { s.ring with tail := nextIdx s.slots s.tailIdx } := by
  unfold State.commit; split <;> rfl

/-! ### pins -/

@[simp] theorem State.pin_setPin_same (s : State) (p : Byte) (v : Pin) : (s.setPin p v).pin p = v := by
  simp [State.pin]

theorem State.pin_setPin_other (s : State) {p q : Byte} (v : Pin) (h : q ≠ p) :
    (s.setPin p v).pin q = s.pin q := by
  have h1 : p.toNat ≠ q.toNat := fun e => h (BitVec.eq_of_toNat_eq e).symm
  simp [State.pin, h1]

/-- A pin after one pin is written. -/
theorem State.pin_setPin (s : State) (p q : Byte) (v : Pin) :
    (s.setPin p v).pin q = if q = p then v else s.pin q := by
  by_cases h : q = p
  · subst h; simp
  · simp [h, State.pin_setPin_other s v h]

theorem State.pin_configureOutput (s : State) (p q : Byte) (l : Level) :
    (s.configureOutput p l).pin q = if q = p then { dir := .output, level := l } else s.pin q :=
  State.pin_setPin s p q _

theorem State.pin_driveLevel (s : State) (p q : Byte) (l : Level) :
    (s.driveLevel p l).pin q = if q = p then { dir := (s.pin p).dir, level := l } else s.pin q :=
  State.pin_setPin s p q _

theorem State.pin_eq_of {s t : State} (h : t.pins = s.pins) (p : Byte) : t.pin p = s.pin p := by
  simp only [State.pin, h]

/-! ### the sequencer -/

theorem State.phaseOf_idle {s : State} (h : s.seq.cop = none) (i : Instr) : s.phaseOf i = some 1 := by
  simp [State.phaseOf, h]

theorem State.phaseOf_same {s : State} {i : Instr} (h : s.seq.cop = some i) :
    s.phaseOf i = some s.seq.cphase := by
  simp [State.phaseOf, h]

theorem State.phaseOf_other {s : State} {i j : Instr} (h : s.seq.cop = some j) (hij : j ≠ i) :
    s.phaseOf i = none := by
  simp [State.phaseOf, h, hij]

theorem State.whenIdle_idle {s : State} (h : s.seq.cop = none) (f : State → Result) :
    s.whenIdle f = f s := by
  simp [State.whenIdle, h]

theorem State.whenIdle_busy {s : State} {i : Instr} (h : s.seq.cop = some i) (f : State → Result) :
    s.whenIdle f = .next s := by
  simp [State.whenIdle, h]

/-! ### the engines -/

theorem State.busDone_bus (s : State) :
    s.busDone.bus = if s.busDoneEnabled then
      { s.bus with trace := s.bus.trace ++ [.xfer s.bus.dat], busy := false, rdy := true } else s.bus := by
  unfold State.busDone; split <;> rfl

theorem State.txDone_ser (s : State) :
    s.txDone.ser = if s.txDoneEnabled then
      { s.ser with trace := s.ser.trace ++ [s.ser.txdat], busy := false, txrdy := true } else s.ser := by
  unfold State.txDone; split <;> rfl

end Sys2Proof.Machine
end

