-- ==== Sys2Proof/Laws/Exec.lean ====
section
/-! SUPPORT. What each meaning can do: one inversion lemma per operation ("if it answers next t, then
one of these"), and what one step of each agent can do. Provers cite these and unfold no meaning. -/

namespace Sys2Proof.Machine

/-! ### the ring buffer -/

theorem execPush_eq (b : Byte) (s : State) : execPush b s = .next (s.writeSlot s.tailIdx b).commit := rfl

theorem execAvail_cases {s t : State} (h : execAvail s = .next t) :
    (s.phaseOf .avail = none ∧ t = s) ∨
    (s.phaseOf .avail = some 1 ∧ t = (s.setSeq { s.seq with tTail := s.tailIdx }).goto .avail 2) ∨
    (∃ k, s.phaseOf .avail = some k ∧ k ≠ 1 ∧
      t = s.finish (.value (BitVec.ofNat 8 (occupied s.slots s.headIdx s.tTailIdx)))) := by
  unfold execAvail at h
  split at h <;> injection h with h <;> subst h <;> simp_all

theorem execPop_cases {s t : State} (h : execPop s = .next t) :
    (s.phaseOf .pop = none ∧ t = s) ∨
    (s.phaseOf .pop = some 1 ∧ t = (s.setSeq { s.seq with tTail := s.tailIdx }).goto .pop 2) ∨
    (s.phaseOf .pop = some 2 ∧ s.headIdx = s.tTailIdx ∧ t = s.finish (.value Config.sentinel)) ∨
    (s.phaseOf .pop = some 2 ∧ s.headIdx ≠ s.tTailIdx ∧ t = s.goto .pop 3) ∨
    (s.phaseOf .pop = some 3 ∧ t = (s.setSeq { s.seq with tByte := s.readSlot s.headIdx }).goto .pop 4) ∨
    (s.phaseOf .pop = some 4 ∧ t = (s.setHead (nextIdx s.slots s.headIdx)).goto .pop 5) ∨
    (∃ k, s.phaseOf .pop = some k ∧ k ≠ 1 ∧ k ≠ 2 ∧ k ≠ 3 ∧ k ≠ 4 ∧ t = s.finish (.value s.seq.tByte)) := by
  unfold execPop at h
  split at h
  case h_3 h2 =>
    split at h <;> injection h with h <;> subst h <;> simp_all
  all_goals injection h with h; subst h; simp_all

/-! ### the bus -/

theorem execBusinit_cases {s t : State} (h : execBusinit s = .next t) :
    (s.phaseOf .businit = none ∧ t = s) ∨
    (s.phaseOf .businit = some 1 ∧ t = (s.configureOutput Config.pinBusCs .high).goto .businit 2) ∨
    (s.phaseOf .businit = some 2 ∧ t = (s.configureOutput Config.pinBusData .low).goto .businit 3) ∨
    (s.phaseOf .businit = some 3 ∧ t = (s.configureOutput Config.pinBusClk .low).goto .businit 4) ∨
    (s.phaseOf .businit = some 4 ∧
      t = (s.setBus { s.bus with ctl := { en := true, mstr := true, x2 := false }, rdy := false, busy := false }).goto .businit 5) ∨
    (∃ k, s.phaseOf .businit = some k ∧ k ≠ 1 ∧ k ≠ 2 ∧ k ≠ 3 ∧ k ≠ 4 ∧ t = s.finish .done) := by
  unfold execBusinit at h
  split at h <;> injection h with h <;> subst h <;> simp_all

theorem execBussend_cases {a v : Byte} {s t : State} (h : execBussend a v s = .next t) :
    (s.phaseOf (.bussend a v) = none ∧ t = s) ∨
    (s.phaseOf (.bussend a v) = some 1 ∧ s.busReady = true ∧
      t = ((((s.setSeq { s.seq with tAddr := a, tVal := v }).driveLevel Config.pinBusCs .low).emitBus .csFall).goto (.bussend a v) 2)) ∨
    (s.phaseOf (.bussend a v) = some 2 ∧ t = (s.writeBusdat s.seq.tAddr).goto (.bussend a v) 3) ∨
    (s.phaseOf (.bussend a v) = some 3 ∧ s.bus.rdy = true ∧ t = s.goto (.bussend a v) 4) ∨
    (s.phaseOf (.bussend a v) = some 4 ∧ t = (s.writeBusdat s.seq.tVal).goto (.bussend a v) 5) ∨
    (s.phaseOf (.bussend a v) = some 5 ∧ s.bus.rdy = true ∧ t = s.goto (.bussend a v) 6) ∨
    ((s.phaseOf (.bussend a v) = some 3 ∨ s.phaseOf (.bussend a v) = some 5) ∧ s.bus.rdy = false ∧ t = s) ∨
    (s.phaseOf (.bussend a v) = some 6 ∧
      t = ((s.driveLevel Config.pinBusCs .high).emitBus .csRise).goto (.bussend a v) 7) ∨
    (∃ k, s.phaseOf (.bussend a v) = some k ∧ k ≠ 1 ∧ k ≠ 2 ∧ k ≠ 3 ∧ k ≠ 4 ∧ k ≠ 5 ∧ k ≠ 6 ∧
      t = s.finish .done) := by
  unfold execBussend at h
  split at h
  case h_2 =>
    split at h
    · injection h with h; subst h; simp_all
    · exact nomatch h
  case h_4 | h_6 =>
    split at h <;> injection h with h <;> subst h <;> simp_all
  all_goals injection h with h; subst h; simp_all

/-! ### the record, the pins, the transmitter -/

theorem returnField_cases {x : Byte} {s t : State} (h : returnField x s = .next t) :
    (s.seq.cop = none ∧ t = s.finish (.value x)) ∨ (s.seq.cop ≠ none ∧ t = s) := by
  unfold returnField State.whenIdle at h
  split at h <;> injection h with h <;> subst h <;> simp_all

theorem writeRecord_cases {r : Ssr} {s t : State} (h : writeRecord r s = .next t) :
    (s.seq.cop = none ∧ t = (s.setSsr r).finish .done) ∨ (s.seq.cop ≠ none ∧ t = s) := by
  unfold writeRecord State.whenIdle at h
  split at h <;> injection h with h <;> subst h <;> simp_all

theorem execWrDrivemode_cases {v : BitVec 2} {s t : State} (h : execWrDrivemode v s = .next t) :
    v ≠ 3#2 ∧ writeRecord { s.ssr with drivemode := v } s = .next t := by
  unfold execWrDrivemode at h
  split at h
  · exact nomatch h
  · exact ⟨by assumption, h⟩

theorem execPincfg_cases {p : Byte} {l : Level} {s t : State} (h : execPincfg p l s = .next t) :
    (s.seq.cop = none ∧ (s.bus.ctl.en && isBusPin p) = false ∧ t = (s.configureOutput p l).finish .done) ∨
    (s.seq.cop ≠ none ∧ t = s) := by
  unfold execPincfg State.whenIdle at h
  split at h
  · dsimp only at h
    split at h
    · exact nomatch h
    · injection h with h; subst h; simp_all
  · injection h with h; subst h; simp_all

theorem execTxbyte_cases {ch : Byte} {s t : State} (h : execTxbyte ch s = .next t) :
    (s.phaseOf (.txbyte ch) = none ∧ t = s) ∨
    (s.phaseOf (.txbyte ch) = some 1 ∧
      t = (s.setSeq { s.seq with tCh := ch }).goto (.txbyte ch) (if s.ser.txrdy then 2 else 1)) ∨
    (s.phaseOf (.txbyte ch) = some 2 ∧ t = (s.writeTxdat s.seq.tCh).goto (.txbyte ch) 3) ∨
    (∃ k, s.phaseOf (.txbyte ch) = some k ∧ k ≠ 1 ∧ k ≠ 2 ∧ t = s.finish .done) := by
  unfold execTxbyte at h
  split at h <;> injection h with h <;> subst h <;> simp_all

theorem observe_cases {f : BitVec 3} {s t : State} (h : observe f s = .next t) :
    ∃ v, s.ssr.field f = some v ∧ t = s.setPorts { s.ports with oVal := some v } := by
  unfold observe at h
  split at h
  · next v hv => injection h with h; exact ⟨v, hv, h.symm⟩
  · exact nomatch h

/-! ### the agents -/

theorem onProducerPort_cases {w : Word} {s t : State} (h : onProducerPort w s = .next t) :
    ∃ b, decode w = .ok (.push b) ∧ exec (.push b) s = .next t := by
  unfold onProducerPort at h
  split at h
  · exact nomatch h
  · next i hi =>
    split at h
    · next hp =>
      cases i <;> first | exact ⟨_, hi, h⟩ | exact nomatch hp
    · exact nomatch h

theorem onConsumerPort_cases {w : Word} {s t : State} (h : onConsumerPort w s = .next t) :
    ∃ i, decode w = .ok i ∧ i.port = .consumer ∧
      ((s.seq.cop ≠ none ∧ t = s) ∨ (s.seq.cop = none ∧ exec i s.settled = .next t)) := by
  unfold onConsumerPort at h
  split at h
  · exact nomatch h
  · next i hi =>
    split at h
    · next hp =>
      refine ⟨i, hi, hp, ?_⟩
      split at h
      · next hb => injection h with h; exact .inl ⟨Option.isSome_iff_ne_none.1 hb, h.symm⟩
      · next hb => exact .inr ⟨by simpa using hb, h⟩
    · exact nomatch h

theorem State.mainBusy_false {s : State} : s.mainBusy = false ↔ s.seq.cop = none ∧ s.env.pending = [] := by
  simp [State.mainBusy]

theorem consumerStep_cases {s t : State} (h : consumerStep s = .next t) :
    (∃ i, s.seq.cop = some i ∧ exec i s = .next t) ∨
    (s.seq.cop = none ∧ s.env.pending = [] ∧ t = s) ∨
    (∃ m rest, s.seq.cop = none ∧ s.env.pending = m :: rest ∧
      issue m (s.setEnv { s.env with pending := rest }) = .next t) := by
  unfold consumerStep at h
  split at h
  · next i hi => exact .inl ⟨i, hi, h⟩
  · next hc =>
    split at h
    · next hp => injection h with h; exact .inr (.inl ⟨hc, hp, h.symm⟩)
    · next m rest hp => exact .inr (.inr ⟨m, rest, hc, hp, h⟩)

/-- An item the main loop issues is one operation's micro-step, or nothing at all. -/
theorem issue_cases {m : MainOp} {s t : State} (h : issue m s = .next t) :
    (m.due s.lastByte = none ∧ t = s) ∨ ∃ i, m.due s.lastByte = some i ∧ exec i s = .next t := by
  unfold issue at h
  split at h
  · next hn => injection h with h; exact .inl ⟨hn, h.symm⟩
  · next i hi => exact .inr ⟨i, hi, h⟩

/-- An item stands for the operation it names, or for one of three that wait for a byte. -/
theorem MainOp.due_cases {m : MainOp} {last : Byte} {i : Instr} (h : m.due last = some i) :
    m = .op i ∨ (m = .popIfNonzero ∧ i = .pop) ∨ (∃ c, m = .sendRead c ∧ i = .bussend c last) ∨
      (m = .writeNextMode ∧ i = .wrDrivemode (nextMode (last.setWidth 2))) := by
  cases m with
  | op j => injection h with h; exact .inl (h ▸ rfl)
  | popIfNonzero =>
    simp only [MainOp.due] at h
    split at h
    · exact nomatch h
    · injection h with h; exact .inr (.inl ⟨rfl, h.symm⟩)
  | sendRead c => injection h with h; exact .inr (.inr (.inl ⟨c, rfl, h.symm⟩))
  | writeNextMode => injection h with h; exact .inr (.inr (.inr ⟨rfl, h.symm⟩))

/-- What is settled is an item that was there, or the operation such an item stands for. -/
theorem mem_settleFirst {last : Byte} {m : MainOp} {items : List MainOp} (h : m ∈ settleFirst last items) :
    m ∈ items ∨ ∃ n i, n ∈ items ∧ n.due last = some i ∧ m = .op i := by
  cases items with
  | nil => exact .inl h
  | cons n rest =>
    simp only [settleFirst] at h
    split at h
    · exact .inl (List.mem_cons_of_mem _ h)
    · next i hi =>
      rcases List.mem_cons.1 h with rfl | h
      · exact .inr ⟨n, i, List.mem_cons_self .., hi, rfl⟩
      · exact .inl (List.mem_cons_of_mem _ h)

/-- Nothing to settle. -/
theorem State.settled_of_nil {s : State} (h : s.env.pending = []) : s.settled = s := by
  obtain ⟨_, _, _, _, _, _, _, _, env⟩ := s
  obtain ⟨_, _, _, _⟩ := env
  cases h
  rfl

theorem startPseudo_cases {p : Pseudo} {s t : State} (h : startPseudo p s = .next t) :
    ∃ ops, expand p = .ok ops ∧
      ((s.mainBusy = true ∧ t = s) ∨ (s.mainBusy = false ∧ t = s.setEnv { s.env with pending := ops })) := by
  unfold startPseudo at h
  split at h
  · exact nomatch h
  · next ops hops =>
    refine ⟨ops, hops, ?_⟩
    split at h
    · next hb => injection h with h; exact .inl ⟨hb, h.symm⟩
    · next hb => injection h with h; exact .inr ⟨by simpa using hb, h.symm⟩

/-- Taking an event off the inputs changes `env` alone, and neither `pending` nor `boots`. -/
theorem State.taken_eq (s : State) :
    ∃ inputs tick, s.taken = s.setEnv { s.env with inputs := inputs, tick := tick } := by
  unfold State.taken
  split
  · next e rest h => exact ⟨rest, s.env.tick, rfl⟩
  · next h => exact ⟨s.env.inputs, s.env.tick + 1, rfl⟩

/-- What one step is: the next event, performed on the state without it. -/
theorem step_eq (s : State) : step s = fire s.nextEvent s.taken := rfl

/-- No operation touches the world around the block or the parameter N. -/
theorem exec_env_size {i : Instr} {s t : State} (h : exec i s = .next t) :
    t.env = s.env ∧ t.size = s.size := by
  cases i with
  | push b => injection h with h; subst h; simp
  | avail => rcases execAvail_cases h with ⟨-, rfl⟩ | ⟨-, rfl⟩ | ⟨k, -, -, rfl⟩ <;> simp
  | pop =>
    rcases execPop_cases h with ⟨-, rfl⟩ | ⟨-, rfl⟩ | ⟨-, -, rfl⟩ | ⟨-, -, rfl⟩ | ⟨-, rfl⟩ | ⟨-, rfl⟩ |
      ⟨k, -, -, -, -, -, rfl⟩ <;> simp
  | businit =>
    rcases execBusinit_cases h with ⟨-, rfl⟩ | ⟨-, rfl⟩ | ⟨-, rfl⟩ | ⟨-, rfl⟩ | ⟨-, rfl⟩ |
      ⟨k, -, -, -, -, -, rfl⟩ <;> simp
  | bussend a v =>
    rcases execBussend_cases h with ⟨-, rfl⟩ | ⟨-, -, rfl⟩ | ⟨-, rfl⟩ | ⟨-, -, rfl⟩ | ⟨-, rfl⟩ |
      ⟨-, -, rfl⟩ | ⟨-, -, rfl⟩ | ⟨-, rfl⟩ | ⟨k, -, -, -, -, -, -, -, rfl⟩ <;> simp
  | rdButton1 | rdDrivemode | rdJoyx | rdJoyy | rdSpeedknob | rdLeds | rdFlash =>
    rcases returnField_cases h with ⟨-, rfl⟩ | ⟨-, rfl⟩ <;> simp
  | wrDrivemode v =>
    rcases writeRecord_cases (execWrDrivemode_cases h).2 with ⟨-, rfl⟩ | ⟨-, rfl⟩ <;> simp
  | wrButton1 v =>
    rcases writeRecord_cases (r := { s.ssr with button1 := v }) h with ⟨-, rfl⟩ | ⟨-, rfl⟩ <;> simp
  | wrJoyx v =>
    rcases writeRecord_cases (r := { s.ssr with joyx := v }) h with ⟨-, rfl⟩ | ⟨-, rfl⟩ <;> simp
  | wrJoyy v =>
    rcases writeRecord_cases (r := { s.ssr with joyy := v }) h with ⟨-, rfl⟩ | ⟨-, rfl⟩ <;> simp
  | wrSpeedknob v =>
    rcases writeRecord_cases (r := { s.ssr with speedknob := v }) h with ⟨-, rfl⟩ | ⟨-, rfl⟩ <;> simp
  | wrLeds v =>
    rcases writeRecord_cases (r := { s.ssr with leds := v }) h with ⟨-, rfl⟩ | ⟨-, rfl⟩ <;> simp
  | wrFlash v =>
    rcases writeRecord_cases (r := { s.ssr with flash := v }) h with ⟨-, rfl⟩ | ⟨-, rfl⟩ <;> simp
  | pincfg p l =>
    rcases execPincfg_cases h with ⟨-, -, rfl⟩ | ⟨-, rfl⟩ <;> simp
  | txbyte ch =>
    rcases execTxbyte_cases h with ⟨-, rfl⟩ | ⟨-, rfl⟩ | ⟨-, rfl⟩ | ⟨k, -, -, -, rfl⟩ <;> simp

/-- An environment that differs from a state's only in what an event may change outside the block:
the same power-on count, and nothing pending but what was pending, an operation that an item pending
stood for, or an expansion's items. -/
def EnvAfter (s : State) (env : Env) : Prop :=
  env.boots = s.env.boots ∧
  ∀ m ∈ env.pending, (m ∈ s.env.pending ∨
      ∃ n i, n ∈ s.env.pending ∧ n.due s.lastByte = some i ∧ m = .op i) ∨
    ∃ p ops, expand p = .ok ops ∧ m ∈ ops

theorem EnvAfter.same (s : State) : EnvAfter s s.env := ⟨rfl, fun _ hm => .inl (.inl hm)⟩

theorem EnvAfter.settled (s : State) : EnvAfter s s.settled.env :=
  ⟨rfl, fun _ hm => .inl (mem_settleFirst hm)⟩

/-- What one event does to everything but the world around the block: nothing, one micro-step of one
operation, an engine's step, the observer's, boot's, or power-on. -/
theorem fire_cases {e : Event} {s t : State} (h : fire e s = .next t) :
    (∃ env, t = s.setEnv env ∧ EnvAfter s env) ∨
    (∃ b w, e = .producer w ∧ decode w = .ok (.push b) ∧ exec (.push b) s = .next t) ∨
    (∃ i, e = .consumer ∧ s.seq.cop = some i ∧ exec i s = .next t) ∨
    (∃ i env, e.agent = .consumer ∧ s.seq.cop = none ∧ EnvAfter s env ∧
      ((∃ w, e = .command w ∧ decode w = .ok i ∧ i.port = .consumer) ∨
        (e = .consumer ∧ ∃ m rest, s.env.pending = m :: rest ∧ m.due s.lastByte = some i)) ∧
      exec i (s.setEnv env) = .next t) ∨
    (e = .busDone ∧ t = s.busDone) ∨ (e = .txDone ∧ t = s.txDone) ∨
    (∃ f, e = .obsRead f ∧ observe f s = .next t) ∨
    (e = .serialConfigured ∧ t = s.configureSerial) ∨
    (∃ d, e = .powerOn d ∧ t = s.powerOn d) := by
  cases e with
  | producer w =>
    obtain ⟨b, hw, hb⟩ := onProducerPort_cases h
    exact .inr (.inl ⟨b, w, rfl, hw, hb⟩)
  | command w =>
    obtain ⟨i, hw, hp, ⟨-, rfl⟩ | ⟨hb, hi⟩⟩ := onConsumerPort_cases h
    · exact .inl ⟨t.env, rfl, .same t⟩
    · exact .inr (.inr (.inr (.inl ⟨i, _, rfl, hb, .settled s, .inl ⟨w, rfl, hw, hp⟩, hi⟩)))
  | consumer =>
    obtain ⟨i, hc, hi⟩ | ⟨-, -, rfl⟩ | ⟨m, rest, hc, hp, hm⟩ := consumerStep_cases h
    · exact .inr (.inr (.inl ⟨i, rfl, hc, hi⟩))
    · exact .inl ⟨t.env, rfl, .same t⟩
    · have henv : EnvAfter s { s.env with pending := rest } :=
        ⟨rfl, fun x hx => .inl (.inl (hp ▸ List.mem_cons_of_mem _ hx))⟩
      obtain ⟨-, rfl⟩ | ⟨i, hi, hx⟩ := issue_cases hm
      · exact .inl ⟨_, rfl, henv⟩
      · exact .inr (.inr (.inr (.inl ⟨i, _, rfl, hc, henv, .inr ⟨rfl, m, rest, hp, hi⟩, hx⟩)))
  | pseudo p =>
    obtain ⟨ops, hops, ⟨-, rfl⟩ | ⟨-, rfl⟩⟩ := startPseudo_cases h
    · exact .inl ⟨t.env, rfl, .same t⟩
    · exact .inl ⟨_, rfl, rfl, fun m hm => .inr ⟨p, ops, hops, hm⟩⟩
  | busDone =>
    injection h with h
    exact .inr (.inr (.inr (.inr (.inl ⟨rfl, h.symm⟩))))
  | txDone =>
    injection h with h
    exact .inr (.inr (.inr (.inr (.inr (.inl ⟨rfl, h.symm⟩)))))
  | obsRead f => exact .inr (.inr (.inr (.inr (.inr (.inr (.inl ⟨f, rfl, h⟩))))))
  | serialConfigured =>
    injection h with h
    exact .inr (.inr (.inr (.inr (.inr (.inr (.inr (.inl ⟨rfl, h.symm⟩)))))))
  | powerOn d =>
    injection h with h
    exact .inr (.inr (.inr (.inr (.inr (.inr (.inr (.inr ⟨d, rfl, h.symm⟩)))))))

end Sys2Proof.Machine
end

