-- ==== Sys2Proof/Laws/Effects.lean ====
section
/-! SUPPORT. Which operations touch the ring buffer and which the serial link: the two parts of the
state that one micro-step of one consumer operation changes (10_state.md R48). -/

namespace Sys2Proof.Machine

theorem phaseOf_some {s : State} {i : Instr} {k : Nat} (h : s.phaseOf i = some k) :
    (s.seq.cop = none ∧ k = 1) ∨ (s.seq.cop = some i ∧ s.seq.cphase = k) := by
  unfold State.phaseOf at h
  split at h
  · next hc => injection h with h; exact .inl ⟨hc, h.symm⟩
  · next j hc =>
    split at h
    · next hj => injection h with h; subst hj; exact .inr ⟨hc, h⟩
    · cases h

/-- A micro-step after the first is due only of the operation in flight. -/
theorem phaseOf_inflight {s : State} {i : Instr} {k : Nat} (hk : k ≠ 1) (h : s.phaseOf i = some k) :
    s.seq.cop = some i ∧ s.seq.cphase = k := by
  rcases phaseOf_some h with ⟨-, h⟩ | h
  · exact absurd h hk
  · exact h

/-- Only PUSH and the p4 of a POP change the ring buffer. -/
theorem exec_ring_cases {i : Instr} {s t : State} (h : exec i s = .next t) :
    (∃ b, i = .push b) ∨
    (i = .pop ∧ s.phaseOf .pop = some 4 ∧ t = (s.setHead (nextIdx s.slots s.headIdx)).goto .pop 5) ∨
    t.ring = s.ring := by
  cases i with
  | push b => exact .inl ⟨b, rfl⟩
  | avail =>
    rcases execAvail_cases h with ⟨-, rfl⟩ | ⟨-, rfl⟩ | ⟨k, -, -, rfl⟩ <;> exact .inr (.inr rfl)
  | pop =>
    rcases execPop_cases h with ⟨-, rfl⟩ | ⟨-, rfl⟩ | ⟨-, -, rfl⟩ | ⟨-, -, rfl⟩ | ⟨-, rfl⟩ | ⟨hp, rfl⟩ |
      ⟨k, -, -, -, -, -, rfl⟩ <;> first | exact .inr (.inr rfl) | exact .inr (.inl ⟨rfl, hp, rfl⟩)
  | businit =>
    rcases execBusinit_cases h with ⟨-, rfl⟩ | ⟨-, rfl⟩ | ⟨-, rfl⟩ | ⟨-, rfl⟩ | ⟨-, rfl⟩ |
      ⟨k, -, -, -, -, -, rfl⟩ <;> exact .inr (.inr rfl)
  | bussend a v =>
    rcases execBussend_cases h with ⟨-, rfl⟩ | ⟨-, -, rfl⟩ | ⟨-, rfl⟩ | ⟨-, -, rfl⟩ | ⟨-, rfl⟩ |
      ⟨-, -, rfl⟩ | ⟨-, -, rfl⟩ | ⟨-, rfl⟩ | ⟨k, -, -, -, -, -, -, -, rfl⟩ <;> exact .inr (.inr rfl)
  | rdButton1 | rdDrivemode | rdJoyx | rdJoyy | rdSpeedknob | rdLeds | rdFlash =>
    rcases returnField_cases h with ⟨-, rfl⟩ | ⟨-, rfl⟩ <;> exact .inr (.inr rfl)
  | wrDrivemode v =>
    rcases writeRecord_cases (execWrDrivemode_cases h).2 with ⟨-, rfl⟩ | ⟨-, rfl⟩ <;> exact .inr (.inr rfl)
  | wrButton1 v =>
    rcases writeRecord_cases (r := { s.ssr with button1 := v }) h with ⟨-, rfl⟩ | ⟨-, rfl⟩ <;> exact .inr (.inr rfl)
  | wrJoyx v =>
    rcases writeRecord_cases (r := { s.ssr with joyx := v }) h with ⟨-, rfl⟩ | ⟨-, rfl⟩ <;> exact .inr (.inr rfl)
  | wrJoyy v =>
    rcases writeRecord_cases (r := { s.ssr with joyy := v }) h with ⟨-, rfl⟩ | ⟨-, rfl⟩ <;> exact .inr (.inr rfl)
  | wrSpeedknob v =>
    rcases writeRecord_cases (r := { s.ssr with speedknob := v }) h with ⟨-, rfl⟩ | ⟨-, rfl⟩ <;> exact .inr (.inr rfl)
  | wrLeds v =>
    rcases writeRecord_cases (r := { s.ssr with leds := v }) h with ⟨-, rfl⟩ | ⟨-, rfl⟩ <;> exact .inr (.inr rfl)
  | wrFlash v =>
    rcases writeRecord_cases (r := { s.ssr with flash := v }) h with ⟨-, rfl⟩ | ⟨-, rfl⟩ <;> exact .inr (.inr rfl)
  | pincfg p l =>
    rcases execPincfg_cases h with ⟨-, -, rfl⟩ | ⟨-, rfl⟩ <;> exact .inr (.inr rfl)
  | txbyte ch =>
    rcases execTxbyte_cases h with ⟨-, rfl⟩ | ⟨-, rfl⟩ | ⟨-, rfl⟩ | ⟨k, -, -, -, rfl⟩ <;> exact .inr (.inr rfl)

/-- Only the t2 of a TXBYTE changes the serial link. -/
theorem exec_ser_cases {i : Instr} {s t : State} (h : exec i s = .next t) :
    (∃ ch, i = .txbyte ch ∧ s.phaseOf i = some 2 ∧ t = (s.writeTxdat s.seq.tCh).goto (.txbyte ch) 3) ∨
    t.ser = s.ser := by
  cases i with
  | push b => injection h with h; subst h; simp
  | avail => rcases execAvail_cases h with ⟨-, rfl⟩ | ⟨-, rfl⟩ | ⟨k, -, -, rfl⟩ <;> exact .inr rfl
  | pop =>
    rcases execPop_cases h with ⟨-, rfl⟩ | ⟨-, rfl⟩ | ⟨-, -, rfl⟩ | ⟨-, -, rfl⟩ | ⟨-, rfl⟩ | ⟨-, rfl⟩ |
      ⟨k, -, -, -, -, -, rfl⟩ <;> exact .inr rfl
  | businit =>
    rcases execBusinit_cases h with ⟨-, rfl⟩ | ⟨-, rfl⟩ | ⟨-, rfl⟩ | ⟨-, rfl⟩ | ⟨-, rfl⟩ |
      ⟨k, -, -, -, -, -, rfl⟩ <;> exact .inr rfl
  | bussend a v =>
    rcases execBussend_cases h with ⟨-, rfl⟩ | ⟨-, -, rfl⟩ | ⟨-, rfl⟩ | ⟨-, -, rfl⟩ | ⟨-, rfl⟩ |
      ⟨-, -, rfl⟩ | ⟨-, -, rfl⟩ | ⟨-, rfl⟩ | ⟨k, -, -, -, -, -, -, -, rfl⟩ <;> exact .inr rfl
  | rdButton1 | rdDrivemode | rdJoyx | rdJoyy | rdSpeedknob | rdLeds | rdFlash =>
    rcases returnField_cases h with ⟨-, rfl⟩ | ⟨-, rfl⟩ <;> exact .inr rfl
  | wrDrivemode v =>
    rcases writeRecord_cases (execWrDrivemode_cases h).2 with ⟨-, rfl⟩ | ⟨-, rfl⟩ <;> exact .inr rfl
  | wrButton1 v =>
    rcases writeRecord_cases (r := { s.ssr with button1 := v }) h with ⟨-, rfl⟩ | ⟨-, rfl⟩ <;> exact .inr rfl
  | wrJoyx v =>
    rcases writeRecord_cases (r := { s.ssr with joyx := v }) h with ⟨-, rfl⟩ | ⟨-, rfl⟩ <;> exact .inr rfl
  | wrJoyy v =>
    rcases writeRecord_cases (r := { s.ssr with joyy := v }) h with ⟨-, rfl⟩ | ⟨-, rfl⟩ <;> exact .inr rfl
  | wrSpeedknob v =>
    rcases writeRecord_cases (r := { s.ssr with speedknob := v }) h with ⟨-, rfl⟩ | ⟨-, rfl⟩ <;> exact .inr rfl
  | wrLeds v =>
    rcases writeRecord_cases (r := { s.ssr with leds := v }) h with ⟨-, rfl⟩ | ⟨-, rfl⟩ <;> exact .inr rfl
  | wrFlash v =>
    rcases writeRecord_cases (r := { s.ssr with flash := v }) h with ⟨-, rfl⟩ | ⟨-, rfl⟩ <;> exact .inr rfl
  | pincfg p l =>
    rcases execPincfg_cases h with ⟨-, -, rfl⟩ | ⟨-, rfl⟩ <;> exact .inr rfl
  | txbyte ch =>
    rcases execTxbyte_cases h with ⟨-, rfl⟩ | ⟨-, rfl⟩ | ⟨hp, rfl⟩ | ⟨k, -, -, -, rfl⟩ <;>
      first | exact .inr rfl | exact .inl ⟨ch, rfl, hp, rfl⟩

end Sys2Proof.Machine
end

