-- ==== Sys2Proof/Laws/Ring.lean ====
section
/-! SUPPORT. What PUSH does to the ring buffer, read through its accessors: the spec lemmas of
`execPush` (40_fifo.md R121, R122, 20_memory.md R78). -/

namespace Sys2Proof.Machine

theorem push_headIdx (s : State) (b : Byte) : (s.writeSlot s.tailIdx b).commit.headIdx = s.headIdx := by
  simp only [State.headIdx, State.slots, State.commit_size, State.writeSlot_size, State.commit_ring]
  split <;> rfl

theorem push_tailIdx (s : State) (b : Byte) : (s.writeSlot s.tailIdx b).commit.tailIdx =
    if s.isFull then s.tailIdx else nextIdx s.slots s.tailIdx := by
  have h1 : (s.writeSlot s.tailIdx b).isFull = s.isFull := rfl
  unfold State.commit
  rw [h1]
  by_cases hf : s.isFull = true
  · simp only [hf, if_true]; rfl
  · simp only [hf, if_false, Bool.false_eq_true]; exact nextIdx_mod

theorem push_storage (s : State) (b : Byte) : (s.writeSlot s.tailIdx b).commit.ring.storage =
   s.ring.storage.write s.tailIdx b := by
  simp only [State.commit_ring]; split <;> rfl

theorem push_slots (s : State) (b : Byte) : (s.writeSlot s.tailIdx b).commit.slots = s.slots := by
  simp [State.slots]

/-- Any slot after a PUSH: the byte at `tail`, every other as before (R121). -/
theorem push_readSlot (s : State) (b : Byte) (x : Nat) :
    (s.writeSlot s.tailIdx b).commit.readSlot x = if x = s.tailIdx then b else s.readSlot x := by
  rw [← State.readSlot_writeSlot]
  simp only [State.readSlot, push_storage, State.writeSlot_ring, State.commit_env]

/-- The occupied count after a PUSH: one more, unless the buffer is full (R121, R122). -/
theorem push_occupied (s : State) (b : Byte) :
    occupied s.slots s.headIdx (s.writeSlot s.tailIdx b).commit.tailIdx =
      if s.isFull then occupied s.slots s.headIdx s.tailIdx else occupied s.slots s.headIdx s.tailIdx + 1 := by
  rw [push_tailIdx]
  split
  · rfl
  · next hf => exact occupied_nextIdx_tail s.headIdx_lt s.tailIdx_lt (by simpa [State.isFull] using hf)

/-- The buffer is full exactly when N - 1 slots are occupied (R126). -/
theorem State.isFull_iff (s : State) : s.isFull = true ↔ occupied s.slots s.headIdx s.tailIdx = s.slots - 1 := by
  have h2 := s.two_le_slots
  have hh := s.headIdx_lt
  have ht := s.tailIdx_lt
  simp only [State.isFull, beq_iff_eq, nextIdx_eq ht, occupied_eq hh ht]
  split_ifs <;> omega

/-- The buffer is empty exactly when no slot is occupied (R126). -/
theorem State.isEmpty_iff (s : State) : s.isEmpty = true ↔ occupied s.slots s.headIdx s.tailIdx = 0 := by
  simp only [State.isEmpty, beq_iff_eq, occupied_eq_zero s.headIdx_lt s.tailIdx_lt]

/-- After a PUSH the buffer is not empty. -/
theorem push_isEmpty (s : State) (b : Byte) : (s.writeSlot s.tailIdx b).commit.isEmpty = false := by
  refine Bool.eq_false_iff.2 fun h => ?_
  simp only [State.isEmpty, push_headIdx, push_tailIdx, beq_iff_eq] at h
  have h2 := s.two_le_slots
  have ht := s.tailIdx_lt
  split at h
  · next hf =>
    simp only [State.isFull, beq_iff_eq, nextIdx_eq ht] at hf
    split_ifs at hf <;> omega
  · next hf => simp [State.isFull] at hf; exact hf h.symm

theorem push_readHead {s : State} (b : Byte) (h : s.isEmpty = false) :
    (s.writeSlot s.tailIdx b).commit.readSlot s.headIdx = s.readSlot s.headIdx := by
  have h1 : (s.writeSlot s.tailIdx b).commit.readSlot s.headIdx = (s.writeSlot s.tailIdx b).readSlot s.headIdx := by
    simp only [State.readSlot, push_storage, State.writeSlot_ring, State.commit_env]
  rw [h1, State.readSlot_writeSlot, if_neg (by simpa [State.isEmpty] using h)]

end Sys2Proof.Machine
end

