-- ==== Sys2Proof/Laws/Invariant.lean ====
section
/-! SUPPORT. The parts of the invariant under each shared operation and each meaning. -/

namespace Sys2Proof.Machine

theorem RingOk.of_eq {s t : State} (h : RingOk s) (h1 : t.size = s.size) (h2 : t.ring = s.ring) : RingOk t := by
  obtain ⟨a, b, c, d, e⟩ := h
  constructor <;> simp only [State.slots, h1, h2, State.headIdx, State.tailIdx] at * <;> assumption

theorem SerialOk.of_eq {s t : State} (h : SerialOk s) (h1 : t.ser = s.ser) : SerialOk t := by
  unfold SerialOk at *; rw [h1]; exact h

theorem ModeOk.of_eq {s t : State} (h : ModeOk s) (h1 : t.ssr = s.ssr) : ModeOk t := by
  unfold ModeOk at *; rw [h1]; exact h

theorem isEmpty_of_eq {s t : State} (h1 : t.size = s.size) (h2 : t.ring = s.ring) : t.isEmpty = s.isEmpty := by
  simp only [State.isEmpty, State.headIdx_eq_of h1 h2, State.tailIdx_eq_of h1 h2]

theorem SeqOk.of_eq {s t : State} (h : SeqOk s) (h1 : t.size = s.size) (h2 : t.ring = s.ring)
    (h3 : t.seq = s.seq) (h4 : t.env.boots = s.env.boots) (h5 : t.ser.txrdy = s.ser.txrdy) : SeqOk t := by
  unfold SeqOk at *
  simp only [h3, State.slots_of_size h1, State.headIdx_eq_of h1 h2,
    State.readSlot_eq_of h2 h4, h5, isEmpty_of_eq h1 h2]
  exact h

theorem selected_of_eq {s t : State} (h3 : t.seq = s.seq) : selected t = selected s := by
  unfold selected; rw [h3]

theorem BusOk.of_eq {s t : State} (h : BusOk s) (h1 : t.bus = s.bus) (h2 : t.pins = s.pins)
    (h3 : t.seq = s.seq) : BusOk t := by
  obtain ⟨a, b, c, d, e, f, g, i, j, k⟩ := h
  have hp := State.pin_eq_of h2
  constructor <;>
  simp only [h1, hp, h3, selected, transferring, groupSoFar] at * <;> assumption

/-- The sequencer is in no operation of the bus. -/
def notBus (s : State) : Prop := ∀ i, s.seq.cop = some i → (∀ a v, i ≠ .bussend a v) ∧ i ≠ .businit

theorem selected_notBus {s : State} (h : notBus s) : selected s = false := by
  unfold selected; split
  · next a v h1 => exact absurd rfl ((h _ h1).1 a v)
  · rfl
theorem transferring_notBus {s : State} (h : notBus s) : transferring s = false := by
  unfold transferring; split
  · next a v h1 => exact absurd rfl ((h _ h1).1 a v)
  · rfl
theorem groupSoFar_notBus {s : State} (h : notBus s) : groupSoFar s = [] := by
  unfold groupSoFar; split
  · next a v h1 => exact absurd rfl ((h _ h1).1 a v)
  · rfl

theorem BusOk.notBus {s t : State} (h : BusOk s) (hs : notBus s) (ht : notBus t) (h1 : t.bus = s.bus) (h2 : t.pins = s.pins) : BusOk t := by
  obtain ⟨a, b, c, d, e, f, g, i, j, k⟩ := h
  have hp := State.pin_eq_of h2
  constructor
  · rw [h1]; exact a
  · simpa only [h1, hp] using b
  · rw [h1, hp, selected_notBus ht]; rw [selected_notBus hs] at c; exact c
  · intro a v hc; exact absurd rfl ((ht _ hc).1 a v)
  · rw [h1, e, transferring_notBus hs, transferring_notBus ht]
  · intro a v hc; exact absurd rfl ((ht _ hc).1 a v)
  · intro hc; exact absurd rfl ((ht _ hc).2)
  · intro hc; exact absurd rfl ((ht _ hc).2)
  · intro hc; exact absurd rfl ((ht _ hc).2)
  · rw [h1, groupSoFar_notBus ht]; rwa [groupSoFar_notBus hs] at k

theorem notBus_idle {s : State} (h : s.seq.cop = none) : notBus s := by
  intro i hi; rw [h] at hi; cases hi
theorem notBus_some {s : State} {i : Instr} (h : s.seq.cop = some i) (h1 : ∀ a v, i ≠ .bussend a v) (h2 : i ≠ .businit) : notBus s := by
  intro j hj; rw [h] at hj; cases hj; exact ⟨h1, h2⟩

/-! ring -/

theorem headIdx_eq {s : State} (h : RingOk s) : s.headIdx = s.ring.head := Nat.mod_eq_of_lt h.headRange
theorem tailIdx_eq {s : State} (h : RingOk s) : s.tailIdx = s.ring.tail := Nat.mod_eq_of_lt h.tailRange

theorem RingOk.push {s : State} (h : RingOk s) (b : Byte) : RingOk (s.writeSlot s.tailIdx b).commit := by
  constructor
  · rw [push_storage]; exact Memory.wf_write h.canonical _ _
  · rw [push_storage, push_slots]; intro c hc
    rcases Memory.mem_write hc with hc | hc
    · subst hc; exact s.tailIdx_lt
    · exact h.inside c hc
  · rw [push_slots, State.commit_ring]
    split <;> exact h.headRange
  · rw [push_slots, State.commit_ring]
    split
    · exact h.tailRange
    · exact nextIdx_lt s.two_le_slots _
  · rw [push_storage, push_slots, push_headIdx, push_tailIdx]
    intro k hk
    rw [Memory.read_write]
    split
    · rfl
    · next hne =>
      split at hk
      · exact h.written k hk
      · next hf =>
        rw [occupied_nextIdx_tail s.headIdx_lt s.tailIdx_lt (by simpa [State.isFull] using hf)] at hk
        rcases Nat.lt_succ_iff_lt_or_eq.1 hk with hk | hk
        · exact h.written k hk
        · subst hk; exact absurd (add_occupied_mod s.headIdx_lt s.tailIdx_lt) hne

theorem SeqOk.push {s : State} (h : SeqOk s) (b : Byte) : SeqOk (s.writeSlot s.tailIdx b).commit := by
  have hE := push_isEmpty s b
  unfold SeqOk at *
  simp only [State.commit_seq, State.writeSlot_seq, push_slots, push_headIdx, State.commit_ser, State.writeSlot_ser, hE]
  cases hc : s.seq.cop with
  | none => trivial
  | some i =>
    rw [hc] at h
    cases i <;> try exact h
    rcases h with ⟨h1, h2, h3⟩ | ⟨h1, h2⟩ | ⟨h1, h2, h3⟩ | h1
    · exact .inl ⟨h1, h2, by simp⟩
    · exact .inr (.inl ⟨h1, trivial⟩)
    · exact (.inr (.inr (.inl ⟨h1, trivial, by rw [push_readHead b h2]; exact h3⟩)))
    · exact .inr (.inr (.inr h1))

theorem BlockInv.push {s : State} (h : BlockInv s) (b : Byte) : BlockInv (s.writeSlot s.tailIdx b).commit := by
  obtain ⟨a, b', c, d, e⟩ := h
  exact ⟨a.push b, b'.of_eq (by simp), c.push b, d.of_eq (by simp) (by simp) (by simp), e.of_eq (by simp)⟩

/-- A micro-step of no bus operation that changes the sequencer and the ports alone. -/
theorem BlockInv.plain {s t : State} (h : BlockInv s) (hs : notBus s) (ht : notBus t) (hseq : SeqOk t)
   (h1 : t.size = s.size) (h2 : t.ring = s.ring) (h3 : ModeOk t) (h4 : t.pins = s.pins) (h5 : t.bus = s.bus) (h6 : SerialOk t) : BlockInv t :=
  ⟨h.ring.of_eq h1 h2, h3, hseq, h.bus.notBus hs ht h5 h4, h6⟩

theorem SeqOk.idle {s : State} (h : s.seq.cop = none) : SeqOk s := by
  unfold SeqOk; rw [h]; trivial

theorem BlockInv.finish {s : State} (h : BlockInv s) (hs : notBus s) (r) : BlockInv (s.finish r) := by
  refine h.plain hs (notBus_idle (by simp)) (SeqOk.idle (by simp)) ?_ ?_ (h.mode.of_eq ?_) ?_ ?_ (h.serial.of_eq ?_) <;> simp

theorem BlockInv.avail {s t : State} (h : BlockInv s) (he : execAvail s = .next t) : BlockInv t := by
  rcases execAvail_cases he with ⟨-, rfl⟩ | ⟨hp, rfl⟩ | ⟨k, hp, hk, rfl⟩
  · exact h
  · have hs : notBus s := by
      rcases phaseOf_some hp with ⟨hc, -⟩ | ⟨hc, -⟩
      · exact notBus_idle hc
      · exact notBus_some hc (by simp) (by simp)
    refine h.plain hs (notBus_some (i := .avail) (by simp) (by simp) (by simp)) ?_ ?_ ?_ (h.mode.of_eq ?_) ?_ ?_ (h.serial.of_eq ?_) <;> try simp
    unfold SeqOk; simp [State.slots]
    exact s.tailIdx_lt
  · rcases phaseOf_some hp with ⟨hc, hk'⟩ | ⟨hc, -⟩
    · exact absurd hk' hk
    · exact h.finish (notBus_some hc (by simp) (by simp)) _

theorem RingOk.advance {s : State} (h : RingOk s) (hne : s.isEmpty = false) :
    RingOk (s.setHead (nextIdx s.slots s.headIdx)) := by
  have hne' : s.headIdx ≠ s.tailIdx := by simpa [State.isEmpty] using hne
  have h1 : (s.setHead (nextIdx s.slots s.headIdx)).headIdx = nextIdx s.slots s.headIdx := nextIdx_mod
  have h2 : (s.setHead (nextIdx s.slots s.headIdx)).tailIdx = s.tailIdx := rfl
  refine ⟨h.canonical, h.inside, nextIdx_lt s.two_le_slots _, h.tailRange, ?_⟩
  rw [h1, h2]
  intro k hk
  have h3 := occupied_nextIdx_head s.headIdx_lt s.tailIdx_lt hne'
  have hk' : k < occupied s.slots (nextIdx s.slots s.headIdx) s.tailIdx := hk
  have := h.written (k+1) (by omega)
  rw [← nextIdx_add_mod] at this
  exact this

theorem SeqOk.pop_iff {s : State} (hc : s.seq.cop = some .pop) : SeqOk s ↔
    ((s.seq.cphase = 2 ∧ s.seq.tTail < s.slots ∧ (s.isEmpty = true → s.seq.tTail = s.headIdx)) ∨
    (s.seq.cphase = 3 ∧ s.isEmpty = false) ∨
    (s.seq.cphase = 4 ∧ s.isEmpty = false ∧ s.seq.tByte = s.readSlot s.headIdx) ∨
    s.seq.cphase = 5) := by unfold SeqOk; rw [hc]

theorem BlockInv.pop {s t : State} (h : BlockInv s) (he : execPop s = .next t) : BlockInv t := by
  have nb : ∀ {k}, s.phaseOf .pop = some k → notBus s := fun hp => by
    rcases phaseOf_some hp with ⟨hc, -⟩ | ⟨hc, -⟩
    · exact notBus_idle hc
    · exact notBus_some hc (by simp) (by simp)
  have sq : ∀ {k}, k ≠ 1 → s.phaseOf .pop = some k → s.seq.cop = some .pop ∧ s.seq.cphase = k := fun hk hp => by
    rcases phaseOf_some hp with ⟨hc, hk'⟩ | h
    · exact absurd hk' hk
    · exact h
  have hS := h.seq
  rcases execPop_cases he with ⟨-, rfl⟩ | ⟨hp, rfl⟩ | ⟨hp, h2, rfl⟩ | ⟨hp, h2, rfl⟩ | ⟨hp, rfl⟩ | ⟨hp, rfl⟩ | ⟨k, hp, hk1, hk2, hk3, hk4, rfl⟩
  · exact h
  · refine h.plain (nb hp) (notBus_some (i := .pop) (by simp) (by simp) (by simp)) ?_ ?_ ?_ (h.mode.of_eq ?_) ?_ ?_ (h.serial.of_eq ?_) <;> try simp
    exact (SeqOk.pop_iff rfl).2 (.inl ⟨rfl, s.tailIdx_lt, fun h => by
      have : s.headIdx = s.tailIdx := eq_of_beq (show (s.headIdx == s.tailIdx) = true from h)
      exact this.symm⟩)
  · exact h.finish (nb hp) _
  · obtain ⟨hc, hk⟩ := sq (by simp) hp
    refine h.plain (nb hp) (notBus_some (i := .pop) (by simp) (by simp) (by simp)) ?_ ?_ ?_ (h.mode.of_eq ?_) ?_ ?_ (h.serial.of_eq ?_) <;> try simp
    rcases (SeqOk.pop_iff hc).1 hS with h1 | h1 | h1 | h1 <;> try omega
    refine (SeqOk.pop_iff rfl).2 (.inr (.inl ⟨rfl, ?_⟩))
    show s.isEmpty = false
    cases hE : s.isEmpty
    · rfl
    · exact absurd ((Nat.mod_eq_of_lt h1.2.1).trans (h1.2.2 hE)).symm h2
  · obtain ⟨hc, hk⟩ := sq (by simp) hp
    refine h.plain (nb hp) (notBus_some (i := .pop) (by simp) (by simp) (by simp)) ?_ ?_ ?_ (h.mode.of_eq ?_) ?_ ?_ (h.serial.of_eq ?_) <;> try simp
    rcases (SeqOk.pop_iff hc).1 hS with h1 | h1 | h1 | h1 <;> try omega
    exact (SeqOk.pop_iff rfl).2 (.inr (.inr (.inl ⟨rfl, h1.2, rfl⟩)))
  · obtain ⟨hc, hk⟩ := sq (by simp) hp
    have hne : s.isEmpty = false := by
      rcases (SeqOk.pop_iff hc).1 hS with h1 | h1 | h1 | h1 <;> try omega
      exact h1.2.1
    refine ⟨(h.ring.advance hne).of_eq rfl rfl, h.mode.of_eq rfl, ?_, h.bus.notBus (nb hp) (notBus_some (i := .pop) (by simp) (by simp) (by simp)) rfl rfl, h.serial.of_eq rfl⟩
    unfold SeqOk; simp
  · exact h.finish (nb hp) _

theorem BlockInv.returnField {s t : State} {x} (h : BlockInv s) (he : returnField x s = .next t) : BlockInv t := by
  rcases returnField_cases he with ⟨hc, rfl⟩ | ⟨-, rfl⟩
  · exact h.finish (notBus_idle hc) _
  · exact h

theorem BlockInv.writeRecord {s t : State} {r : Ssr} (h : BlockInv s) (hr : r.drivemode ≠ 3#2) (he : writeRecord r s = .next t) : BlockInv t := by
  rcases writeRecord_cases he with ⟨hc, rfl⟩ | ⟨-, rfl⟩
  · refine h.plain (notBus_idle hc) (notBus_idle (by simp)) (SeqOk.idle (by simp)) ?_ ?_ ?_ ?_ ?_ (h.serial.of_eq ?_) <;> try simp
    exact hr
  · exact h

theorem BlockInv.txbyte {s t : State} {ch} (h : BlockInv s) (he : execTxbyte ch s = .next t) : BlockInv t := by
  have nb : ∀ {k}, s.phaseOf (.txbyte ch) = some k → notBus s := fun hp => by
    rcases phaseOf_some hp with ⟨hc, -⟩ | ⟨hc, -⟩
    · exact notBus_idle hc
    · exact notBus_some hc (by simp) (by simp)
  have hS := h.seq
  rcases execTxbyte_cases he with ⟨-, rfl⟩ | ⟨hp, rfl⟩ | ⟨hp, rfl⟩ | ⟨k, hp, hk1, hk2, rfl⟩
  · exact h
  · refine h.plain (nb hp) (notBus_some (i := .txbyte ch) (by simp) (by simp) (by simp)) ?_ ?_ ?_ (h.mode.of_eq ?_) ?_ ?_ (h.serial.of_eq ?_) <;> try simp
    unfold SeqOk; simp
    split <;> simp_all
  · obtain ⟨hc, hk⟩ : s.seq.cop = some (.txbyte ch) ∧ s.seq.cphase = 2 := by
      rcases phaseOf_some hp with ⟨hc, hk'⟩ | h
      · simp at hk'
      · exact h
    refine h.plain (nb hp) (notBus_some (i := .txbyte ch) (by simp) (by simp) (by simp)) ?_ ?_ ?_ (h.mode.of_eq ?_) ?_ ?_ ?_ <;> try simp
    · unfold SeqOk at hS ⊢; simp [hc, hk] at hS ⊢; exact hS.1
    · unfold SeqOk at hS; simp [hc, hk] at hS
      rcases h.serial with h1 | h1
      · simp [hS] at h1
      · exact .inr ⟨h1.1, by simp⟩
  · exact h.finish (nb hp) _

theorem BlockInv.pincfg {s t : State} {p l} (h : BlockInv s) (he : execPincfg p l s = .next t) : BlockInv t := by
  rcases execPincfg_cases he with ⟨hc, hok, rfl⟩ | ⟨-, rfl⟩
  · have hs := notBus_idle hc
    have ht : notBus ((s.configureOutput p l).finish .done) := notBus_idle (by simp)
    refine ⟨h.ring.of_eq rfl rfl, h.mode.of_eq rfl, ?_, ?_, h.serial.of_eq rfl⟩
    · exact SeqOk.idle (by simp)
    · obtain ⟨a, b, c, d, e, f, g, i, j, k⟩ := h.bus
      have hpin : s.bus.ctl.en = true → ∀ q, (q = Config.pinBusData ∨ q = Config.pinBusClk ∨ q = Config.pinBusCs) →
          ((s.configureOutput p l).finish .done).pin q = s.pin q := by
        intro hen q hq
        have : ((s.configureOutput p l).finish .done).pin q = (s.configureOutput p l).pin q := rfl
        rw [this, State.pin_configureOutput, if_neg]
        rintro rfl
        simp [hen, isBusPin] at hok
        rcases hq with rfl | rfl | rfl <;> simp at hok
      constructor
      · exact a
      · intro hen
        rw [hpin hen _ (.inl rfl), hpin hen _ (.inr (.inl rfl)), hpin hen _ (.inr (.inr rfl))]
        exact b hen
      · intro hen
        rw [hpin hen _ (.inr (.inr rfl)), selected_notBus ht]
        have := c hen
        rwa [selected_notBus hs] at this
      · intro a v hc; exact absurd rfl ((ht _ hc).1 a v)
      · rw [transferring_notBus ht]; rw [transferring_notBus hs] at e; exact e
      · intro a v hc; exact absurd rfl ((ht _ hc).1 a v)
      · intro hc; exact absurd rfl ((ht _ hc).2)
      · intro hc; exact absurd rfl ((ht _ hc).2)
      · intro hc; exact absurd rfl ((ht _ hc).2)
      · rw [groupSoFar_notBus ht]; rw [groupSoFar_notBus hs] at k; exact k
  · exact h

theorem cs_ne_data : Config.pinBusData ≠ Config.pinBusCs := by decide
theorem cs_ne_clk : Config.pinBusClk ≠ Config.pinBusCs := by decide
theorem data_ne_clk : Config.pinBusClk ≠ Config.pinBusData := by decide

theorem BlockInv.busOnly {s t : State} (h : BlockInv s) (hb : BusOk t) (hq : SeqOk t) (h1 : t.size = s.size) (h2 : t.ring = s.ring)
  (h3 : t.ssr = s.ssr) (h4 : t.ser = s.ser) : BlockInv t :=
  ⟨h.ring.of_eq h1 h2, h.mode.of_eq h3, hq, hb, h.serial.of_eq h4⟩

theorem BlockInv.businit {s t : State} (h : BlockInv s) (he : execBusinit s = .next t) : BlockInv t := by
  have hb := h.bus
  have hsel : ∀ {k}, s.phaseOf .businit = some k → selected s = false ∧ transferring s = false ∧ groupSoFar s = [] := fun hp => by
    rcases phaseOf_some hp with ⟨hc, -⟩ | ⟨hc, -⟩ <;> simp [selected, transferring, groupSoFar, hc]
  rcases execBusinit_cases he with ⟨-, rfl⟩ | ⟨hp, rfl⟩ | ⟨hp, rfl⟩ | ⟨hp, rfl⟩ | ⟨hp, rfl⟩ | ⟨k, hp, hk1, hk2, hk3, hk4, rfl⟩
  · exact h
  · obtain ⟨s1, s2, s3⟩ := hsel hp
    refine h.busOnly ?_ ?_ rfl rfl rfl rfl
    · have hpin : ∀ q, ((s.configureOutput Config.pinBusCs .high).goto .businit 2).pin q = if q = Config.pinBusCs then ⟨.output, .high⟩ else s.pin q := fun q => State.pin_configureOutput s _ q _
      obtain ⟨a, b, c, d, e, f, g, i, j, k⟩ := hb
      rw [s1] at c; rw [s2] at e; rw [s3] at k
      constructor <;> simp only [hpin, selected, transferring, groupSoFar, State.goto_bus, State.configureOutput_bus, State.goto_seq] <;> try simp [cs_ne_data, cs_ne_clk]
      · exact a
      · intro hen; exact ⟨(b hen).1, (b hen).2.1⟩
      · exact e
      · simpa using k
    · unfold SeqOk; simp
  · obtain ⟨s1, s2, s3⟩ := hsel hp
    obtain ⟨hc, hk⟩ := phaseOf_inflight (by simp) hp
    refine h.busOnly ?_ ?_ rfl rfl rfl rfl
    · have hpin : ∀ q, ((s.configureOutput Config.pinBusData .low).goto .businit 3).pin q = if q = Config.pinBusData then ⟨.output, .low⟩ else s.pin q := fun q => State.pin_configureOutput s _ q _
      obtain ⟨a, b, c, d, e, f, g, i, j, k⟩ := hb
      rw [s1] at c; rw [s2] at e; rw [s3] at k
      constructor <;> simp only [hpin, selected, transferring, groupSoFar, State.goto_bus, State.configureOutput_bus, State.goto_seq] <;> try simp [cs_ne_data.symm, data_ne_clk]
      · exact a
      · intro hen; exact ⟨(b hen).2.1, (b hen).2.2⟩
      · simpa using c
      · exact e
      · exact g hc
      · simpa using k
    · unfold SeqOk; simp
  · obtain ⟨s1, s2, s3⟩ := hsel hp
    obtain ⟨hc, hk⟩ := phaseOf_inflight (by simp) hp
    refine h.busOnly ?_ ?_ rfl rfl rfl rfl
    · have hpin : ∀ q, ((s.configureOutput Config.pinBusClk .low).goto .businit 4).pin q = if q = Config.pinBusClk then ⟨.output, .low⟩ else s.pin q := fun q => State.pin_configureOutput s _ q _
      obtain ⟨a, b, c, d, e, f, g, i, j, k⟩ := hb
      rw [s1] at c; rw [s2] at e; rw [s3] at k
      constructor <;> simp only [hpin, selected, transferring, groupSoFar, State.goto_bus, State.configureOutput_bus, State.goto_seq] <;> try simp [cs_ne_clk.symm, data_ne_clk.symm]
      · exact a
      · intro hen; exact ⟨(b hen).1, (b hen).2.2⟩
      · simpa using c
      · exact e
      · exact g hc
      · exact i hc (by omega)
      · simpa using k
    · unfold SeqOk; simp
  · obtain ⟨s1, s2, s3⟩ := hsel hp
    obtain ⟨hc, hk⟩ := phaseOf_inflight (by simp) hp
    refine h.busOnly ?_ ?_ rfl rfl rfl rfl
    · have hpin : ∀ q, ((s.setBus { s.bus with ctl := { en := true, mstr := true, x2 := false }, rdy := false, busy := false }).goto .businit 5).pin q = s.pin q := fun q => rfl
      obtain ⟨a, b, c, d, e, f, g, i, j, k⟩ := hb
      rw [s3] at k
      constructor <;> simp only [hpin, selected, transferring, groupSoFar, State.goto_bus, State.setBus_bus, State.goto_seq] <;> try simp
      · rw [g hc]; exact ⟨i hc (by omega), j hc (by omega), rfl⟩
      · rw [g hc]
      · exact g hc
      · exact i hc (by omega)
      · exact j hc (by omega)
      · simpa using k
    · unfold SeqOk; simp
  · obtain ⟨s1, s2, s3⟩ := hsel hp
    obtain ⟨hc, hk⟩ := phaseOf_inflight (by omega) hp
    refine h.busOnly ?_ (SeqOk.idle rfl) rfl rfl rfl rfl
    have hpin : ∀ q, (s.finish .done).pin q = s.pin q := fun q => rfl
    obtain ⟨a, b, c, d, e, f, g, i, j, k⟩ := hb
    rw [s1] at c; rw [s2] at e; rw [s3] at k
    constructor <;> simp only [hpin, selected, transferring, groupSoFar, State.finish_bus, State.finish_seq] <;> try simp
    · exact a
    · simpa using b
    · simpa using c
    · exact e
    · simpa using k

theorem flatMap_append_group (gs : List (Byte × Byte)) (a v : Byte) :
    (gs ++ [(a, v)]).flatMap (fun g => busGroup g.1 g.2) = gs.flatMap (fun g => busGroup g.1 g.2) ++ busGroup a v := by
  simp

theorem SeqOk.bussend_iff {s : State} {a v : Byte} (hc : s.seq.cop = some (.bussend a v)) : SeqOk s ↔
   (2 ≤ s.seq.cphase ∧ s.seq.cphase ≤ 7 ∧ s.seq.tAddr = a ∧ s.seq.tVal = v) := by
  unfold SeqOk; rw [hc]

theorem BlockInv.bussend {s t : State} {a v} (h : BlockInv s) (he : execBussend a v s = .next t) : BlockInv t := by
  have hb := h.bus
  have hS := h.seq
  rcases execBussend_cases he with ⟨-, rfl⟩ | ⟨hp, hr, rfl⟩ | ⟨hp, rfl⟩ | ⟨hp, hr, rfl⟩ | ⟨hp, rfl⟩ | ⟨hp, hr, rfl⟩ | ⟨-, -, rfl⟩ | ⟨hp, rfl⟩ | ⟨k, hp, hk1, hk2, hk3, hk4, hk5, hk6, rfl⟩
  · exact h
  · -- s1
    have hc : s.seq.cop = none := by
      rcases phaseOf_some hp with ⟨hc, -⟩ | ⟨hc, hk⟩
      · exact hc
      · have := (SeqOk.bussend_iff hc).1 hS; omega
    refine h.busOnly ?_ ?_ rfl rfl rfl rfl
    · have hpin : ∀ q, ((((s.setSeq { s.seq with tAddr := a, tVal := v }).driveLevel Config.pinBusCs .low).emitBus .csFall).goto (.bussend a v) 2).pin q = if q = Config.pinBusCs then ⟨(s.pin Config.pinBusCs).dir, .low⟩ else s.pin q := fun q => State.pin_driveLevel (s.setSeq _) _ q _
      have hr' : s.bus.ctl.en = true ∧ s.bus.ctl.mstr = true ∧ (s.pin Config.pinBusData).dir = .output ∧ (s.pin Config.pinBusClk).dir = .output ∧ (s.pin Config.pinBusCs).dir = .output := by
        simp [State.busReady] at hr; simp [hr]
      obtain ⟨a', b, c, d, e, f, g, i, j, k⟩ := hb
      have hg : groupSoFar s = [] := by simp [groupSoFar, hc]
      have ht : transferring s = false := by simp [transferring, hc]
      rw [ht] at e; rw [hg] at k
      constructor <;> simp only [hpin, selected, transferring, groupSoFar, State.goto_bus, State.emitBus_bus, State.driveLevel_bus, State.setSeq_bus, State.goto_seq] <;> try simp [cs_ne_data, cs_ne_clk]
      · exact a'
      · intro _; exact hr'.2.2
      · exact hr'.1
      · exact e
      · simp [e]
      · simpa using k
    · unfold SeqOk; simp
  · -- s2
    obtain ⟨hc, hk⟩ := phaseOf_inflight (by simp) hp
    have hS' := (SeqOk.bussend_iff hc).1 hS
    refine h.busOnly ?_ ?_ rfl rfl rfl rfl
    · have hpin : ∀ q, ((s.writeBusdat s.seq.tAddr).goto (.bussend a v) 3).pin q = s.pin q := fun q => rfl
      obtain ⟨a', b, c, d, e, f, g, i, j, k⟩ := hb
      have hsel : selected s = true := by simp [selected, hc, hk]
      have hg : groupSoFar s = [.csFall] := by simp [groupSoFar, hc, hk]
      rw [hsel] at c; rw [hg] at k
      constructor <;> simp only [hpin, selected, transferring, groupSoFar, State.goto_bus, State.writeBusdat_bus, State.goto_seq] <;> try simp
      · exact a'
      · simpa using b
      · simpa using c
      · exact d _ _ hc
      · exact hS'.2.2.1
      · simpa using k
    · unfold SeqOk; simp [hS'.2.2]
  · -- s3
    obtain ⟨hc, hk⟩ := phaseOf_inflight (by simp) hp
    have hS' := (SeqOk.bussend_iff hc).1 hS
    refine h.busOnly ?_ ?_ rfl rfl rfl rfl
    · have hpin : ∀ q, (s.goto (.bussend a v) 4).pin q = s.pin q := fun q => rfl
      obtain ⟨a', b, c, d, e, f, g, i, j, k⟩ := hb
      have hsel : selected s = true := by simp [selected, hc, hk]
      have hg : groupSoFar s = [.csFall, .xfer a] := by simp [groupSoFar, hc, hk, hr]
      have ht : transferring s = false := by simp [transferring, hc, hk, hr]
      rw [hsel] at c; rw [hg] at k; rw [ht] at e
      constructor <;> simp only [hpin, selected, transferring, groupSoFar, State.goto_bus, State.goto_seq] <;> try simp
      · exact a'
      · simpa using b
      · simpa using c
      · exact d _ _ hc
      · exact e
      · simp [e]
      · simpa using k
    · unfold SeqOk; simp [hS'.2.2]
  · -- s4
    obtain ⟨hc, hk⟩ := phaseOf_inflight (by simp) hp
    have hS' := (SeqOk.bussend_iff hc).1 hS
    refine h.busOnly ?_ ?_ rfl rfl rfl rfl
    · have hpin : ∀ q, ((s.writeBusdat s.seq.tVal).goto (.bussend a v) 5).pin q = s.pin q := fun q => rfl
      obtain ⟨a', b, c, d, e, f, g, i, j, k⟩ := hb
      have hsel : selected s = true := by simp [selected, hc, hk]
      have hg : groupSoFar s = [.csFall, .xfer a] := by simp [groupSoFar, hc, hk]
      rw [hsel] at c; rw [hg] at k
      constructor <;> simp only [hpin, selected, transferring, groupSoFar, State.goto_bus, State.writeBusdat_bus, State.goto_seq] <;> try simp
      · exact a'
      · simpa using b
      · simpa using c
      · exact d _ _ hc
      · exact hS'.2.2.2
      · simpa using k
    · unfold SeqOk; simp [hS'.2.2]
  · -- s5
    obtain ⟨hc, hk⟩ := phaseOf_inflight (by simp) hp
    have hS' := (SeqOk.bussend_iff hc).1 hS
    refine h.busOnly ?_ ?_ rfl rfl rfl rfl
    · have hpin : ∀ q, (s.goto (.bussend a v) 6).pin q = s.pin q := fun q => rfl
      obtain ⟨a', b, c, d, e, f, g, i, j, k⟩ := hb
      have hsel : selected s = true := by simp [selected, hc, hk]
      have hg : groupSoFar s = [.csFall, .xfer a, .xfer v] := by simp [groupSoFar, hc, hk, hr]
      have ht : transferring s = false := by simp [transferring, hc, hk, hr]
      rw [hsel] at c; rw [hg] at k; rw [ht] at e
      constructor <;> simp only [hpin, selected, transferring, groupSoFar, State.goto_bus, State.goto_seq] <;> try simp
      · exact a'
      · simpa using b
      · simpa using c
      · exact d _ _ hc
      · exact e
      · simp [e]
      · simpa using k
    · unfold SeqOk; simp [hS'.2.2]
  · exact h
  · -- s6
    obtain ⟨hc, hk⟩ := phaseOf_inflight (by simp) hp
    have hS' := (SeqOk.bussend_iff hc).1 hS
    refine h.busOnly ?_ ?_ rfl rfl rfl rfl
    · have hpin : ∀ q, (((s.driveLevel Config.pinBusCs .high).emitBus .csRise).goto (.bussend a v) 7).pin q = if q = Config.pinBusCs then ⟨(s.pin Config.pinBusCs).dir, .high⟩ else s.pin q := fun q => State.pin_driveLevel s _ q _
      obtain ⟨a', b, c, d, e, f, g, i, j, k⟩ := hb
      have hg : groupSoFar s = [.csFall, .xfer a, .xfer v] := by simp [groupSoFar, hc, hk]
      have ht : transferring s = false := by simp [transferring, hc, hk]
      rw [hg] at k; rw [ht] at e
      constructor <;> simp only [hpin, selected, transferring, groupSoFar, State.goto_bus, State.emitBus_bus, State.driveLevel_bus, State.goto_seq] <;> try simp [cs_ne_data, cs_ne_clk]
      · exact a'
      · exact b
      · exact d _ _ hc
      · exact e
      · simp [e]
      · obtain ⟨gs, hgs⟩ := k
        exact ⟨gs, by simp [hgs, busGroup]⟩
    · unfold SeqOk; simp [hS'.2.2]
  · -- s7
    obtain ⟨hc, hk⟩ := phaseOf_inflight hk1 hp
    have hS' := (SeqOk.bussend_iff hc).1 hS
    have hk7 : s.seq.cphase = 7 := by omega
    refine h.busOnly ?_ (SeqOk.idle rfl) rfl rfl rfl rfl
    have hpin : ∀ q, (s.finish .done).pin q = s.pin q := fun q => rfl
    obtain ⟨a', b, c, d, e, f, g, i, j, k⟩ := hb
    have hsel : selected s = false := by simp [selected, hc, hk7]
    have hg : groupSoFar s = busGroup a v := by simp [groupSoFar, hc, hk7]
    have ht : transferring s = false := by simp [transferring, hc, hk7]
    rw [hg] at k; rw [ht] at e; rw [hsel] at c
    constructor <;> simp only [hpin, selected, transferring, groupSoFar, State.finish_bus, State.finish_seq] <;> try simp
    · exact a'
    · simpa using b
    · simpa using c
    · exact e
    · obtain ⟨gs, hgs⟩ := k
      exact ⟨gs ++ [(a, v)], by simp [hgs]⟩

theorem BlockInv.busDone {s : State} (h : BlockInv s) : BlockInv s.busDone := by
  unfold State.busDone
  split
  · next hen =>
    simp only [State.busDoneEnabled, Bool.and_eq_true] at hen
    have hb := h.bus
    obtain ⟨a', b, c, d, e, f, g, i, j, k⟩ := hb
    have ht := e.symm.trans hen.1.1
    have : ∃ a v, s.seq.cop = some (.bussend a v) ∧ (s.seq.cphase = 3 ∨ s.seq.cphase = 5) ∧ s.bus.rdy = false := by
      unfold transferring at ht
      split at ht
      · next a v hc => exact ⟨a, v, hc, by simpa using ht⟩
      · cases ht
    obtain ⟨a, v, hc, hk, hr⟩ := this
    refine h.busOnly ?_ (h.seq.of_eq rfl rfl rfl rfl rfl) rfl rfl rfl rfl
    have hpin : ∀ q, (s.setBus { s.bus with trace := s.bus.trace ++ [.xfer s.bus.dat], busy := false, rdy := true }).pin q = s.pin q := fun q => rfl
    have hdat := f a v hc hen.1.1
    constructor <;> simp only [hpin, selected, transferring, groupSoFar, State.setBus_bus, State.setBus_seq]
    · exact a'
    · exact b
    · exact c
    · exact d
    · simp [hc]
    · simp
    · exact g
    · exact i
    · exact j
    · obtain ⟨gs, hgs⟩ := k
      refine ⟨gs, ?_⟩
      rcases hk with hk | hk
      · simp [hgs, groupSoFar, hc, hk, hr, hdat]
      · simp [hgs, groupSoFar, hc, hk, hr, hdat]
  · exact h

theorem BlockInv.txDone {s : State} (h : BlockInv s) : BlockInv s.txDone := by
  unfold State.txDone
  split
  · next hen =>
    simp only [State.txDoneEnabled, Bool.and_eq_true] at hen
    have hS := h.serial
    refine ⟨h.ring.of_eq rfl rfl, h.mode.of_eq rfl, ?_, h.bus.of_eq rfl rfl rfl, ?_⟩
    · have hq := h.seq
      unfold SeqOk at *
      simp only [State.setSer_seq] 
      cases hc : s.seq.cop with
      | none => trivial
      | some i =>
        rw [hc] at hq
        cases i <;> try exact hq
        exact ⟨hq.1, hq.2.1, hq.2.2.1, fun _ => rfl⟩
    · rcases hS with hS | hS
      · simp [hS] at hen
      · exact .inr ⟨hS.1, rfl⟩
  · exact h

theorem BlockInv.configureSerial {s : State} (h : BlockInv s) : BlockInv s.configureSerial := by
  unfold State.configureSerial
  split
  · next hen =>
    refine ⟨h.ring.of_eq rfl rfl, h.mode.of_eq rfl, ?_, h.bus.of_eq rfl rfl rfl, .inr ⟨rfl, rfl⟩⟩
    have hq := h.seq
    unfold SeqOk at *
    simp only [State.setSer_seq] 
    cases hc : s.seq.cop with
    | none => trivial
    | some i =>
      rw [hc] at hq
      cases i <;> try exact hq
      exact ⟨hq.1, hq.2.1, hq.2.2.1, fun _ => rfl⟩
  · exact h

theorem BlockInv.resetWith (n : RingSize) (d : PowerOnDraw) : BlockInv (State.resetWith n d) := by
  have h2 := RingSize.two_le_slots n
  have hs : (State.resetWith n d).slots = n.slots := rfl
  have hh : (State.resetWith n d).headIdx = 0 := Nat.zero_mod _
  have ht : (State.resetWith n d).tailIdx = 0 := Nat.zero_mod _
  refine ⟨⟨List.Pairwise.nil, fun c hc => (by cases hc), ?_, ?_, ?_⟩, ?_, SeqOk.idle rfl, ?_, .inl ⟨rfl, rfl, rfl⟩⟩
  · show 0 < n.slots; omega
  · show 0 < n.slots; omega
  · rw [hh, ht, hs]; intro k hk
    rw [(occupied_eq_zero (by omega) (by omega)).2 rfl] at hk; omega
  · show BitVec.ofNat 2 d.drivemode.val ≠ 3#2
    have := d.drivemode.isLt
    intro h
    have h' := congrArg BitVec.toNat h
    simp at h'
    omega
  · constructor <;> simp [State.resetWith, selected, transferring, groupSoFar]
    exact ⟨[], by simp⟩
    

theorem BlockInv.setEnv {s : State} (h : BlockInv s) {e : Env} (he : e.boots = s.env.boots) : BlockInv (s.setEnv e) :=
  ⟨h.ring.of_eq rfl rfl, h.mode.of_eq rfl, h.seq.of_eq rfl rfl rfl he rfl, h.bus.of_eq rfl rfl rfl, h.serial.of_eq rfl⟩

theorem BlockInv.exec {i : Instr} {s t : State} (h : BlockInv s) (he : exec i s = .next t) : BlockInv t := by
  cases i with
  | push b => injection he with he; subst he; exact h.push b
  | avail => exact h.avail he
  | pop => exact h.pop he
  | businit => exact h.businit he
  | bussend a v => exact h.bussend he
  | rdButton1 => exact BlockInv.returnField h he
  | rdDrivemode => exact BlockInv.returnField h he
  | rdJoyx => exact BlockInv.returnField h he
  | rdJoyy => exact BlockInv.returnField h he
  | rdSpeedknob => exact BlockInv.returnField h he
  | rdLeds => exact BlockInv.returnField h he
  | rdFlash => exact BlockInv.returnField h he
  | wrButton1 v => exact BlockInv.writeRecord (r := { s.ssr with button1 := v }) h h.mode he
  | wrDrivemode v => obtain ⟨h1, h2⟩ := execWrDrivemode_cases he; exact BlockInv.writeRecord h h1 h2
  | wrJoyx v => exact BlockInv.writeRecord (r := { s.ssr with joyx := v }) h h.mode he
  | wrJoyy v => exact BlockInv.writeRecord (r := { s.ssr with joyy := v }) h h.mode he
  | wrSpeedknob v => exact BlockInv.writeRecord (r := { s.ssr with speedknob := v }) h h.mode he
  | wrLeds v => exact BlockInv.writeRecord (r := { s.ssr with leds := v }) h h.mode he
  | wrFlash v => exact BlockInv.writeRecord (r := { s.ssr with flash := v }) h h.mode he
  | pincfg p l => exact h.pincfg he
  | txbyte ch => exact h.txbyte he

end Sys2Proof.Machine
end

