-- ==== Sys2Proof/Laws/MicroSteps.lean ====
section
/-! SUPPORT. Every micro-step as one equation: what `exec` answers when that micro-step is due. With
`State.phaseOf_goto` a proof walks through an operation by rewriting and unfolds no meaning. -/

namespace Sys2Proof.Machine

@[simp] theorem State.phaseOf_goto (s : State) (i : Instr) (k : Nat) : (s.goto i k).phaseOf i = some k :=
  State.phaseOf_same rfl

/-- What p1 and a1 store is in range, so reading it back is the index itself. -/
theorem State.tTailIdx_of_read {s : State} {x : Nat} (hx : x < s.slots) (h : s.seq.tTail = x) : s.tTailIdx = x := by
  rw [State.tTailIdx, h, Nat.mod_eq_of_lt hx]

/-- The due micro-step depends on the sequencer alone. -/
theorem State.phaseOf_of_seq {s t : State} (h : t.seq = s.seq) (i : Instr) : t.phaseOf i = s.phaseOf i := by
  simp only [State.phaseOf, h]

theorem execPush_next (s : State) (b : Byte) : exec (.push b) s = .next (s.writeSlot s.tailIdx b).commit := rfl

/-! ### AVAIL -/

theorem exec_avail_a1 {s : State} (h : s.phaseOf .avail = some 1) :
    exec .avail s = .next ((s.setSeq { s.seq with tTail := s.tailIdx }).goto .avail 2) := by
  simp only [exec, execAvail, h]

theorem exec_avail_a2 {s : State} (h : s.phaseOf .avail = some 2) :
    exec .avail s = .next (s.finish (.value (BitVec.ofNat 8 (occupied s.slots s.headIdx s.tTailIdx)))) := by
  simp only [exec, execAvail, h]

/-! ### POP -/

theorem exec_pop_p1 {s : State} (h : s.phaseOf .pop = some 1) :
    exec .pop s = .next ((s.setSeq { s.seq with tTail := s.tailIdx }).goto .pop 2) := by
  simp only [exec, execPop, h]

theorem exec_pop_p2_empty {s : State} (h : s.phaseOf .pop = some 2) (he : s.headIdx = s.tTailIdx) :
    exec .pop s = .next (s.finish (.value Config.sentinel)) := by
  simp only [exec, execPop, h, if_pos he]

theorem exec_pop_p2_some {s : State} (h : s.phaseOf .pop = some 2) (he : s.headIdx ≠ s.tTailIdx) :
    exec .pop s = .next (s.goto .pop 3) := by
  simp only [exec, execPop, h, if_neg he]

theorem exec_pop_p3 {s : State} (h : s.phaseOf .pop = some 3) :
    exec .pop s = .next ((s.setSeq { s.seq with tByte := s.readSlot s.headIdx }).goto .pop 4) := by
  simp only [exec, execPop, h]

theorem exec_pop_p4 {s : State} (h : s.phaseOf .pop = some 4) :
    exec .pop s = .next ((s.setHead (nextIdx s.slots s.headIdx)).goto .pop 5) := by
  simp only [exec, execPop, h]

theorem exec_pop_p5 {s : State} (h : s.phaseOf .pop = some 5) :
    exec .pop s = .next (s.finish (.value s.seq.tByte)) := by
  simp only [exec, execPop, h]

/-! ### BUSINIT -/

theorem exec_businit_i1 {s : State} (h : s.phaseOf .businit = some 1) :
    exec .businit s = .next ((s.configureOutput Config.pinBusCs .high).goto .businit 2) := by
  simp only [exec, execBusinit, h]

theorem exec_businit_i2 {s : State} (h : s.phaseOf .businit = some 2) :
    exec .businit s = .next ((s.configureOutput Config.pinBusData .low).goto .businit 3) := by
  simp only [exec, execBusinit, h]

theorem exec_businit_i3 {s : State} (h : s.phaseOf .businit = some 3) :
    exec .businit s = .next ((s.configureOutput Config.pinBusClk .low).goto .businit 4) := by
  simp only [exec, execBusinit, h]

theorem exec_businit_i4 {s : State} (h : s.phaseOf .businit = some 4) :
    exec .businit s = .next ((s.setBus { s.bus with ctl := { en := true, mstr := true, x2 := false }, rdy := false, busy := false }).goto .businit 5) := by
  simp only [exec, execBusinit, h]

theorem exec_businit_i5 {s : State} (h : s.phaseOf .businit = some 5) :
    exec .businit s = .next (s.finish .done) := by
  simp only [exec, execBusinit, h]

/-! ### BUSSEND -/

theorem exec_bussend_s1 {s : State} {a v : Byte} (h : s.phaseOf (.bussend a v) = some 1) (hr : s.busReady = true) :
    exec (.bussend a v) s = .next ((((s.setSeq { s.seq with tAddr := a, tVal := v }).driveLevel Config.pinBusCs .low).emitBus .csFall).goto (.bussend a v) 2) := by
  simp only [exec, execBussend, h, if_pos hr]

theorem exec_bussend_s1_refused {s : State} {a v : Byte} (h : s.phaseOf (.bussend a v) = some 1)
    (hr : s.busReady = false) : exec (.bussend a v) s = .refused .busNotInitialised := by
  simp only [exec, execBussend, h, hr, Bool.false_eq_true, if_false]

theorem exec_bussend_s2 {s : State} {a v : Byte} (h : s.phaseOf (.bussend a v) = some 2) :
    exec (.bussend a v) s = .next ((s.writeBusdat s.seq.tAddr).goto (.bussend a v) 3) := by
  simp only [exec, execBussend, h]

theorem exec_bussend_s3 {s : State} {a v : Byte} (h : s.phaseOf (.bussend a v) = some 3) :
    exec (.bussend a v) s = .next (if s.bus.rdy then s.goto (.bussend a v) 4 else s) := by
  simp only [exec, execBussend, h]; split <;> rfl

theorem exec_bussend_s4 {s : State} {a v : Byte} (h : s.phaseOf (.bussend a v) = some 4) :
    exec (.bussend a v) s = .next ((s.writeBusdat s.seq.tVal).goto (.bussend a v) 5) := by
  simp only [exec, execBussend, h]

theorem exec_bussend_s5 {s : State} {a v : Byte} (h : s.phaseOf (.bussend a v) = some 5) :
    exec (.bussend a v) s = .next (if s.bus.rdy then s.goto (.bussend a v) 6 else s) := by
  simp only [exec, execBussend, h]; split <;> rfl

theorem exec_bussend_s6 {s : State} {a v : Byte} (h : s.phaseOf (.bussend a v) = some 6) :
    exec (.bussend a v) s = .next (((s.driveLevel Config.pinBusCs .high).emitBus .csRise).goto (.bussend a v) 7) := by
  simp only [exec, execBussend, h]

theorem exec_bussend_s7 {s : State} {a v : Byte} (h : s.phaseOf (.bussend a v) = some 7) :
    exec (.bussend a v) s = .next (s.finish .done) := by
  simp only [exec, execBussend, h]

/-! ### PINCFG and TXBYTE -/

theorem exec_pincfg_idle {s : State} {p : Byte} {l : Level} (h : s.seq.cop = none)
    (hok : (s.bus.ctl.en && isBusPin p) = false) :
    exec (.pincfg p l) s = .next ((s.configureOutput p l).finish .done) := by
  simp only [exec, execPincfg, State.whenIdle_idle h, hok, Bool.false_eq_true, if_false]

theorem exec_pincfg_refused {s : State} {p : Byte} {l : Level} (h : s.seq.cop = none)
    (hok : (s.bus.ctl.en && isBusPin p) = true) : exec (.pincfg p l) s = .refused .busPinOwned := by
  simp only [exec, execPincfg, State.whenIdle_idle h, hok, if_true]

theorem exec_txbyte_t1 {s : State} {ch : Byte} (h : s.phaseOf (.txbyte ch) = some 1) :
    exec (.txbyte ch) s = .next ((s.setSeq { s.seq with tCh := ch }).goto (.txbyte ch) (if s.ser.txrdy then 2 else 1)) := by
  simp only [exec, execTxbyte, h]

theorem exec_txbyte_t2 {s : State} {ch : Byte} (h : s.phaseOf (.txbyte ch) = some 2) :
    exec (.txbyte ch) s = .next ((s.writeTxdat s.seq.tCh).goto (.txbyte ch) 3) := by
  simp only [exec, execTxbyte, h]

theorem exec_txbyte_t3 {s : State} {ch : Byte} (h : s.phaseOf (.txbyte ch) = some 3) :
    exec (.txbyte ch) s = .next (s.finish .done) := by
  simp only [exec, execTxbyte, h]

/-! ### RD.f and WR.f -/

/-- A read from IDLE (R181): one micro-step. -/
theorem returnField_idle {s : State} (h : s.seq.cop = none) (x : Byte) :
    returnField x s = .next (s.finish (.value x)) := State.whenIdle_idle h _

/-- A write from IDLE (R181): one micro-step. -/
theorem writeRecord_idle {s : State} (h : s.seq.cop = none) (r : Ssr) :
    writeRecord r s = .next ((s.setSsr r).finish .done) := State.whenIdle_idle h _

/-! ### the consumer's turn -/

theorem fire_consumer_busy {s : State} {i : Instr} (h : s.seq.cop = some i) : fire .consumer s = exec i s := by
  simp only [fire, consumerStep, h]

theorem fire_consumer_idle {s : State} (h : s.seq.cop = none) (hp : s.env.pending = []) :
    fire .consumer s = .next s := by
  simp only [fire, consumerStep, h, hp]

theorem fire_consumer_issue {s : State} {m : MainOp} {rest : List MainOp} (h : s.seq.cop = none)
    (hp : s.env.pending = m :: rest) :
    fire .consumer s = issue m (s.setEnv { s.env with pending := rest }) := by
  simp only [fire, consumerStep, h, hp]

/-- An item that stands for an operation is that operation's first micro-step. -/
theorem issue_of_due {s : State} {m : MainOp} {i : Instr} (h : m.due s.lastByte = some i) :
    issue m s = exec i s := by
  simp only [issue, h]

/-- An item that stands for nothing changes nothing. -/
theorem issue_of_none {s : State} {m : MainOp} (h : m.due s.lastByte = none) : issue m s = .next s := by
  simp only [issue, h]

/-- A word of the consumer port, from IDLE (R101 point 6). -/
theorem fire_command_idle {s : State} {w : Word} {i : Instr} (hw : decode w = .ok i) (hp : i.port = .consumer)
    (h : s.seq.cop = none) : fire (.command w) s = exec i s.settled := by
  simp only [fire, onConsumerPort, hw, hp, h, Option.isSome_none, Bool.false_eq_true, if_false, if_true]

/-- A word of the consumer port while an operation is in flight (R101 point 5). -/
theorem fire_command_busy {s : State} {w : Word} {i : Instr} (hw : decode w = .ok i) (hp : i.port = .consumer)
    (h : s.seq.cop ≠ none) : fire (.command w) s = .next s := by
  simp only [fire, onConsumerPort, hw, hp, Option.isSome_iff_ne_none.2 h, if_true]

/-- A step whose next input is known. -/
theorem step_of_input {s : State} {e : Event} {rest : List Event} (h : s.env.inputs = e :: rest) :
    step s = fire e (s.setEnv { s.env with inputs := rest }) := by
  simp only [step, State.nextEvent, State.taken, h]

end Sys2Proof.Machine
end

