-- ==== Sys2Proof/Laws/PerInstr.lean ====
section
/-! SUPPORT. A family of statements about every instruction as syntax: its word is selected by its own
row of the opcode map (30_encoding.md R96), and the row's opcode is its own. -/

namespace Sys2Proof.Laws.RowSelects

/-- "A word `w` selects the row when `w & mask == match`" (R96), of the word of `i` and the row of `i`;
the row stands in the opcode map. -/
def Statement (i : Instr) : Prop :=
  encode i &&& i.rowMask = i.rowMatch ∧ (i.rowMatch, i.rowMask) ∈ opcodeRows ∧
    opField (encode i) = i.opcode

/-- Masking a word field by field. -/
theorem mkWord_and (op a b m1 m2 m3 : Byte) :
    mkWord op a b &&& mkWord m1 m2 m3 = mkWord (op &&& m1) (a &&& m2) (b &&& m3) := by
  have ho : ∀ w x : Word, opField (w &&& x) = opField w &&& opField x := fun _ _ => BitVec.extractLsb'_and
  have ha : ∀ w x : Word, aField (w &&& x) = aField w &&& aField x := fun _ _ => BitVec.extractLsb'_and
  have hb : ∀ w x : Word, bField (w &&& x) = bField w &&& bField x := fun _ _ => BitVec.extractLsb'_and
  refine word_ext ?_ ?_ ?_
  · simp [ho]
  · simp [ha]
  · simp [hb]

/-- An operand bit position a mask keeps. -/
theorem and_ones (x : Byte) : x &&& 0xFF#8 = x := BitVec.and_allOnes

theorem push (b : Byte) : Statement (.push b) := by
  refine ⟨?_, by simp [opcodeRows, Instr.rowMatch, Instr.rowMask], opField_mkWord ..⟩
  show mkWord 0x01#8 0#8 b &&& mkWord 0xFF#8 0xFF#8 0x00#8 = mkWord 0x01#8 0#8 0#8
  rw [mkWord_and, and_ones]; simp

theorem avail : Statement .avail := by
  refine ⟨by decide, by decide, by decide⟩

theorem pop : Statement .pop := by
  refine ⟨by decide, by decide, by decide⟩

theorem businit : Statement .businit := by
  refine ⟨by decide, by decide, by decide⟩

theorem bussend (a v : Byte) : Statement (.bussend a v) := by
  refine ⟨?_, by simp [opcodeRows, Instr.rowMatch, Instr.rowMask], opField_mkWord ..⟩
  show mkWord 0x21#8 a v &&& mkWord 0xFF#8 0x00#8 0x00#8 = mkWord 0x21#8 0#8 0#8
  rw [mkWord_and, and_ones]; simp

theorem rdButton1 : Statement .rdButton1 := by
  refine ⟨by decide, by decide, by decide⟩

theorem rdDrivemode : Statement .rdDrivemode := by
  refine ⟨by decide, by decide, by decide⟩

theorem rdJoyx : Statement .rdJoyx := by
  refine ⟨by decide, by decide, by decide⟩

theorem rdJoyy : Statement .rdJoyy := by
  refine ⟨by decide, by decide, by decide⟩

theorem rdSpeedknob : Statement .rdSpeedknob := by
  refine ⟨by decide, by decide, by decide⟩

theorem rdLeds : Statement .rdLeds := by
  refine ⟨by decide, by decide, by decide⟩

theorem rdFlash : Statement .rdFlash := by
  refine ⟨by decide, by decide, by decide⟩

theorem wrButton1 (v : BitVec 1) : Statement (.wrButton1 v) := by
  revert v; unfold Statement; decide

theorem wrDrivemode (v : BitVec 2) : Statement (.wrDrivemode v) := by
  revert v; unfold Statement; decide

/-- The row of a write whose operand is the whole of `b` (format B). -/
theorem formatB_row (op v : Byte) :
    mkWord op 0#8 v &&& mkWord 0xFF#8 0xFF#8 0x00#8 = mkWord op 0#8 0#8 := by
  rw [mkWord_and, and_ones]; simp

theorem wrJoyx (v : Byte) : Statement (.wrJoyx v) :=
  ⟨formatB_row 0x3A#8 v, by simp [opcodeRows, Instr.rowMatch, Instr.rowMask], opField_mkWord ..⟩

theorem wrJoyy (v : Byte) : Statement (.wrJoyy v) :=
  ⟨formatB_row 0x3B#8 v, by simp [opcodeRows, Instr.rowMatch, Instr.rowMask], opField_mkWord ..⟩

theorem wrSpeedknob (v : Byte) : Statement (.wrSpeedknob v) :=
  ⟨formatB_row 0x3C#8 v, by simp [opcodeRows, Instr.rowMatch, Instr.rowMask], opField_mkWord ..⟩

theorem wrLeds (v : Byte) : Statement (.wrLeds v) :=
  ⟨formatB_row 0x3D#8 v, by simp [opcodeRows, Instr.rowMatch, Instr.rowMask], opField_mkWord ..⟩

theorem wrFlash (v : Byte) : Statement (.wrFlash v) :=
  ⟨formatB_row 0x3E#8 v, by simp [opcodeRows, Instr.rowMatch, Instr.rowMask], opField_mkWord ..⟩

theorem pincfg (pin : Byte) (level : Level) : Statement (.pincfg pin level) := by
  refine ⟨?_, by simp [opcodeRows, Instr.rowMatch, Instr.rowMask], opField_mkWord ..⟩
  show mkWord 0x40#8 pin ((bitOfLevel level).setWidth 8) &&& mkWord 0xFF#8 0x00#8 0xFE#8 =
    mkWord 0x40#8 0#8 0#8
  rw [mkWord_and, and_ones]
  cases level <;> simp [bitOfLevel]

theorem txbyte (ch : Byte) : Statement (.txbyte ch) :=
  ⟨formatB_row 0x50#8 ch, by simp [opcodeRows, Instr.rowMatch, Instr.rowMask], opField_mkWord ..⟩

end Sys2Proof.Laws.RowSelects
end

