-- ==== Sys2Proof/Laws/Pushes.lean ====
section
/-! SUPPORT. What any number of PUSHes leave of a state, and the queue the ring buffer stands for under
one PUSH and one advance of `head` (20_memory.md R77, R78, 40_fifo.md R126, R132). -/

namespace Sys2Proof.Machine

/-- The state one PUSH leaves. -/
def State.pushed (s : State) (b : Byte) : State := (s.writeSlot s.tailIdx b).commit

theorem exec_push_eq (s : State) (b : Byte) : exec (.push b) s = .next (s.pushed b) := rfl

/-- A PUSH changes the ring buffer alone. -/
theorem State.pushed_eq (s : State) (b : Byte) : s.pushed b = s.setRing (s.pushed b).ring := by
  unfold State.pushed State.commit
  split <;> rfl

theorem State.pushed_head (s : State) (b : Byte) : (s.pushed b).ring.head = s.ring.head := by
  unfold State.pushed
  rw [State.commit_ring]
  split <;> rfl

/-- PUSH when full rewrites one slot (R122). -/
theorem State.pushed_full {s : State} (h : s.isFull = true) (b : Byte) :
    s.pushed b = s.writeSlot s.tailIdx b := by
  unfold State.pushed State.commit
  exact if_pos h

/-- What PUSHes alone leave: the ring buffer is all that is changed, `head` is not, no byte is lost
that was held, and the slots that were occupied hold what they held (R78). -/
structure Pushed (s t : State) : Prop where
  ringOnly : t = s.setRing t.ring
  head     : t.ring.head = s.ring.head
  count    : occupied s.slots s.headIdx s.tailIdx ≤ occupied t.slots t.headIdx t.tailIdx
  slot     : ∀ k, k < occupied s.slots s.headIdx s.tailIdx →
    t.readSlot ((s.headIdx + k) % s.slots) = s.readSlot ((s.headIdx + k) % s.slots)

namespace Pushed

variable {s t u : State}

theorem size (h : Pushed s t) : t.size = s.size := by rw [h.ringOnly]; rfl
theorem ssr (h : Pushed s t) : t.ssr = s.ssr := by rw [h.ringOnly]; rfl
theorem pins (h : Pushed s t) : t.pins = s.pins := by rw [h.ringOnly]; rfl
theorem bus (h : Pushed s t) : t.bus = s.bus := by rw [h.ringOnly]; rfl
theorem ser (h : Pushed s t) : t.ser = s.ser := by rw [h.ringOnly]; rfl
theorem seq (h : Pushed s t) : t.seq = s.seq := by rw [h.ringOnly]; rfl
theorem ports (h : Pushed s t) : t.ports = s.ports := by rw [h.ringOnly]; rfl
theorem env (h : Pushed s t) : t.env = s.env := by rw [h.ringOnly]; rfl
theorem slots (h : Pushed s t) : t.slots = s.slots := State.slots_of_size h.size

theorem headIdx (h : Pushed s t) : t.headIdx = s.headIdx := by
  simp only [State.headIdx, h.slots, h.head]

theorem refl (s : State) : Pushed s s := ⟨rfl, rfl, le_refl _, fun _ _ => rfl⟩

theorem one (s : State) (b : Byte) : Pushed s (s.pushed b) := by
  refine ⟨s.pushed_eq b, s.pushed_head b, ?_, fun k hk => ?_⟩
  · rw [State.pushed, push_slots, push_headIdx, push_occupied]
    split <;> omega
  · rw [State.pushed, push_readSlot, if_neg (occupied_slot_ne_tail s.headIdx_lt s.tailIdx_lt hk)]

theorem trans (h : Pushed s t) (h' : Pushed t u) : Pushed s u := by
  refine ⟨?_, h'.head.trans h.head, h.count.trans h'.count, fun k hk => ?_⟩
  · rw [h'.ringOnly, h.ringOnly]; rfl
  · rw [← h.slot k hk, ← h.slots, ← h.headIdx, h'.slot k (lt_of_lt_of_le hk h.count)]

end Pushed

theorem pushAll_cons (b : Byte) (bs : List Byte) (s : State) :
    pushAll (b :: bs) s = pushAll bs (s.pushed b) := rfl

/-- Any number of PUSHes completes. -/
theorem pushAll_next (bs : List Byte) (s : State) : ∃ t, pushAll bs s = .next t ∧ Pushed s t := by
  induction bs generalizing s with
  | nil => exact ⟨s, rfl, .refl s⟩
  | cons b bs ih =>
    obtain ⟨t, h1, h2⟩ := ih (s.pushed b)
    exact ⟨t, h1, (Pushed.one s b).trans h2⟩

/-- The occupied count after a PUSH: "never exceeds N - 1" (R126). -/
theorem State.pushed_occupied (s : State) (b : Byte) :
    occupied (s.pushed b).slots (s.pushed b).headIdx (s.pushed b).tailIdx =
      min (occupied s.slots s.headIdx s.tailIdx + 1) (s.slots - 1) := by
  rw [State.pushed, push_slots, push_headIdx, push_occupied]
  have h1 := occupied_lt s.headIdx_lt s.tailIdx_lt
  have h2 := s.isFull_iff
  split <;> simp_all
  omega

theorem State.queue_length (s : State) : s.queue.length = occupied s.slots s.headIdx s.tailIdx := by
  simp [State.queue]

/-- Two states with the same count and the same occupied slots stand for the same queue. -/
theorem State.queue_congr {s t : State} (hn : t.slots = s.slots) (hh : t.headIdx = s.headIdx)
    (ho : occupied t.slots t.headIdx t.tailIdx = occupied s.slots s.headIdx s.tailIdx)
    (hr : ∀ k, k < occupied s.slots s.headIdx s.tailIdx →
      t.readSlot ((s.headIdx + k) % s.slots) = s.readSlot ((s.headIdx + k) % s.slots)) :
    t.queue = s.queue := by
  unfold State.queue
  rw [ho, hh, hn]
  exact List.map_congr_left fun k hk => hr k (List.mem_range.1 hk)

theorem State.queue_pushed (s : State) (b : Byte) :
    (s.pushed b).queue = if s.queue.length < s.slots - 1 then s.queue ++ [b] else s.queue := by
  rw [State.queue_length]
  have hlt := occupied_lt s.headIdx_lt s.tailIdx_lt
  have P := Pushed.one s b
  have hr : ∀ x, (s.pushed b).readSlot x = if x = s.tailIdx then b else s.readSlot x := push_readSlot s b
  split
  · next h =>
    have ho : occupied (s.pushed b).slots (s.pushed b).headIdx (s.pushed b).tailIdx =
        occupied s.slots s.headIdx s.tailIdx + 1 := by
      rw [State.pushed_occupied]; omega
    unfold State.queue
    rw [ho, P.headIdx, P.slots, List.range_succ, List.map_append]
    congr 1
    · exact List.map_congr_left fun k hk => P.slot k (List.mem_range.1 hk)
    · simp [hr, add_occupied_mod s.headIdx_lt s.tailIdx_lt]
  · exact State.queue_congr P.slots P.headIdx (by rw [State.pushed_occupied]; omega) P.slot

/-- Advancing `head` takes the oldest byte off the queue. -/
theorem State.queue_advance {s u : State} (he : s.isEmpty = false) (hn : u.slots = s.slots)
    (hh : u.headIdx = nextIdx s.slots s.headIdx) (ht : u.tailIdx = s.tailIdx)
    (hr : ∀ x, u.readSlot x = s.readSlot x) : s.queue = s.readSlot s.headIdx :: u.queue := by
  have hne : s.headIdx ≠ s.tailIdx := by simpa [State.isEmpty] using he
  unfold State.queue
  rw [hn, hh, ht, ← occupied_nextIdx_head s.headIdx_lt s.tailIdx_lt hne, List.range_succ_eq_map, List.map_cons]
  congr 1
  · simp [Nat.mod_eq_of_lt s.headIdx_lt]
  · rw [List.map_map]
    refine List.map_congr_left fun k _ => ?_
    simp only [Function.comp, hr, nextIdx_add_mod]

end Sys2Proof.Machine
end

