-- ==== Sys2Proof/Tests/Slice0.lean ====
section
/-! SUPPORT. The model's own tests: expected results from 95_test_vectors.md and the rules' worked
examples, one step or one operation each, and for every obligation with hypotheses a state that meets
them (named after it). -/

namespace Sys2Proof.Tests

open Sys2Proof.Machine

/-! ### well-formedness (10_state.md R28, 30_encoding.md R99) -/

theorem test_drivemode_three_is_ill_formed : (Instr.wrDrivemode 3#2).wf = false := by decide
theorem test_drivemode_two_is_well_formed : (Instr.wrDrivemode 2#2).wf = true := by decide
theorem test_illegal_ring_sizes : [0, 1, 3, 12, 512].map RingSize.ofSlots? = [none, none, none, none, none] := by decide
theorem test_legal_ring_sizes : [2, 4, 16, 256].map RingSize.ofSlots? = [some .n2, some .n4, some .n16, some .n256] := by decide

/-! ### decoding: every constructor's word, bit by bit from 30_encoding.md R92 to R96 -/

theorem test_decode_push : decode 0b00000001_00000000_01000001#24 = .ok (.push 0x41#8) := by decide
theorem test_decode_avail : decode 0b00010000_00000000_00000000#24 = .ok .avail := by decide
theorem test_decode_pop : decode 0b00010001_00000000_00000000#24 = .ok .pop := by decide
theorem test_decode_businit : decode 0b00100000_00000000_00000000#24 = .ok .businit := by decide
theorem test_decode_bussend : decode 0b00100001_00000010_11001000#24 = .ok (.bussend 2#8 200#8) := by decide
theorem test_decode_reads :
    [0x300000#24, 0x310000#24, 0x320000#24, 0x330000#24, 0x340000#24, 0x350000#24, 0x360000#24].map decode =
      [.ok .rdButton1, .ok .rdDrivemode, .ok .rdJoyx, .ok .rdJoyy, .ok .rdSpeedknob, .ok .rdLeds, .ok .rdFlash] := by
  decide
theorem test_decode_writes :
    [0x380001#24, 0x390002#24, 0x3A00C8#24, 0x3B0080#24, 0x3C000A#24, 0x3D002A#24, 0x3E0003#24].map decode =
      [.ok (.wrButton1 1#1), .ok (.wrDrivemode 2#2), .ok (.wrJoyx 200#8), .ok (.wrJoyy 0x80#8),
       .ok (.wrSpeedknob 10#8), .ok (.wrLeds 0x2A#8), .ok (.wrFlash 3#8)] := by
  decide
theorem test_decode_pincfg : decode 0b01000000_00000010_00000001#24 = .ok (.pincfg 2#8 .high) := by decide
theorem test_decode_txbyte : decode 0b01010000_00000000_01100110#24 = .ok (.txbyte 0x66#8) := by decide
/-- V39, V40, V42 to V45. -/
theorem test_decode_reserved :
    [0x01FF41#24, 0x100001#24, 0x380002#24, 0x390003#24, 0x370000#24, 0x3F0000#24, 0x000000#24, 0xFFFFFF#24, 0x400202#24].map decode =
      [.error .operandNotZero, .error .operandNotZero, .error .operandNotZero, .error .reservedValue,
       .error .reservedOpcode, .error .reservedOpcode, .error .reservedOpcode, .error .reservedOpcode,
       .error .operandNotZero] := by
  decide
/-- V48. -/
theorem test_field_number : fieldNumber 0x340000#24 = 4#3 ∧ fieldNumber 0x3C0000#24 = 4#3 := by decide
theorem test_decode_table_word : decodeTableWord 24 0x2102C8 = some (.bussend 2#8 200#8) := by decide
/-- R104, R105: `BUSSEND 2, 200`. -/
theorem test_assembly : (Instr.bussend 2#8 200#8).assembly = "BUSSEND 2, 200" := by decide

/-! ### states -/

/-- The reset state with a ring buffer. -/
def ringState (n : RingSize) (storage : Memory) (head tail : Nat) : State :=
  { State.reset with size := n, ring := { storage := storage, head := head, tail := tail } }

/-- The reset state with inputs waiting. -/
def waitingFor (inputs : List Event) : State := State.reset.setEnv { State.reset.env with inputs := inputs }

/-- N = 4, bytes 1, 2, 3 held, full (V12). -/
def full4 : State := ringState .n4 [(0, 1#8), (1, 2#8), (2, 3#8)] 0 3

/-- One byte held (V9 with 0x41). -/
def one16 : State := ringState .n16 [(0, 0x41#8)] 0 1

/-- The five states of BUSINIT from reset (V17). -/
def up1 : State := (State.reset.configureOutput Config.pinBusCs .high).goto .businit 2
def up2 : State := (up1.configureOutput Config.pinBusData .low).goto .businit 3
def up3 : State := (up2.configureOutput Config.pinBusClk .low).goto .businit 4
def up4 : State := (up3.setBus { up3.bus with ctl := { en := true, mstr := true, x2 := false }, rdy := false, busy := false }).goto .businit 5
def up : State := up4.finish .done

/-- The states of `BUSSEND 2, 200` from there (V18): after s1, s2, the first BUS.DONE, s3, s4. -/
def send1 : State := (((up.setSeq { up.seq with tAddr := 2#8, tVal := 200#8 }).driveLevel Config.pinBusCs .low).emitBus .csFall).goto (.bussend 2#8 200#8) 2
def send2 : State := (send1.writeBusdat send1.seq.tAddr).goto (.bussend 2#8 200#8) 3
def send2done : State := send2.busDone
def send3 : State := send2done.goto (.bussend 2#8 200#8) 4
def send4 : State := (send3.writeBusdat send3.seq.tVal).goto (.bussend 2#8 200#8) 5
def send4done : State := send4.busDone
def send5 : State := send4done.goto (.bussend 2#8 200#8) 6
def send6 : State := ((send5.driveLevel Config.pinBusCs .high).emitBus .csRise).goto (.bussend 2#8 200#8) 7
def sent : State := send6.finish .done

/-- GETC's AVAIL has returned 3 and its second half is still to be issued. -/
def betweenItems : State :=
  (full4.setPorts { full4.ports with rsp := .value 3#8 }).setEnv { full4.env with pending := [.popIfNonzero] }

/-- A configured link; one byte handed over; a second TXBYTE waiting at t1 (V26). -/
def link : State := State.reset.configureSerial
def tx1 : State := (link.setSeq { link.seq with tCh := 0x41#8 }).goto (.txbyte 0x41#8) 2
def tx2 : State := (tx1.writeTxdat tx1.seq.tCh).goto (.txbyte 0x41#8) 3
def tx3 : State := tx2.finish .done
def wait1 : State := (tx3.setSeq { tx3.seq with tCh := 0x42#8 }).goto (.txbyte 0x42#8) 1
def wait1done : State := wait1.txDone
def wait2 : State := (wait1done.setSeq { wait1done.seq with tCh := 0x42#8 }).goto (.txbyte 0x42#8) 2
def wait3 : State := (wait2.writeTxdat wait2.seq.tCh).goto (.txbyte 0x42#8) 3
def handed : State := wait3.finish .done

/-- A byte pushed from reset, and POP's states until p4 is due. -/
def held : State := State.reset.pushed 0x41#8
def pop1 : State := (held.setSeq { held.seq with tTail := held.tailIdx }).goto .pop 2
def pop2 : State := pop1.goto .pop 3
def pop3 : State := (pop2.setSeq { pop2.seq with tByte := pop2.readSlot pop2.headIdx }).goto .pop 4
def pop4 : State := (pop3.setHead (nextIdx pop3.slots pop3.headIdx)).goto .pop 5

/-! ### the operations against the spec's vectors -/

/-- V1. -/
theorem test_push_from_reset :
    held.ring.storage.read 0 = some 0x41#8 ∧ held.ring.tail = 1 ∧ held.ring.head = 0 := by decide
/-- V2: the wrap. -/
theorem test_push_wraps : ∃ t, exec (.push 0x7E#8) (ringState .n16 [] 5 15) = .next t ∧
    t.ring.storage.read 15 = some 0x7E#8 ∧ t.ring.tail = 0 ∧ t.ring.head = 5 := ⟨_, rfl, by decide⟩
/-- V5, V6. -/
theorem test_avail_wrapped : (∃ t, microSteps 2 .avail (ringState .n16 [] 14 3) = .next t ∧ t.ports.rsp = .value 5#8) ∧
    (∃ t, microSteps 2 .avail (ringState .n16 [] 3 2) = .next t ∧ t.ports.rsp = .value 15#8) := ⟨⟨_, rfl, rfl⟩, ⟨_, rfl, rfl⟩⟩
/-- V7: the wrap of `head`. -/
theorem test_pop_wraps : ∃ t, microSteps 5 .pop (ringState .n16 [(15, 0x5A#8)] 15 2) = .next t ∧
    t.ports.rsp = .value 0x5A#8 ∧ t.ring.head = 0 ∧ t.seq.cop = none := ⟨_, rfl, by decide⟩
/-- V8. -/
theorem test_pop_empty : ∃ t, microSteps 2 .pop (ringState .n16 [] 7 7) = .next t ∧
    t.ports.rsp = .value 0x00#8 ∧ t.ring.head = 7 ∧ t.seq.cop = none := ⟨_, rfl, by decide⟩
/-- V12: a PUSH between p2 and p3 of a POP of a full buffer is lost. -/
theorem test_push_inside_pop_of_full : ∃ s t, microSteps 2 .pop full4 = .next s ∧
    pushAll [9#8] s = .next t ∧ t.ring.storage.read 3 = some 9#8 ∧ t.ring.tail = 3 := ⟨_, _, rfl, rfl, by decide⟩
/-- V17. -/
theorem test_businit : up.pin 2#8 = ⟨.output, .high⟩ ∧ up.pin 0#8 = ⟨.output, .low⟩ ∧ up.pin 1#8 = ⟨.output, .low⟩ ∧
    up.bus.ctl.image = 0b011#8 ∧ up.bus.rdy = false ∧ up.bus.trace = [] := by
  refine ⟨rfl, rfl, rfl, rfl, rfl, rfl⟩
/-- V18. -/
theorem test_bussend : sent.bus.trace = [.csFall, .xfer 0x02#8, .xfer 0xC8#8, .csRise] ∧
    (sent.pin 2#8).level = .high ∧ sent.bus.dat = 0xC8#8 ∧ sent.bus.rdy = true := by
  refine ⟨rfl, rfl, rfl, rfl⟩
/-- V18b. -/
theorem test_bussend_before_businit : exec (.bussend 2#8 200#8) State.reset = .refused .busNotInitialised := rfl
/-- V18d. -/
theorem test_xfer_bits : sampledBits 0xC8#8 = [.high, .high, .low, .low, .high, .low, .low, .low] := by decide
/-- V21. -/
theorem test_leds_keep_all_bits : ∃ s t, exec (.wrLeds 0xFF#8) State.reset = .next s ∧ exec .rdLeds s = .next t ∧
    t.ports.rsp = .value 0xFF#8 := ⟨_, _, rfl, rfl, rfl⟩
/-- V22 without its PUSH. -/
theorem test_button : ∃ s t, exec (.wrButton1 1#1) State.reset = .next s ∧ exec .rdButton1 s = .next t ∧
    t.ports.rsp = .value 0x01#8 := ⟨_, _, rfl, rfl, rfl⟩
/-- V22b. -/
theorem test_mode_three_refused : fire (.command 0x390003#24) State.reset = .refused (.reservedWord .reservedValue) := rfl
/-- V22c. -/
theorem test_speedknob_not_clamped : ∃ s t, exec (.wrSpeedknob 255#8) State.reset = .next s ∧
    exec .rdSpeedknob s = .next t ∧ t.ports.rsp = .value 0xFF#8 := ⟨_, _, rfl, rfl, rfl⟩
theorem test_flash_and_joyy : ∃ s t u x, exec (.wrFlash 3#8) State.reset = .next s ∧ exec (.wrJoyy 0x80#8) s = .next t ∧
    exec .rdFlash t = .next u ∧ exec .rdJoyy t = .next x ∧ u.ports.rsp = .value 3#8 ∧ x.ports.rsp = .value 0x80#8 :=
  ⟨_, _, _, _, rfl, rfl, rfl, rfl, rfl, rfl⟩
/-- P3 rows 2 and 3, R183's example. -/
theorem test_joyx_and_drivemode : ∃ s t u x, exec (.wrJoyx 200#8) State.reset = .next s ∧ exec (.wrDrivemode 2#2) s = .next t ∧
    exec .rdJoyx t = .next u ∧ exec .rdDrivemode t = .next x ∧ u.ports.rsp = .value 0xC8#8 ∧ x.ports.rsp = .value 2#8 :=
  ⟨_, _, _, _, rfl, rfl, rfl, rfl, rfl, rfl⟩
/-- V23. -/
theorem test_pincfg : ∃ t, exec (.pincfg 2#8 .high) State.reset = .next t ∧ t.pin 2#8 = ⟨.output, .high⟩ ∧
    t.pin 7#8 = ⟨.input, .low⟩ := ⟨_, rfl, rfl, rfl⟩
/-- R211: one micro-step, the port free again. -/
theorem test_pincfg_one_step : ∃ t, exec (.pincfg 2#8 .high) State.reset = .next t ∧ t.seq.cop = none ∧
    t.ports.rsp = .done := ⟨_, rfl, rfl, rfl⟩
/-- V24a. -/
theorem test_pincfg_owned : exec (.pincfg 2#8 .low) up = .refused .busPinOwned := rfl
/-- V25. -/
theorem test_txbyte : tx2.ser.txdat = 0x41#8 ∧ tx2.ser.txrdy = false ∧ tx2.ser.busy = true ∧
    tx2.txDone.ser.trace = [0x41#8] ∧ tx2.txDone.ser.txrdy = true := ⟨rfl, rfl, rfl, rfl, rfl⟩
/-- V26: stuck at t1, then in order. -/
theorem test_txbyte_waits : exec (.txbyte 0x42#8) wait1 = .next wait1 ∧ handed.txDone.ser.trace = [0x41#8, 0x42#8] := ⟨rfl, rfl⟩
/-- V29, V31. -/
theorem test_formats : fmtUnsigned 65535 2 = List.replicate 16 0x31#8 ∧ fmtUnsigned 255 16 = [0x66#8, 0x66#8] ∧
    fmtSigned 0x8000#16 10 = [0x2D#8, 0x33#8, 0x32#8, 0x37#8, 0x36#8, 0x38#8] ∧
    fmtSigned 0xFFD6#16 10 = [0x2D#8, 0x34#8, 0x32#8] := by decide
/-- V35. -/
theorem test_frame : txFrame 0x66#8 = [.low, .low, .high, .high, .low, .low, .high, .high, .low, .high] := by decide
/-- V37, V38. -/
theorem test_wrong_port : fire (.command 0x010041#24) State.reset = .refused .wrongPort ∧
    fire (.producer 0x110000#24) State.reset = .refused .wrongPort := ⟨rfl, rfl⟩
/-- V47: not taken. -/
theorem test_busy_port : fire (.command 0x100000#24) send2 = .next send2 := rfl
/-- The instruction a fetched word places is run by the next step. -/
theorem test_fetch_word : step (State.reset.withFetchWord 24 0x3A00C8) = exec (.wrJoyx 200#8) State.reset := rfl
/-- P3: two groups latch two pairs (E4). -/
theorem test_pot_log : potLog (busGroup 2#8 200#8 ++ busGroup 3#8 7#8) = [(2#8, 200#8), (3#8, 7#8)] := by decide

/-! ### the invariant in the states above -/

theorem inv_of_block {s : State} (h : BlockInv s) (hp : s.env.pending = []) : Inv s :=
  ⟨h, fun i hi => by rw [hp] at hi; cases hi⟩

theorem block_reset : BlockInv State.reset := BlockInv.resetWith _ _
theorem block_up : BlockInv up :=
  ((((block_reset.exec (exec_businit_i1 rfl)).exec (exec_businit_i2 rfl)).exec (exec_businit_i3 rfl)).exec
    (exec_businit_i4 rfl)).exec (exec_businit_i5 rfl)
theorem block_send2 : BlockInv send2 := (block_up.exec (exec_bussend_s1 rfl rfl)).exec (exec_bussend_s2 rfl)
theorem block_send4 : BlockInv send4 :=
  (show BlockInv send3 from block_send2.busDone.exec (exec_bussend_s3 (a := 2#8) (v := 200#8) rfl)).exec (exec_bussend_s4 rfl)
theorem block_link : BlockInv link := block_reset.configureSerial
theorem block_tx1 : BlockInv tx1 := block_link.exec (exec_txbyte_t1 (ch := 0x41#8) rfl)
theorem block_wait1 : BlockInv wait1 :=
  ((block_tx1.exec (exec_txbyte_t2 (ch := 0x41#8) rfl)).exec (exec_txbyte_t3 (ch := 0x41#8) rfl)).exec (exec_txbyte_t1 (ch := 0x42#8) rfl)
theorem block_held : BlockInv held := block_reset.push 0x41#8
theorem block_pop1 : BlockInv pop1 := block_held.exec (exec_pop_p1 rfl)
theorem block_pop2 : BlockInv pop2 := block_pop1.exec (exec_pop_p2_some rfl (by decide))
theorem block_pop3 : BlockInv pop3 := block_pop2.exec (exec_pop_p3 rfl)

/-- The reset state with inputs waiting meets the invariant. -/
theorem inv_waiting (inputs : List Event) : Inv (waitingFor inputs) :=
  inv_of_block (block_reset.setEnv rfl) rfl

/-- A state that meets the invariant still does with other inputs waiting. -/
theorem inv_inputs {s : State} (h : BlockInv s) (hp : s.env.pending = []) (inputs : List Event) :
    Inv (s.setEnv { s.env with inputs := inputs }) := inv_of_block (h.setEnv rfl) hp

/-! ### states that meet the hypotheses of the obligations -/

theorem witness_EncodedInstructionDecodesToItself :
    (Instr.wrDrivemode 2#2).wf = true ∧ (Instr.bussend 255#8 255#8).wf = true := by decide

theorem witness_DecodedWordIsItsInstructionsWord : ∃ i, decode 0x3800_01#24 = .ok i := ⟨.wrButton1 1#1, by decide⟩

theorem witness_StepRunsTheDecodedInstruction_command : ∃ (s : State) (w : Word) (i : Instr) (rest : List Event),
    s.env.inputs = .command w :: rest ∧ decode w = .ok i ∧ i.port = .consumer ∧ Idle s :=
  ⟨waitingFor [.command 0x320000#24, .busDone], 0x320000#24, .rdJoyx, [.busDone], rfl, by decide, by decide, rfl⟩

/-- V47's other side: an expansion's item pending does not make the port busy (R101 point 5), and the item
keeps the result it waited for. -/
theorem test_word_between_items : ∃ t u, fire (.command 0x320000#24) betweenItems = .next t ∧
    t.ports.rsp = .value 0x00#8 ∧ t.env.pending = [.op .pop] ∧ fire .consumer t = .next u ∧
    u.seq.cop = some .pop := ⟨_, _, rfl, rfl, rfl, rfl, rfl⟩

theorem witness_StepRunsTheDecodedInstruction_push : ∃ (s : State) (w : Word) (b : Byte) (rest : List Event),
    s.env.inputs = .producer w :: rest ∧ decode w = .ok (.push b) :=
  ⟨waitingFor [.producer 0x0100FF#24], 0x0100FF#24, 0xFF#8, [], rfl, by decide⟩

/-- `send2` with a consumer step waiting. -/
def send2Due : State := send2.setEnv { send2.env with inputs := [.consumer] }

theorem witness_StepRunsTheDecodedInstruction_consumer : ∃ (s : State) (i : Instr) (rest : List Event),
    s.env.inputs = .consumer :: rest ∧ s.seq.cop = some i := ⟨send2Due, .bussend 2#8 200#8, [], rfl, rfl⟩

theorem witness_StepRunsTheDecodedInstruction_fetch : ∃ (nbits w : Nat) (i : Instr),
    decode (BitVec.ofNat 24 (w % 2 ^ nbits)) = .ok i ∧ i.port = .consumer :=
  ⟨24, 0x2102C8, .bussend 2#8 200#8, by decide, by decide⟩

theorem witness_StepRunsTheDecodedInstruction_fetch_push : ∃ (nbits w : Nat) (b : Byte),
    decode (BitVec.ofNat 24 (w % 2 ^ nbits)) = .ok (.push b) := ⟨24, 0x010041, 0x41#8, by decide⟩

theorem witness_EachPortRefusesIgnoresOrPerforms :
    (∃ w r, decode w = .error r) ∧ (∃ w b, decode w = .ok (.push b)) ∧
    (∃ w i, decode w = .ok i ∧ (∀ b, i ≠ .push b) ∧ send2.seq.cop ≠ none ∧ Idle State.reset ∧
      State.reset.env.pending = [] ∧ Idle betweenItems ∧ betweenItems.env.pending ≠ []) :=
  ⟨⟨0x390003#24, .reservedValue, by decide⟩, ⟨0x0100FF#24, 0xFF#8, by decide⟩,
    0x100000#24, .avail, by decide, fun _ => nofun, nofun, rfl, rfl, rfl, nofun⟩

/-- One state for each reason to refuse. -/
theorem witness_StepRefusesOnlyWhereTheSpecDeclines :
    (∃ s, Inv s ∧ step s = .refused (.reservedWord .reservedOpcode)) ∧
    (∃ s, Inv s ∧ step s = .refused .wrongPort) ∧
    (∃ s, Inv s ∧ step s = .refused .busNotInitialised) ∧
    (∃ s, Inv s ∧ step s = .refused .busPinOwned) ∧
    (∃ s, Inv s ∧ step s = .refused .noSuchField) ∧
    (∃ s, Inv s ∧ step s = .refused .badBase) ∧
    (∃ s, Inv s ∧ step s = .refused .unterminatedString) :=
  ⟨⟨waitingFor [.producer 0x000000#24], inv_waiting _, rfl⟩, ⟨waitingFor [.command 0x010041#24], inv_waiting _, rfl⟩,
    ⟨waitingFor [.command 0x2102C8#24], inv_waiting _, rfl⟩,
    ⟨up.setEnv { up.env with inputs := [.command 0x400200#24] }, inv_inputs block_up rfl _, rfl⟩,
    ⟨waitingFor [.obsRead 7#3], inv_waiting _, rfl⟩, ⟨waitingFor [.pseudo (.txuns 5#16 37)], inv_waiting _, rfl⟩,
    ⟨waitingFor [.pseudo (.txstr [0x41#8])], inv_waiting _, rfl⟩⟩

theorem witness_PushesWhenFullRewriteOneSlot : full4.isFull = true := by decide

theorem witness_AvailReturnsTheCountAtItsRead :
    Idle (ringState .n256 [] 0 255) ∧ occupied (ringState .n256 [] 0 255).slots 0 255 = 255 := ⟨rfl, rfl⟩

theorem witness_PopReturnsTheOldestByte : Idle one16 ∧ one16.isEmpty = false := ⟨rfl, by decide⟩

theorem witness_PopOfEmptyReturnsTheSentinel :
    Idle (ringState .n16 [] 7 7) ∧ (ringState .n16 [] 7 7).isEmpty = true := ⟨rfl, by decide⟩

theorem witness_PushesFromResetFillUpToCapacity :
    FifoReset State.reset ∧ State.reset.slots ≤ (List.replicate 16 0x41#8).length ∧ 14 < min 15 (State.reset.slots - 1) :=
  ⟨⟨rfl, rfl⟩, by decide, by decide⟩

theorem witness_PushedBytesArePoppedInOrder : ∃ (s : State) (bs : List Byte), Idle s ∧
    occupied s.slots s.headIdx s.tailIdx + bs.length = s.slots - 1 :=
  ⟨ringState .n16 [] 14 14, List.replicate 15 0x41#8, rfl, by decide⟩

theorem witness_StepsRefineTheQueue_push : ∃ (s t : State) (w : Word) (b : Byte), Inv s ∧ step s = .next t ∧
    isPowerOn s.nextEvent = false ∧ s.nextEvent = .producer w ∧ decode w = .ok (.push b) :=
  ⟨waitingFor [.producer 0x010041#24], _, 0x010041#24, 0x41#8, inv_waiting _, rfl, rfl, rfl, by decide⟩

theorem witness_StepsRefineTheQueue_pop : ∃ s t : State, Inv s ∧ step s = .next t ∧
    isPowerOn s.nextEvent = false ∧ s.nextEvent = .consumer ∧ s.seq.cop = some .pop ∧ s.seq.cphase = 4 :=
  ⟨pop3.setEnv { pop3.env with inputs := [.consumer] }, _, inv_inputs block_pop3 rfl _, rfl, rfl, rfl, rfl, rfl⟩

theorem witness_StepsRefineTheQueue_other : ∃ s t : State, Inv s ∧ step s = .next t ∧
    isPowerOn s.nextEvent = false ∧ (∀ w, s.nextEvent ≠ .producer w) ∧
    ¬ (s.nextEvent = .consumer ∧ s.seq.cop = some .pop ∧ s.seq.cphase = 4) :=
  ⟨pop2.setEnv { pop2.env with inputs := [.consumer] }, _, inv_inputs block_pop2 rfl _, rfl, rfl,
    fun _ => nofun, fun h => absurd (show (3 : Nat) = 4 from h.2.2) (by decide)⟩

/-- Slot 3 holds an uncommitted byte in one state and another in the other. -/
theorem witness_UncommittedSlotsAreNeverSeen : ∃ s t s' : State, Inv s ∧ AgreeOnOccupied s t ∧ s ≠ t ∧ step s = .next s' :=
  ⟨waitingFor [.busDone], (waitingFor [.busDone]).setRing { (waitingFor [.busDone]).ring with storage := [(3, 0x55#8)] }, _,
    inv_waiting _, ⟨rfl, fun k hk => absurd hk (Nat.not_lt_zero k)⟩,
    fun h => absurd (congrArg (fun x : State => x.ring.storage) h) (show ¬ (([] : Memory) = [(3, 0x55#8)]) by decide), rfl⟩

theorem witness_PopReadsOnlyPushedBytes : ∃ s t : State, Inv s ∧ s.seq.cop = some .pop ∧ s.seq.cphase = 3 ∧
    exec .pop s = .next t := ⟨pop2, _, inv_of_block block_pop2 rfl, rfl, rfl, rfl⟩

/-- The wrap: `tail` 15 of 16, and a PUSH. -/
theorem witness_IndicesStayInRange : ∃ s t : State, s.ring.head < s.slots ∧ s.ring.tail = s.slots - 1 ∧
    step s = .next t ∧ t.ring.tail = 0 :=
  ⟨(ringState .n16 [] 5 15).setEnv { State.reset.env with inputs := [.producer 0x01007E#24] }, _, by decide, rfl, rfl, rfl⟩

theorem witness_EveryStepKeepsTheInvariant : ∃ s t : State, Inv s ∧ step s = .next t ∧ s.seq.cop = some (.bussend 2#8 200#8) :=
  ⟨send2Due, _, inv_inputs block_send2 rfl _, rfl, rfl⟩

theorem witness_BootConfiguresTheSerialLinkOnce :
    Inv State.reset ∧ State.reset.ser.ctl.image = 0#8 ∧ Inv link ∧ link.ser.ctl.image ≠ 0#8 :=
  ⟨inv_of_block block_reset rfl, rfl, inv_of_block block_link rfl, by decide⟩

theorem witness_EachAgentWritesOnlyItsOwnState :
    (∃ e s t, Inv s ∧ fire e s = .next t ∧ e.agent = .producer ∧ t.ring ≠ s.ring) ∧
    (∃ e s t, Inv s ∧ fire e s = .next t ∧ e.agent = .busEngine ∧ t.bus.rdy ≠ s.bus.rdy) ∧
    (∃ e s t, Inv s ∧ fire e s = .next t ∧ e.agent = .txEngine ∧ t.ser.txrdy ≠ s.ser.txrdy) ∧
    (∃ e s t, Inv s ∧ fire e s = .next t ∧ e.agent = .observer ∧ t.ports.oVal ≠ s.ports.oVal) ∧
    (∃ e s t, Inv s ∧ fire e s = .next t ∧ e.agent = .environment ∧ isPowerOn e = false ∧ t.ser.ctl ≠ s.ser.ctl) ∧
    (∃ e s t, Inv s ∧ fire e s = .next t ∧ e.agent = .consumer ∧ t.seq.cphase ≠ s.seq.cphase) :=
  ⟨⟨.producer 0x010041#24, State.reset, _, inv_of_block block_reset rfl, rfl, rfl, by decide⟩,
    ⟨.busDone, send2, _, inv_of_block block_send2 rfl, rfl, rfl, by decide⟩,
    ⟨.txDone, wait1, _, inv_of_block block_wait1 rfl, rfl, rfl, by decide⟩,
    ⟨.obsRead 2#3, State.reset, _, inv_of_block block_reset rfl, rfl, rfl, by decide⟩,
    ⟨.serialConfigured, State.reset, _, inv_of_block block_reset rfl, rfl, rfl, rfl, by decide⟩,
    ⟨.consumer, pop2, _, inv_of_block block_pop2 rfl, rfl, rfl, by decide⟩⟩

theorem witness_EachOperationWritesOnlyItsOwnState :
    (∃ t, exec .avail State.reset = .next t) ∧ (∃ t, exec .pop pop3 = .next t) ∧
    (∃ t, exec .businit up3 = .next t) ∧ (∃ t, exec (.bussend 2#8 200#8) send1 = .next t) ∧
    (∃ t, exec .rdFlash State.reset = .next t) ∧ (∃ t, exec (.wrDrivemode 2#2) State.reset = .next t) ∧
    (∃ t, exec (.pincfg 255#8 .high) State.reset = .next t) ∧ (∃ t, exec (.txbyte 0x41#8) tx1 = .next t) :=
  ⟨⟨_, rfl⟩, ⟨_, rfl⟩, ⟨_, rfl⟩, ⟨_, rfl⟩, ⟨_, rfl⟩, ⟨_, rfl⟩, ⟨_, rfl⟩, ⟨_, rfl⟩⟩

theorem witness_PushCommutesWithEnginesAndObserver : ∃ t u, exec (.push 0x41#8) send2 = .next t ∧
    observe 6#3 send2 = .next u := ⟨_, _, rfl, rfl⟩

theorem witness_BusinitInitialisesTheBus : Idle State.reset := rfl
theorem witness_SecondBusinitChangesNothing : Idle State.reset := rfl
theorem witness_BussendIsOneFramedTransaction : Idle up ∧ up.busReady = true := ⟨rfl, rfl⟩
theorem witness_BussendBeforeBusinitIsRefused : Idle State.reset ∧ State.reset.busReady = false := ⟨rfl, rfl⟩

theorem witness_BussendWaitsUntilReady :
    send2.seq.cop = some (.bussend 2#8 200#8) ∧ send2.seq.cphase = 3 ∧ send2.bus.rdy = false ∧
    send2done.seq.cphase = 3 ∧ send2done.bus.rdy = true ∧ send4.seq.cphase = 5 ∧ send4.bus.rdy = false ∧
    send4done.seq.cphase = 5 ∧ send4done.bus.rdy = true ∧ fire .busDone send2 = .next send2done :=
  ⟨rfl, rfl, rfl, rfl, rfl, rfl, rfl, rfl, rfl, rfl⟩

theorem witness_BusEngineFinishesOneTransfer :
    (send2.bus.busy = true ∧ send2.bus.ctl.en = true ∧ send2.bus.ctl.mstr = true) ∧ State.reset.bus.busy = false :=
  ⟨⟨rfl, rfl, rfl⟩, rfl⟩

theorem witness_ChipSelectIsLowExactlyInTransactions : ∃ s t : State, Inv s ∧ step s = .next t ∧
    t.bus.ctl.en = true ∧ (t.pin Config.pinBusCs).level = .low := ⟨send2Due, _, inv_inputs block_send2 rfl _, rfl, rfl, rfl⟩

theorem witness_BusTraceIsMadeOfGroups : ∃ s t : State, Inv s ∧ step s = .next t ∧ t.bus.trace = [.csFall, .xfer 2#8] :=
  ⟨send2.setEnv { send2.env with inputs := [.busDone] }, _, inv_inputs block_send2 rfl _, rfl, rfl⟩

theorem witness_BussendHangsWithoutBusDone : ∃ (ev : Nat → Event) (run : Nat → State), IsRun ev run ∧
    (∀ k, ev k ≠ .busDone ∧ isPowerOn (ev k) = false) ∧ (run 0).seq.cop = some (.bussend 2#8 200#8) ∧
    (run 0).seq.cphase = 3 ∧ (run 0).bus.rdy = false :=
  ⟨fun _ => .consumer, fun _ => send2, fun _ => rfl, fun _ => ⟨nofun, rfl⟩, rfl, rfl, rfl⟩

/-- One BUS.DONE, or one TX.DONE, and then the consumer for ever. -/
def evAfter (e : Event) : Nat → Event
  | 0 => e
  | _ + 1 => .consumer

theorem evAfter_consumerRuns (e : Event) : ConsumerRuns (evAfter e) := fun k => ⟨k + 1, Nat.le_succ k, rfl⟩

/-- A BUSSEND at s5 whose second BUS.DONE comes, to its end. -/
def sendRun : Nat → State
  | 0 => send4
  | 1 => send4done
  | 2 => send5
  | 3 => send6
  | _ + 4 => sent

theorem sendRun_isRun : IsRun (evAfter .busDone) sendRun
  | 0 => rfl
  | 1 => rfl
  | 2 => rfl
  | 3 => rfl
  | _ + 4 => rfl

theorem sendRun_responds : BusResponds (evAfter .busDone) sendRun
  | 0, _ => ⟨0, le_refl _, rfl⟩
  | 1, h => by cases h
  | 2, h => by cases h
  | 3, h => by cases h
  | _ + 4, h => by cases h

theorem witness_BussendReturnsIfTheBusResponds : ∃ ev run, IsRun ev run ∧ Inv (run 0) ∧ BusResponds ev run ∧
    ConsumerRuns ev ∧ (run 0).seq.cop = some (.bussend 2#8 200#8) ∧ (run 0).busDoneEnabled = true :=
  ⟨_, _, sendRun_isRun, inv_of_block block_send4 rfl, sendRun_responds, evAfter_consumerRuns _, rfl, rfl⟩

theorem witness_ReadsReturnTheirField : Idle State.reset ∧ Inv State.reset := ⟨rfl, inv_of_block block_reset rfl⟩

theorem witness_WritesSetTheirField : Idle State.reset ∧ opField 0x3800FE#24 = 0x38#8 ∧
    (bField 0x3800FE#24).extractLsb' 1 7 ≠ 0#7 := ⟨rfl, by decide, by decide⟩

theorem witness_DrivemodeTakesThreeValuesOnly : Idle State.reset ∧ 2#2 ≠ 3#2 := ⟨rfl, by decide⟩

theorem witness_ReadAfterWriteReturnsTheValue : ∃ (s t u : State) (es : List Event), Idle s ∧
    (∀ e ∈ es, e.agent ≠ .consumer ∧ isPowerOn e = false) ∧ exec (.wrJoyx 0xFF#8) s = .next t ∧ fireAll es t = .next u :=
  ⟨State.reset, _, _, [.producer 0x010041#24, .obsRead 2#3, .serialConfigured], rfl, by decide, rfl, rfl⟩

/-- The three modes. -/
theorem witness_CycleStepsTheMode : ∀ m : Fin 3, ∃ s : State, s = State.resetWith .n16 { PowerOnDraw.zero with drivemode := m } ∧
    Idle s ∧ s.env.pending = [] ∧ s.ssr.drivemode ≠ 3#2 :=
  fun m => ⟨_, rfl, rfl, rfl, by match m with | 0 => decide | 1 => decide | 2 => decide⟩

theorem witness_PincfgSetsDirectionAndLevelTogether : Idle up ∧ (up.bus.ctl.en && isBusPin 3#8) = false ∧
    Idle State.reset ∧ (State.reset.bus.ctl.en && isBusPin 2#8) = false := ⟨rfl, rfl, rfl, rfl⟩

theorem witness_PincfgIsRefusedForOwnedPinsOnly : Idle up ∧ up.bus.ctl.en = true ∧ Idle State.reset ∧
    State.reset.bus.ctl.en = false := ⟨rfl, rfl, rfl, rfl⟩

theorem witness_TxbyteWaitsThenHandsOver : Idle link ∧ link.ser.txrdy = true ∧ link.ser.ctl.txen = true ∧
    Idle tx3 ∧ tx3.ser.txrdy = false := ⟨rfl, rfl, rfl, rfl, rfl⟩

theorem witness_TransmitEngineSendsOneByte : tx3.ser.busy = true ∧ tx3.ser.ctl.txen = true ∧ link.ser.busy = false :=
  ⟨rfl, rfl, rfl⟩

theorem witness_TransmittedBytesKeepTheirOrder_handover : ∃ s t : State, Inv s ∧ step s = .next t ∧
    s.nextEvent = .consumer ∧ s.seq.cop = some (.txbyte 0x41#8) ∧ s.seq.cphase = 2 ∧ isPowerOn s.nextEvent = false :=
  ⟨tx1.setEnv { tx1.env with inputs := [.consumer] }, _, inv_inputs block_tx1 rfl _, rfl, rfl, rfl, rfl, rfl⟩

theorem witness_TransmittedBytesKeepTheirOrder_other : ∃ s t : State, Inv s ∧ step s = .next t ∧
    isPowerOn s.nextEvent = false ∧
    ¬ (s.nextEvent = .consumer ∧ (∃ ch, s.seq.cop = some (.txbyte ch)) ∧ s.seq.cphase = 2) ∧ t.ser.trace = [0x41#8] :=
  ⟨wait1.setEnv { wait1.env with inputs := [.txDone] }, _, inv_inputs block_wait1 rfl _, rfl, rfl,
    fun h => absurd (show Event.txDone = .consumer from h.1) nofun, rfl⟩

theorem witness_TransmittedBytesKeepTheirOrder_power : ∃ s t : State, Inv s ∧ step s = .next t ∧
    isPowerOn s.nextEvent = true ∧ s.handedOver ≠ [] :=
  ⟨wait1.setEnv { wait1.env with inputs := [.powerOn PowerOnDraw.zero] }, _, inv_inputs block_wait1 rfl _, rfl, rfl, by decide⟩

/-- A TXBYTE waiting at t1 whose TX.DONE comes, to its end, and the TX.DONE of its own byte. -/
def txRun : Nat → State
  | 0 => wait1
  | 1 => wait1done
  | 2 => wait2
  | 3 => wait3
  | 4 => handed
  | _ + 5 => handed.txDone

/-- Its schedule. -/
def txEvents : Nat → Event
  | 0 => .txDone
  | 1 => .consumer
  | 2 => .consumer
  | 3 => .consumer
  | 4 => .txDone
  | _ + 5 => .consumer

theorem txRun_isRun : IsRun txEvents txRun
  | 0 => rfl
  | 1 => rfl
  | 2 => rfl
  | 3 => rfl
  | 4 => rfl
  | _ + 5 => rfl

theorem txRun_responds : TxResponds txEvents txRun
  | 0, _ => ⟨0, le_refl _, rfl⟩
  | 1, _ => ⟨4, by decide, rfl⟩
  | 2, _ => ⟨4, by decide, rfl⟩
  | 3, _ => ⟨4, by decide, rfl⟩
  | 4, _ => ⟨4, le_refl _, rfl⟩
  | _ + 5, h => by cases h

theorem witness_TxbyteReturnsIfTheTransmitterResponds : ∃ ev run, IsRun ev run ∧ Inv (run 0) ∧ TxResponds ev run ∧
    ConsumerRuns ev ∧ (run 0).ser.ctl.image = 0b111#8 ∧ (run 0).seq.cop = some (.txbyte 0x42#8) ∧
    (run 0).txDoneEnabled = true :=
  ⟨txEvents, txRun, txRun_isRun, inv_of_block block_wait1 rfl, txRun_responds,
    fun k => ⟨k + 5, Nat.le_add_right k 5, rfl⟩, rfl, rfl, rfl⟩

/-! ### formatting and pseudo-instructions -/

/-- The ends of the range of bases, and the ends of both digit ranges. -/
theorem witness_UnsignedFormatFollowsTheRecursion : 65535 < 65536 ∧ 2 ≤ 2 ∧ 36 ≤ 36 ∧
    (9 : Nat) < 10 ∧ (10 : Nat) ≤ 35 ∧ 35 < 36 ∧ digit 9 = 0x39#8 ∧ digit 10 = 0x61#8 ∧ digit 35 = 0x7A#8 := by decide

theorem witness_NumeralReadsBackAsItsValue : (0 : Nat) < 65536 ∧ fmtUnsigned 0 36 = [0x30#8] ∧ 36 ≤ 36 := by decide

theorem witness_SignedFormatSendsTheSignFirst : (0x8000#16).toInt < 0 ∧ ¬ (0x7FFF#16).toInt < 0 ∧ 2 ≤ 36 := by decide

theorem witness_StringIsSentUpToItsTerminator : 0#8 ∉ [0x41#8, 0xFF#8] ∧ 0#8 ∉ ([] : List Byte) := by decide

theorem witness_IllegalBaseIsRefused : ((1 : Nat) < 2 ∨ 36 < 1) ∧ (37 < 2 ∨ 36 < 37) := by decide

theorem witness_ExpansionIsIssuedInOrder :
    (∃ ops, expand (.txstr [0x41#8, 0x42#8, 0#8]) = .ok ops ∧ Idle State.reset ∧ State.reset.env.pending = []) ∧
    (∃ (s : State) (i : Instr) (rest : List MainOp), Idle s ∧ s.env.pending = .op i :: rest) ∧
    (∃ (s : State) (i : Instr), s.seq.cop = some i) :=
  ⟨⟨_, rfl, rfl, rfl⟩, ⟨link.setEnv { link.env with pending := [.op (.txbyte 0x41#8)] }, .txbyte 0x41#8, [], rfl, rfl⟩,
    wait1, .txbyte 0x42#8, rfl⟩

theorem witness_GetcPopsOnlyWhatIsThere :
    Idle one16 ∧ one16.env.pending = [] ∧ one16.isEmpty = false ∧ Idle State.reset ∧ State.reset.isEmpty = true :=
  ⟨rfl, rfl, by decide, rfl, by decide⟩

theorem witness_ReflectSendsTheFieldJustRead : Idle up ∧ up.env.pending = [] ∧ up.busReady = true := ⟨rfl, rfl, rfl⟩

end Sys2Proof.Tests
end

/-! SUPPORT. Two layers that several statements use: what the main loop has still to issue is made of
consumer operations with a word (30_encoding.md R106), and one event keeps the invariant. -/

namespace Sys2Proof.Machine

/-! ### what the main loop has still to issue (R106) -/

/-- The successor of a mode is a mode (R28, R200). -/
theorem nextMode_ne_three (m : BitVec 2) : nextMode m ≠ 3#2 := by
  revert m; decide

/-- The operation an item stands for is a consumer operation that has a word. -/
theorem MainOp.due_port_wf {m : MainOp} {last : Byte} {i : Instr}
    (hop : ∀ j, m = .op j → j.port = .consumer ∧ j.wf = true) (h : m.due last = some i) :
    i.port = .consumer ∧ i.wf = true := by
  rcases MainOp.due_cases h with hm | ⟨-, rfl⟩ | ⟨c, -, rfl⟩ | ⟨-, rfl⟩
  · exact hop i hm
  · exact ⟨rfl, rfl⟩
  · exact ⟨rfl, rfl⟩
  · exact ⟨rfl, bne_iff_ne.2 (nextMode_ne_three _)⟩

theorem PendingOk.due {s : State} (h : PendingOk s) {m : MainOp} {last : Byte} {i : Instr}
    (hm : m ∈ s.env.pending) (hi : m.due last = some i) : i.port = .consumer ∧ i.wf = true :=
  MainOp.due_port_wf (fun j hj => h j (hj ▸ hm)) hi

theorem sendAll_port_wf {bytes : List Byte} {i : Instr} (h : MainOp.op i ∈ sendAll bytes) :
    i.port = .consumer ∧ i.wf = true := by
  obtain ⟨b, -, hb⟩ := List.mem_map.1 h
  injection hb with hb
  subst hb
  exact ⟨rfl, rfl⟩

/-- The real operations of an expansion are consumer operations that have a word (R106). -/
theorem expand_port_wf {p : Pseudo} {ops : List MainOp} (h : expand p = .ok ops) {i : Instr}
    (hi : MainOp.op i ∈ ops) : i.port = .consumer ∧ i.wf = true := by
  cases p with
  | txstr bytes =>
    simp only [expand] at h
    split at h
    · injection h with h; subst h; exact sendAll_port_wf hi
    · exact nomatch h
  | txuns value base | txsgn value base =>
    simp only [expand] at h
    split at h
    · injection h with h; subst h; exact sendAll_port_wf hi
    · exact nomatch h
  | getc | cycle =>
    injection h with h; subst h
    simp only [List.mem_cons, MainOp.op.injEq, reduceCtorEq, List.not_mem_nil, or_false] at hi
    subst hi; exact ⟨rfl, rfl⟩
  | reflect f =>
    injection h with h; subst h
    simp only [List.mem_cons, MainOp.op.injEq, reduceCtorEq, List.not_mem_nil, or_false] at hi
    subst hi
    cases f <;> exact ⟨rfl, rfl⟩

theorem PendingOk.of_eq {s t : State} (h : PendingOk s) (he : t.env.pending = s.env.pending) : PendingOk t := by
  unfold PendingOk; rw [he]; exact h

theorem PendingOk.of_nil {s : State} (h : s.env.pending = []) : PendingOk s :=
  fun _ hi => nomatch h ▸ hi

/-- Whatever an event leaves pending is made of consumer operations that have a word. -/
theorem PendingOk.envAfter {s : State} (h : PendingOk s) {env : Env} (he : EnvAfter s env) :
    PendingOk (s.setEnv env) := by
  intro i hi
  rcases he.2 _ hi with (hm | ⟨n, j, hn, hj, hij⟩) | ⟨p, ops, hops, hm⟩
  · exact h i hm
  · injection hij with hij
    exact hij ▸ h.due hn hj
  · exact expand_port_wf hops hm

/-! ### the invariant under one event -/

theorem BlockInv.observe {f : BitVec 3} {s t : State} (h : BlockInv s) (ho : observe f s = .next t) :
    BlockInv t := by
  obtain ⟨v, -, rfl⟩ := observe_cases ho
  exact ⟨h.ring.of_eq rfl rfl, h.mode.of_eq rfl, h.seq.of_eq rfl rfl rfl rfl rfl, h.bus.of_eq rfl rfl rfl,
    h.serial.of_eq rfl⟩

/-- Power-on leaves the consumer IDLE, so the new draw of `storage` does not matter. -/
theorem BlockInv.powerOn (s : State) (d : PowerOnDraw) : BlockInv (s.powerOn d) := by
  have h := BlockInv.resetWith s.size d
  exact ⟨h.ring.of_eq rfl rfl, h.mode.of_eq rfl, SeqOk.idle rfl, h.bus.of_eq rfl rfl rfl, h.serial.of_eq rfl⟩

theorem Inv.resetWith (n : RingSize) (d : PowerOnDraw) : Inv (State.resetWith n d) :=
  ⟨.resetWith n d, .of_nil rfl⟩

theorem Inv.envAfter {s : State} (h : Inv s) {env : Env} (he : EnvAfter s env) : Inv (s.setEnv env) :=
  ⟨h.block.setEnv he.1, h.pending.envAfter he⟩

theorem Inv.exec {i : Instr} {s t : State} (h : Inv s) (hx : exec i s = .next t) : Inv t :=
  ⟨h.block.exec hx, h.pending.of_eq (by rw [(exec_env_size hx).1])⟩

/-- Every event of every agent keeps the invariant. -/
theorem Inv.fire {e : Event} {s t : State} (h : Inv s) (hf : fire e s = .next t) : Inv t := by
  rcases fire_cases hf with ⟨env, rfl, henv⟩ | ⟨b, w, -, -, hx⟩ | ⟨i, -, -, hx⟩ | ⟨i, env, -, -, henv, -, hx⟩ |
    ⟨-, rfl⟩ | ⟨-, rfl⟩ | ⟨f, -, ho⟩ | ⟨-, rfl⟩ | ⟨d, -, rfl⟩
  · exact h.envAfter henv
  · exact h.exec hx
  · exact h.exec hx
  · exact (h.envAfter henv).exec hx
  · exact ⟨h.block.busDone, h.pending.of_eq (by simp)⟩
  · exact ⟨h.block.txDone, h.pending.of_eq (by simp)⟩
  · exact ⟨h.block.observe ho, h.pending.of_eq (by obtain ⟨v, -, rfl⟩ := observe_cases ho; rfl)⟩
  · exact ⟨h.block.configureSerial, h.pending.of_eq (by simp)⟩
  · exact ⟨.powerOn s d, .of_nil rfl⟩

/-- Taking the next event off the inputs keeps the invariant. -/
theorem Inv.taken {s : State} (h : Inv s) : Inv s.taken := by
  obtain ⟨inputs, tick, ht⟩ := s.taken_eq
  rw [ht]
  exact ⟨h.block.setEnv rfl, h.pending.of_eq rfl⟩

/-- Settles O20: each event keeps every part of the invariant, and a step is one event. -/
theorem everyStepKeepsTheInvariant : Obligations.EveryStepKeepsTheInvariant := by
  intro s t h hs
  exact h.taken.fire (step_eq s ▸ hs)

/-- Settles O21: after power-on nothing is in flight, occupied or pending. -/
theorem powerOnMeetsTheInvariant : Obligations.PowerOnMeetsTheInvariant := Inv.resetWith

end Sys2Proof.Machine

/-! SUPPORT. The frames: what one micro-step of each consumer operation leaves unchanged, and what an
event of each agent leaves unchanged (10_state.md R48). -/

namespace Sys2Proof.Machine

/-! ### the frame of each consumer operation -/

theorem execAvail_frame {s t : State} (h : execAvail s = .next t) :
    t.ring = s.ring ∧ t.ssr = s.ssr ∧ t.pins = s.pins ∧ t.bus = s.bus ∧ t.ser = s.ser := by
  rcases execAvail_cases h with ⟨-, rfl⟩ | ⟨-, rfl⟩ | ⟨k, -, -, rfl⟩ <;> simp

/-- POP changes `head` alone of the ring buffer, and that at p4 only. -/
theorem execPop_frame {s t : State} (h : execPop s = .next t) :
    t.ring = { s.ring with head := t.ring.head } ∧ t.ssr = s.ssr ∧ t.pins = s.pins ∧ t.bus = s.bus ∧
      t.ser = s.ser := by
  rcases execPop_cases h with ⟨-, rfl⟩ | ⟨-, rfl⟩ | ⟨-, -, rfl⟩ | ⟨-, -, rfl⟩ | ⟨-, rfl⟩ | ⟨-, rfl⟩ |
    ⟨k, -, -, -, -, -, rfl⟩ <;> simp

theorem State.pin_configureOutput_other (s : State) {p q : Byte} (l : Level) (h : q ≠ p) :
    (s.configureOutput p l).pin q = s.pin q := State.pin_setPin_other s _ h

/-- A pin that is not the bus's is none of the three BUSINIT configures (R152). -/
theorem ne_of_isBusPin_false {p : Byte} (h : isBusPin p = false) :
    p ≠ Config.pinBusData ∧ p ≠ Config.pinBusClk ∧ p ≠ Config.pinBusCs := by
  simpa [isBusPin, and_assoc] using h

theorem execBusinit_frame {s t : State} (h : execBusinit s = .next t) :
    t.ring = s.ring ∧ t.ssr = s.ssr ∧ t.ser = s.ser ∧ (∀ p, isBusPin p = false → t.pin p = s.pin p) ∧
      t.bus.dat = s.bus.dat ∧ t.bus.trace = s.bus.trace := by
  rcases execBusinit_cases h with ⟨-, rfl⟩ | ⟨-, rfl⟩ | ⟨-, rfl⟩ | ⟨-, rfl⟩ | ⟨-, rfl⟩ | ⟨k, -, -, -, -, -, rfl⟩
  · exact ⟨rfl, rfl, rfl, fun _ _ => rfl, rfl, rfl⟩
  · exact ⟨rfl, rfl, rfl, fun p hp => s.pin_configureOutput_other _ (ne_of_isBusPin_false hp).2.2, rfl, rfl⟩
  · exact ⟨rfl, rfl, rfl, fun p hp => s.pin_configureOutput_other _ (ne_of_isBusPin_false hp).1, rfl, rfl⟩
  · exact ⟨rfl, rfl, rfl, fun p hp => s.pin_configureOutput_other _ (ne_of_isBusPin_false hp).2.1, rfl, rfl⟩
  · exact ⟨rfl, rfl, rfl, fun _ _ => rfl, rfl, rfl⟩
  · exact ⟨rfl, rfl, rfl, fun _ _ => rfl, rfl, rfl⟩

/-- A pin's output level written: its direction is kept, and so is every other pin. -/
theorem State.driveLevel_pins (s : State) (p : Byte) (l : Level) :
    (∀ q, q ≠ p → (s.driveLevel p l).pin q = s.pin q) ∧ ((s.driveLevel p l).pin p).dir = (s.pin p).dir :=
  ⟨fun q hq => by rw [State.pin_driveLevel, if_neg hq], by rw [State.pin_driveLevel, if_pos rfl]⟩

theorem execBussend_frame {a v : Byte} {s t : State} (h : execBussend a v s = .next t) :
    t.ring = s.ring ∧ t.ssr = s.ssr ∧ t.ser = s.ser ∧ (∀ p, p ≠ Config.pinBusCs → t.pin p = s.pin p) ∧
      (t.pin Config.pinBusCs).dir = (s.pin Config.pinBusCs).dir ∧ t.bus.ctl = s.bus.ctl := by
  obtain ⟨hlow, hlowDir⟩ := State.driveLevel_pins (s.setSeq { s.seq with tAddr := a, tVal := v }) Config.pinBusCs .low
  obtain ⟨hhigh, hhighDir⟩ := s.driveLevel_pins Config.pinBusCs .high
  rcases execBussend_cases h with ⟨-, rfl⟩ | ⟨-, -, rfl⟩ | ⟨-, rfl⟩ | ⟨-, -, rfl⟩ | ⟨-, rfl⟩ | ⟨-, -, rfl⟩ |
    ⟨-, -, rfl⟩ | ⟨-, rfl⟩ | ⟨k, -, -, -, -, -, -, -, rfl⟩
  case inr.inl => exact ⟨rfl, rfl, rfl, hlow, hlowDir, rfl⟩
  case inr.inr.inr.inr.inr.inr.inr.inl => exact ⟨rfl, rfl, rfl, hhigh, hhighDir, rfl⟩
  all_goals exact ⟨rfl, rfl, rfl, fun _ _ => rfl, rfl, rfl⟩

theorem returnField_frame {x : Byte} {s t : State} (h : returnField x s = .next t) :
    t.ring = s.ring ∧ t.ssr = s.ssr ∧ t.pins = s.pins ∧ t.bus = s.bus ∧ t.ser = s.ser := by
  rcases returnField_cases h with ⟨-, rfl⟩ | ⟨-, rfl⟩ <;> simp

theorem writeRecord_frame {r : Ssr} {s t : State} (h : writeRecord r s = .next t) :
    t.ring = s.ring ∧ t.pins = s.pins ∧ t.bus = s.bus ∧ t.ser = s.ser := by
  rcases writeRecord_cases h with ⟨-, rfl⟩ | ⟨-, rfl⟩ <;> simp

theorem execPincfg_frame {p : Byte} {l : Level} {s t : State} (h : execPincfg p l s = .next t) :
    t.ring = s.ring ∧ t.ssr = s.ssr ∧ t.bus = s.bus ∧ t.ser = s.ser ∧ (∀ q, q ≠ p → t.pin q = s.pin q) := by
  rcases execPincfg_cases h with ⟨-, -, rfl⟩ | ⟨-, rfl⟩
  · exact ⟨rfl, rfl, rfl, rfl, fun q hq => s.pin_configureOutput_other l hq⟩
  · exact ⟨rfl, rfl, rfl, rfl, fun _ _ => rfl⟩

theorem execTxbyte_frame {ch : Byte} {s t : State} (h : execTxbyte ch s = .next t) :
    t.ring = s.ring ∧ t.ssr = s.ssr ∧ t.pins = s.pins ∧ t.bus = s.bus ∧ t.ser.ctl = s.ser.ctl ∧
      t.ser.trace = s.ser.trace := by
  rcases execTxbyte_cases h with ⟨-, rfl⟩ | ⟨-, rfl⟩ | ⟨-, rfl⟩ | ⟨k, -, -, -, rfl⟩ <;> simp

/-- Every WR.f that completes is a write of the record (R181). -/
theorem exec_write_frame {v1 : BitVec 1} {v2 : BitVec 2} {v : Byte} {i : Instr} {s t : State}
    (hi : i ∈ [Instr.wrButton1 v1, .wrDrivemode v2, .wrJoyx v, .wrJoyy v, .wrSpeedknob v, .wrLeds v, .wrFlash v])
    (h : exec i s = .next t) : t.ring = s.ring ∧ t.pins = s.pins ∧ t.bus = s.bus ∧ t.ser = s.ser := by
  simp only [List.mem_cons, List.not_mem_nil, or_false] at hi
  obtain rfl | rfl | rfl | rfl | rfl | rfl | rfl := hi
  case inr.inl => exact writeRecord_frame (execWrDrivemode_cases h).2
  all_goals exact writeRecord_frame h

theorem exec_read_frame {i : Instr} {s t : State}
    (hi : i ∈ [Instr.rdButton1, .rdDrivemode, .rdJoyx, .rdJoyy, .rdSpeedknob, .rdLeds, .rdFlash])
    (h : exec i s = .next t) :
    t.ring = s.ring ∧ t.ssr = s.ssr ∧ t.pins = s.pins ∧ t.bus = s.bus ∧ t.ser = s.ser := by
  simp only [List.mem_cons, List.not_mem_nil, or_false] at hi
  obtain rfl | rfl | rfl | rfl | rfl | rfl | rfl := hi
  all_goals exact returnField_frame h

/-- Settles O26: the frame of each operation, put together; POP keeps storage and tail because it
changes `head` alone. -/
theorem eachOperationWritesOnlyItsOwnState : Obligations.EachOperationWritesOnlyItsOwnState := by
  intro s t
  refine ⟨execAvail_frame, fun h => ?_, execBusinit_frame, fun _ _ => execBussend_frame,
    fun _ => exec_read_frame, fun _ _ _ _ => exec_write_frame, fun _ _ => execPincfg_frame,
    fun _ => execTxbyte_frame⟩
  obtain ⟨hring, hrest⟩ := execPop_frame h
  exact ⟨fun x => by rw [hring], by rw [hring], hrest⟩

/-! ### the frame of each agent -/

/-- No operation touches the observer's port. -/
theorem exec_oVal {i : Instr} {s t : State} (h : exec i s = .next t) : t.ports.oVal = s.ports.oVal := by
  cases i with
  | push b => injection h with h; subst h; simp
  | avail => rcases execAvail_cases h with ⟨-, rfl⟩ | ⟨-, rfl⟩ | ⟨k, -, -, rfl⟩ <;> rfl
  | pop =>
    rcases execPop_cases h with ⟨-, rfl⟩ | ⟨-, rfl⟩ | ⟨-, -, rfl⟩ | ⟨-, -, rfl⟩ | ⟨-, rfl⟩ | ⟨-, rfl⟩ |
      ⟨k, -, -, -, -, -, rfl⟩ <;> rfl
  | businit =>
    rcases execBusinit_cases h with ⟨-, rfl⟩ | ⟨-, rfl⟩ | ⟨-, rfl⟩ | ⟨-, rfl⟩ | ⟨-, rfl⟩ |
      ⟨k, -, -, -, -, -, rfl⟩ <;> rfl
  | bussend a v =>
    rcases execBussend_cases h with ⟨-, rfl⟩ | ⟨-, -, rfl⟩ | ⟨-, rfl⟩ | ⟨-, -, rfl⟩ | ⟨-, rfl⟩ |
      ⟨-, -, rfl⟩ | ⟨-, -, rfl⟩ | ⟨-, rfl⟩ | ⟨k, -, -, -, -, -, -, -, rfl⟩ <;> rfl
  | rdButton1 | rdDrivemode | rdJoyx | rdJoyy | rdSpeedknob | rdLeds | rdFlash =>
    rcases returnField_cases h with ⟨-, rfl⟩ | ⟨-, rfl⟩ <;> rfl
  | wrDrivemode v =>
    rcases writeRecord_cases (execWrDrivemode_cases h).2 with ⟨-, rfl⟩ | ⟨-, rfl⟩ <;> rfl
  | wrButton1 v | wrJoyx v | wrJoyy v | wrSpeedknob v | wrLeds v | wrFlash v =>
    obtain ⟨-, rfl⟩ | ⟨-, rfl⟩ := writeRecord_cases (r := _) h <;> rfl
  | pincfg p l => rcases execPincfg_cases h with ⟨-, -, rfl⟩ | ⟨-, rfl⟩ <;> rfl
  | txbyte ch =>
    rcases execTxbyte_cases h with ⟨-, rfl⟩ | ⟨-, rfl⟩ | ⟨-, rfl⟩ | ⟨k, -, -, -, rfl⟩ <;> rfl

/-- What every event of the consumer leaves unchanged: the bytes of `storage`, `tail`, UCTL, `tx_trace`,
the observer's port and N (R48). -/
structure ConsumerFrame (s t : State) : Prop where
  storage : t.ring.storage = s.ring.storage
  tail    : t.ring.tail = s.ring.tail
  uctl    : t.ser.ctl = s.ser.ctl
  txTrace : t.ser.trace = s.ser.trace
  oVal    : t.ports.oVal = s.ports.oVal
  size    : t.size = s.size

/-- The world around the block is no part of the frame. -/
theorem ConsumerFrame.setEnv (s : State) (e : Env) : ConsumerFrame s (s.setEnv e) := ⟨rfl, rfl, rfl, rfl, rfl, rfl⟩

theorem ConsumerFrame.trans {s t u : State} (h : ConsumerFrame s t) (h' : ConsumerFrame t u) :
    ConsumerFrame s u :=
  ⟨h'.storage.trans h.storage, h'.tail.trans h.tail, h'.uctl.trans h.uctl, h'.txTrace.trans h.txTrace,
    h'.oVal.trans h.oVal, h'.size.trans h.size⟩

/-- One micro-step of a consumer operation: only POP touches the ring buffer (`head`), only TXBYTE the
serial link (TXDAT, TXRDY, `tx_busy`). -/
theorem exec_consumerFrame {i : Instr} {s t : State} (hp : i.port = .consumer) (h : exec i s = .next t) :
    ConsumerFrame s t := by
  obtain ⟨hstorage, htail⟩ : t.ring.storage = s.ring.storage ∧ t.ring.tail = s.ring.tail := by
    rcases exec_ring_cases h with ⟨b, rfl⟩ | ⟨-, -, rfl⟩ | he
    · exact nomatch hp
    · exact ⟨rfl, rfl⟩
    · rw [he]; exact ⟨rfl, rfl⟩
  obtain ⟨huctl, htrace⟩ : t.ser.ctl = s.ser.ctl ∧ t.ser.trace = s.ser.trace := by
    rcases exec_ser_cases h with ⟨ch, -, -, rfl⟩ | he
    · exact ⟨rfl, rfl⟩
    · rw [he]; exact ⟨rfl, rfl⟩
  exact ⟨hstorage, htail, huctl, htrace, exec_oVal h, (exec_env_size h).2⟩

/-- The operation in flight is never PUSH, which is one step of the producer. -/
theorem SeqOk.port_inflight {s : State} (h : SeqOk s) {i : Instr} (hc : s.seq.cop = some i) :
    i.port = .consumer := by
  unfold SeqOk at h
  rw [hc] at h
  cases i with
  | push b => exact h.elim
  | _ => rfl

/-- An event of the consumer performs a micro-step of a consumer operation, or none. -/
theorem fire_consumerFrame {e : Event} {s t : State} (hi : Inv s) (hf : fire e s = .next t)
    (ha : e.agent = .consumer) : ConsumerFrame s t := by
  rcases fire_cases hf with ⟨env, rfl, -⟩ | ⟨b, w, rfl, -, -⟩ | ⟨i, -, hc, hx⟩ | ⟨i, env, -, -, -, hw, hx⟩ |
    ⟨rfl, -⟩ | ⟨rfl, -⟩ | ⟨f, rfl, -⟩ | ⟨rfl, -⟩ | ⟨d, rfl, -⟩
  case inl => exact .setEnv s env
  case inr.inr.inl => exact exec_consumerFrame (hi.block.seq.port_inflight hc) hx
  case inr.inr.inr.inl =>
    have hp : i.port = .consumer := by
      rcases hw with ⟨w, -, -, hp⟩ | ⟨-, m, rest, hm, hd⟩
      · exact hp
      · exact (hi.pending.due (hm ▸ List.mem_cons_self ..) hd).1
    exact (ConsumerFrame.setEnv s env).trans (exec_consumerFrame hp hx)
  all_goals exact nomatch ha

/-- The bus engine's step changes RDY, `bus_busy` and `bus_trace` alone (R158). -/
theorem State.busDone_frame (s : State) :
    s.busDone = s.setBus s.busDone.bus ∧ s.busDone.bus.ctl = s.bus.ctl ∧ s.busDone.bus.dat = s.bus.dat := by
  unfold State.busDone
  split <;> exact ⟨rfl, rfl, rfl⟩

/-- The transmit engine's step changes TXRDY, `tx_busy` and `tx_trace` alone (R223). -/
theorem State.txDone_frame (s : State) :
    s.txDone = s.setSer s.txDone.ser ∧ s.txDone.ser.ctl = s.ser.ctl ∧ s.txDone.ser.txdat = s.ser.txdat := by
  unfold State.txDone
  split <;> exact ⟨rfl, rfl, rfl⟩

/-- The boot collaborator's step changes UCTL, TXRDY and `tx_busy` alone (R284). -/
theorem State.configureSerial_frame (s : State) :
    s.configureSerial = s.setSer s.configureSerial.ser ∧ s.configureSerial.ser.trace = s.ser.trace ∧
      s.configureSerial.ser.txdat = s.ser.txdat := by
  unfold State.configureSerial
  split <;> exact ⟨rfl, rfl, rfl⟩

/-- The producer's one step is a PUSH. -/
theorem fire_producer_frame {w : Word} {s t : State} (h : fire (.producer w) s = .next t) :
    t = s.setRing t.ring ∧ t.ring.head = s.ring.head := by
  obtain ⟨b, -, hb⟩ := onProducerPort_cases h
  injection hb with hb
  subst hb
  exact ⟨s.pushed_eq b, s.pushed_head b⟩

/-- The observer's step changes `o_val` alone (R196). -/
theorem observe_frame {f : BitVec 3} {s t : State} (h : observe f s = .next t) :
    t = s.setPorts { s.ports with oVal := t.ports.oVal } := by
  obtain ⟨v, -, rfl⟩ := observe_cases h
  rfl

/-- Settles O25: an event is a step of one agent, and each agent's frame is a lemma of its own. -/
theorem eachAgentWritesOnlyItsOwnState : Obligations.EachAgentWritesOnlyItsOwnState := by
  intro e s t hi hf
  refine ⟨fun ha => ?_, fun ha => ?_, fun ha => ?_, fun ha => ?_, fun ha hp => ?_, fun ha => ?_⟩
  · cases e with
    | producer w => exact fire_producer_frame hf
    | _ => exact nomatch ha
  · cases e with
    | busDone => injection hf with hf; exact hf ▸ s.busDone_frame
    | _ => exact nomatch ha
  · cases e with
    | txDone => injection hf with hf; exact hf ▸ s.txDone_frame
    | _ => exact nomatch ha
  · cases e with
    | obsRead f => exact observe_frame hf
    | _ => exact nomatch ha
  · cases e with
    | serialConfigured => injection hf with hf; exact hf ▸ s.configureSerial_frame
    | powerOn d => exact nomatch hp
    | _ => exact nomatch ha
  · have h := fire_consumerFrame hi hf ha
    exact ⟨fun x => by rw [h.storage], h.tail, h.uctl, h.txTrace, h.oVal, h.size⟩

end Sys2Proof.Machine

/-! SUPPORT. The range of the two index registers under every step, whatever else holds (10_state.md R24). -/

namespace Sys2Proof.Machine

/-- Both indices are in `[0, N)` (R24). -/
def IndicesInRange (s : State) : Prop := s.ring.head < s.slots ∧ s.ring.tail < s.slots

theorem IndicesInRange.of_eq {s t : State} (h : IndicesInRange s) (hn : t.size = s.size) (hr : t.ring = s.ring) :
    IndicesInRange t := by
  unfold IndicesInRange
  rwa [State.slots_of_size hn, hr]

theorem IndicesInRange.setEnv {s : State} (h : IndicesInRange s) (e : Env) : IndicesInRange (s.setEnv e) := h

theorem IndicesInRange.pushed {s : State} (h : IndicesInRange s) (b : Byte) : IndicesInRange (s.pushed b) := by
  obtain ⟨hh, ht⟩ := h
  refine ⟨?_, ?_⟩
  · rw [s.pushed_head b, State.slots_of_size (Pushed.one s b).size]
    exact hh
  · rw [State.slots_of_size (Pushed.one s b).size, State.pushed, State.commit_ring]
    split
    · exact ht
    · exact nextIdx_lt s.two_le_slots _

/-- An operation moves an index by `(i + 1) mod N` or not at all (R69). -/
theorem IndicesInRange.exec {i : Instr} {s t : State} (h : IndicesInRange s) (hx : exec i s = .next t) :
    IndicesInRange t := by
  rcases exec_ring_cases hx with ⟨b, rfl⟩ | ⟨-, -, rfl⟩ | hr
  · injection hx with hx
    exact hx ▸ h.pushed b
  · exact ⟨nextIdx_lt s.two_le_slots _, h.2⟩
  · exact h.of_eq (exec_env_size hx).2 hr

theorem IndicesInRange.resetWith (n : RingSize) (d : PowerOnDraw) : IndicesInRange (State.resetWith n d) :=
  have hn : 0 < n.slots := Nat.lt_of_lt_of_le Nat.two_pos n.two_le_slots
  ⟨hn, hn⟩

theorem IndicesInRange.fire {e : Event} {s t : State} (h : IndicesInRange s) (hf : fire e s = .next t) :
    IndicesInRange t := by
  rcases fire_cases hf with ⟨env, rfl, -⟩ | ⟨b, w, -, -, hx⟩ | ⟨i, -, -, hx⟩ | ⟨i, env, -, -, -, -, hx⟩ |
    ⟨-, rfl⟩ | ⟨-, rfl⟩ | ⟨f, -, ho⟩ | ⟨-, rfl⟩ | ⟨d, -, rfl⟩
  · exact h.setEnv env
  · exact h.exec hx
  · exact h.exec hx
  · exact (h.setEnv env).exec hx
  · exact h.of_eq s.busDone_size s.busDone_ring
  · exact h.of_eq s.txDone_size s.txDone_ring
  · obtain ⟨v, -, rfl⟩ := observe_cases ho
    exact h
  · exact h.of_eq s.configureSerial_size s.configureSerial_ring
  · exact .resetWith s.size d

theorem IndicesInRange.step {s t : State} (h : IndicesInRange s) (hs : step s = .next t) : IndicesInRange t := by
  obtain ⟨inputs, tick, ht⟩ := s.taken_eq
  rw [step_eq, ht] at hs
  exact (h.setEnv _).fire hs

/-- A register in range is its own index. -/
theorem IndicesInRange.idx_eq {s : State} (h : IndicesInRange s) :
    s.headIdx = s.ring.head ∧ s.tailIdx = s.ring.tail :=
  ⟨Nat.mod_eq_of_lt h.1, Nat.mod_eq_of_lt h.2⟩

/-- The occupied count is the remainder R24 names, which is not negative. -/
theorem occupied_cast {n : Nat} (hn : n ≠ 0) (h t : Nat) : (occupied n h t : Int) = ((t : Int) - h) % n :=
  Int.toNat_of_nonneg (Int.emod_nonneg _ (Int.natCast_ne_zero.2 hn))

/-- Settles O19: the range holds after reset and is kept by every step; in range an index register is its
own index, so emptiness and the count read off the registers. -/
theorem indicesStayInRange : Obligations.IndicesStayInRange := by
  intro t ht
  have h : IndicesInRange t := by
    rcases ht with ⟨n, d, rfl⟩ | ⟨s, hh, htl, hs⟩
    · exact .resetWith n d
    · exact IndicesInRange.step ⟨hh, htl⟩ hs
  obtain ⟨hhead, htail⟩ := h.idx_eq
  refine ⟨h.1, h.2, ?_, ?_⟩
  · rw [State.isEmpty, hhead, htail, beq_iff_eq]
  · rw [hhead, htail]
    exact occupied_cast (by have := t.two_le_slots; omega) _ _

end Sys2Proof.Machine

/-! SUPPORT. The dispatch of a word, what reset and boot leave, and the register images. -/

namespace Sys2Proof.Machine

/-! ### one step (00_scope.md R14, 30_encoding.md R91, R101) -/

/-- A PUSH word on the producer port is performed whatever the consumer does. -/
theorem fire_producer_push {w : Word} {b : Byte} (hw : decode w = .ok (.push b)) (s : State) :
    fire (.producer w) s = exec (.push b) s := by
  simp only [fire, onProducerPort, hw, Instr.port, if_true]

/-- A consumer word waits on `c_cmd`, with the main loop made free to issue it (log 2). -/
theorem State.withWord_consumer {w : Word} {i : Instr} (hw : decode w = .ok i) (hp : i.port = .consumer)
    (s : State) : s.withWord w = (s.setSeq { s.seq with cop := none }).setEnv
      { s.env with pending := [], inputs := .command w :: s.env.inputs } := by
  simp only [State.withWord, presentWord, hw, hp]

/-- A PUSH word waits on `p_cmd`, and nothing else is changed (log 2). -/
theorem State.withWord_push {w : Word} {b : Byte} (hw : decode w = .ok (.push b)) (s : State) :
    s.withWord w = s.setEnv { s.env with inputs := .producer w :: s.env.inputs } := by
  simp only [State.withWord, presentWord, hw, Instr.port]

/-- A step on a word that `withWord` placed for the consumer: nothing is pending, so nothing is settled. -/
theorem step_withWord_consumer {w : Word} {i : Instr} (hw : decode w = .ok i) (hp : i.port = .consumer)
    (s : State) : step (s.withWord w) =
      exec i ((s.setSeq { s.seq with cop := none }).setEnv { s.env with pending := [] }) := by
  rw [State.withWord_consumer hw hp, step_of_input (rest := s.env.inputs) rfl, fire_command_idle hw hp rfl,
    State.settled_of_nil rfl]
  rfl

theorem step_withWord_push {w : Word} {b : Byte} (hw : decode w = .ok (.push b)) (s : State) :
    step (s.withWord w) = exec (.push b) s := by
  rw [State.withWord_push hw, step_of_input (rest := s.env.inputs) rfl, fire_producer_push hw]
  rfl

/-- Settles O6: the oldest input is the event, and each port's rule says what it runs. -/
theorem stepRunsTheDecodedInstruction : Obligations.StepRunsTheDecodedInstruction := by
  refine ⟨fun s w i rest hin hw hp hc => ?_, fun s w b rest hin hw => ?_, fun s i rest hin hc => ?_,
    fun s nbits w i hw hp => step_withWord_consumer hw hp s, fun s nbits w b hw => step_withWord_push hw s⟩
  · rw [step_of_input hin]
    exact fire_command_idle hw hp hc
  · rw [step_of_input hin]
    exact fire_producer_push hw _
  · rw [step_of_input hin]
    exact fire_consumer_busy hc

/-! ### register images (10_state.md R34, R36, R37, R40, R41) -/

/-- Three flags in bits 2, 1 and 0 of a byte. -/
theorem threeFlags_bits (x y z : Bool) :
    (0#5 ++ bit x ++ bit y ++ bit z : Byte).getLsbD 0 = z ∧ (0#5 ++ bit x ++ bit y ++ bit z : Byte).getLsbD 1 = y ∧
    (0#5 ++ bit x ++ bit y ++ bit z : Byte).getLsbD 2 = x ∧
    (0#5 ++ bit x ++ bit y ++ bit z : Byte).extractLsb' 3 5 = 0#5 := by
  revert x y z; decide

/-- One flag in bit 0 of a byte. -/
theorem oneFlag_bits (x : Bool) :
    (0#7 ++ bit x : Byte).getLsbD 0 = x ∧ (0#7 ++ bit x : Byte).extractLsb' 1 7 = 0#7 := by
  revert x; decide

/-- Byte `f` of the record's image is field `f`, and there is no byte 7 as there is no field 7. -/
theorem Ssr.image_getElem? (r : Ssr) (f : BitVec 3) : r.image[f.toNat]? = r.field f := by
  unfold Ssr.field
  have hf := f.isLt
  generalize f.toNat = k at hf ⊢
  interval_cases k <;> rfl

theorem BusCtl.image_off : BusCtl.image { en := false, mstr := false, x2 := false } = 0#8 := by decide

theorem UCtl.image_on : UCtl.image { rxen := true, txen := true, rxie := true } = 0b111#8 := by decide

theorem Bus.statImage_of_not_rdy {b : Bus} (h : b.rdy = false) : b.statImage = 0#8 := by
  rw [Bus.statImage, h]; decide

/-- UCTL reads 0 exactly when the link is not configured at all. -/
theorem UCtl.image_eq_zero_iff (c : UCtl) :
    c.image = 0#8 ↔ c = { rxen := false, txen := false, rxie := false } := by
  obtain ⟨rxen, txen, rxie⟩ := c
  revert rxen txen rxie; decide

/-- Settles O59: every image is a row of flags or the list of the fields. -/
theorem registerImagesHoldTheirFields : Obligations.RegisterImagesHoldTheirFields :=
  ⟨fun c => threeFlags_bits c.x2 c.mstr c.en, fun b => oneFlag_bits b.rdy,
    fun u => threeFlags_bits u.rxie u.txen u.rxen, fun u => oneFlag_bits u.txrdy, Ssr.image_getElem?⟩

/-! ### reset (10_state.md R49) -/

/-- Every pin is an input after reset, whatever its level. -/
theorem resetWith_pin_dir (n : RingSize) (d : PowerOnDraw) (p : Byte) :
    ((State.resetWith n d).pin p).dir = .input := by
  simp [State.pin, State.resetWith]

/-- Settles O22: a draw enters only where R49 states no value; that its mode is legal is the invariant. -/
theorem resetLeavesTheStatedValues : Obligations.ResetLeavesTheStatedValues := by
  refine ⟨fun n d => ⟨⟨rfl, rfl⟩, fun _ => rfl, (BlockInv.resetWith n d).mode, rfl, resetWith_pin_dir n d,
    BusCtl.image_off, Bus.statImage_of_not_rdy rfl, rfl, (UCtl.image_eq_zero_iff _).2 rfl, rfl, ⟨rfl, rfl⟩, rfl⟩, rfl⟩

/-! ### boot (10_state.md R40, 70_reset_and_hazards.md R284) -/

theorem State.configureSerial_off {s : State} (h : s.ser.ctl.image = 0#8) : s.configureSerial =
    s.setSer { s.ser with ctl := { rxen := true, txen := true, rxie := true }, txrdy := true, busy := false } :=
  if_pos ((UCtl.image_eq_zero_iff _).1 h)

theorem State.configureSerial_on {s : State} (h : s.ser.ctl.image ≠ 0#8) : s.configureSerial = s :=
  if_neg fun hc => h ((UCtl.image_eq_zero_iff _).2 hc)

/-- Settles O24: UCTL alone decides what the boot collaborator's step does. -/
theorem bootConfiguresTheSerialLinkOnce : Obligations.BootConfiguresTheSerialLinkOnce := by
  intro s _
  refine ⟨s.configureSerial, rfl, fun h => ?_, State.configureSerial_on⟩
  rw [State.configureSerial_off h]
  exact ⟨⟨UCtl.image_on, rfl, rfl⟩, rfl, rfl, rfl⟩

end Sys2Proof.Machine

/-! SUPPORT. The decoder and the encoder as inverses: what each operand format accepts, the words of the
instructions, and the rows of the opcode map (30_encoding.md R92 to R99). -/

namespace Sys2Proof

/-! ### the operand formats (R93, R94) -/

/-- An operand byte with all bits above bit 0 zero is its own bit 0. -/
theorem byte_eq_oneBit {b : Byte} (h : b.extractLsb' 1 7 = 0#7) : b = (b.extractLsb' 0 1).setWidth 8 := by
  revert b; decide

/-- An operand byte with all bits above bit 1 zero is its own two low bits. -/
theorem byte_eq_twoBits {b : Byte} (h : b.extractLsb' 2 6 = 0#6) : b = (b.extractLsb' 0 2).setWidth 8 := by
  revert b; decide

theorem formatZ_eq_ok {w : Word} {i j : Instr} :
    formatZ w j = .ok i ↔ i = j ∧ aField w = 0#8 ∧ bField w = 0#8 := by
  unfold formatZ
  split <;> simp_all [eq_comm (b := i)]

theorem formatB_eq_ok {w : Word} {k : Byte → Instr} {i : Instr} :
    formatB w k = .ok i ↔ i = k (bField w) ∧ aField w = 0#8 := by
  unfold formatB
  split <;> simp_all [eq_comm (b := i)]

theorem formatB1_eq_ok {w : Word} {k : BitVec 1 → Instr} {i : Instr} :
    formatB1 w k = .ok i ↔
      i = k ((bField w).extractLsb' 0 1) ∧ aField w = 0#8 ∧ (bField w).extractLsb' 1 7 = 0#7 := by
  unfold formatB1
  split <;> simp_all [eq_comm (b := i)]

theorem formatB2_eq_ok {w : Word} {k : BitVec 2 → Instr} {i : Instr} :
    formatB2 w k = .ok i ↔ i = k ((bField w).extractLsb' 0 2) ∧ aField w = 0#8 ∧
      (bField w).extractLsb' 2 6 = 0#6 ∧ (bField w).extractLsb' 0 2 ≠ 3#2 := by
  unfold formatB2
  split_ifs <;> simp_all [eq_comm (b := i)]

theorem formatAB_eq_ok {w : Word} {k : Byte → Byte → Instr} {i : Instr} :
    formatAB w k = .ok i ↔ i = k (aField w) (bField w) := by
  simp [formatAB, eq_comm (b := i)]

theorem formatAB1_eq_ok {w : Word} {k : Byte → Level → Instr} {i : Instr} :
    formatAB1 w k = .ok i ↔
      i = k (aField w) (levelOfBit ((bField w).extractLsb' 0 1)) ∧ (bField w).extractLsb' 1 7 = 0#7 := by
  unfold formatAB1
  split <;> simp_all [eq_comm (b := i)]

/-! ### decode and encode -/

@[simp] theorem opField_encode (i : Instr) : opField (encode i) = i.opcode := opField_mkWord ..
@[simp] theorem aField_encode (i : Instr) : aField (encode i) = i.operandA := aField_mkWord ..
@[simp] theorem bField_encode (i : Instr) : bField (encode i) = i.operandB := bField_mkWord ..

/-- A word with an instruction's three fields is its word. -/
theorem encode_eq_of_fields {w : Word} {i : Instr} (hop : (opField w).toNat = i.opcode.toNat)
    (ha : aField w = i.operandA) (hb : bField w = i.operandB) : encode i = w :=
  word_ext (by simp [BitVec.eq_of_toNat_eq hop]) (by simp [ha]) (by simp [hb])

/-- The word of a well-formed instruction is accepted by its format. -/
theorem decode_encode {i : Instr} (h : i.wf = true) : decode (encode i) = .ok i := by
  unfold decode
  rw [opField_encode]
  cases i with
  | avail | pop | businit | rdButton1 | rdDrivemode | rdJoyx | rdJoyy | rdSpeedknob | rdLeds | rdFlash =>
    exact formatZ_eq_ok.2 ⟨rfl, aField_encode _, bField_encode _⟩
  | push _ | wrJoyx _ | wrJoyy _ | wrSpeedknob _ | wrLeds _ | wrFlash _ | txbyte _ =>
    exact formatB_eq_ok.2 ⟨by rw [bField_encode]; rfl, aField_encode _⟩
  | wrButton1 v =>
    obtain ⟨hhigh, hlow⟩ := oneBit_operand v
    refine formatB1_eq_ok.2 ⟨?_, aField_encode _, ?_⟩ <;> simp [Instr.operandB, hhigh, hlow]
  | wrDrivemode v =>
    obtain ⟨hhigh, hlow⟩ := twoBit_operand v
    have hv : v ≠ 3#2 := by simpa [Instr.wf] using h
    refine formatB2_eq_ok.2 ⟨?_, aField_encode _, ?_, ?_⟩ <;> simp [Instr.operandB, hhigh, hlow, hv]
  | bussend a v => exact formatAB_eq_ok.2 (by rw [aField_encode, bField_encode]; rfl)
  | pincfg pin level =>
    obtain ⟨hhigh, hlow⟩ := oneBit_operand (bitOfLevel level)
    refine formatAB1_eq_ok.2 ⟨?_, ?_⟩ <;> simp [Instr.operandA, Instr.operandB, hhigh, hlow]

/-- A format reads every bit below the opcode: what it accepts is the word of what it answers. -/
theorem encode_of_decode {w : Word} {i : Instr} (h : decode w = .ok i) : encode i = w ∧ i.wf = true := by
  unfold decode at h
  split at h
  case h_2 hop | h_3 hop | h_4 hop | h_6 hop | h_7 hop | h_8 hop | h_9 hop | h_10 hop | h_11 hop | h_12 hop =>
    obtain ⟨rfl, ha, hb⟩ := formatZ_eq_ok.1 h
    exact ⟨encode_eq_of_fields hop ha hb, rfl⟩
  case h_1 hop | h_15 hop | h_16 hop | h_17 hop | h_18 hop | h_19 hop | h_21 hop =>
    obtain ⟨rfl, ha⟩ := formatB_eq_ok.1 h
    exact ⟨encode_eq_of_fields hop ha rfl, rfl⟩
  case h_5 hop =>
    obtain rfl := formatAB_eq_ok.1 h
    exact ⟨encode_eq_of_fields hop rfl rfl, rfl⟩
  case h_13 hop =>
    obtain ⟨rfl, ha, hb⟩ := formatB1_eq_ok.1 h
    exact ⟨encode_eq_of_fields hop ha (byte_eq_oneBit hb), rfl⟩
  case h_14 hop =>
    obtain ⟨rfl, ha, hb, hv⟩ := formatB2_eq_ok.1 h
    exact ⟨encode_eq_of_fields hop ha (byte_eq_twoBits hb), by simpa [Instr.wf] using hv⟩
  case h_20 hop =>
    obtain ⟨rfl, hb⟩ := formatAB1_eq_ok.1 h
    exact ⟨encode_eq_of_fields hop rfl (by simpa [Instr.operandB] using byte_eq_oneBit hb), rfl⟩
  case h_22 => exact nomatch h

/-- Settles O2: the encoder writes the fields that the row's format reads back. -/
theorem encodedInstructionDecodesToItself : Obligations.EncodedInstructionDecodesToItself :=
  fun _ => decode_encode

/-- Settles O3: every format reads all the bits below the opcode. -/
theorem decodedWordIsItsInstructionsWord : Obligations.DecodedWordIsItsInstructionsWord :=
  fun _ _ => encode_of_decode

/-! ### the rows of the opcode map (R96, R99) -/

/-- A word that two rows select makes their match values agree on the bits both masks keep. -/
theorem rows_agree {w r q m n : Word} (hr : w &&& m = r) (hq : w &&& n = q) : r &&& n = q &&& m := by
  rw [← hr, ← hq, BitVec.and_assoc, BitVec.and_assoc, BitVec.and_comm m]

/-- Settles O4: every two rows differ in a bit that both masks keep. -/
theorem opcodeRowsDoNotOverlap : Obligations.OpcodeRowsDoNotOverlap := by
  have hdiffer : opcodeRows.Pairwise (fun r q => r.1 &&& q.2 ≠ q.1 &&& r.2) := by decide
  exact hdiffer.imp fun hne w ⟨hr, hq⟩ => hne (rows_agree hr hq)

/-- Every word of an instruction, `WR.drivemode 3` too, selects that instruction's row. -/
theorem encode_selects_row (i : Instr) : Laws.RowSelects.Statement i := by
  cases i with
  | push b => exact Laws.RowSelects.push b
  | avail => exact Laws.RowSelects.avail
  | pop => exact Laws.RowSelects.pop
  | businit => exact Laws.RowSelects.businit
  | bussend a v => exact Laws.RowSelects.bussend a v
  | rdButton1 => exact Laws.RowSelects.rdButton1
  | rdDrivemode => exact Laws.RowSelects.rdDrivemode
  | rdJoyx => exact Laws.RowSelects.rdJoyx
  | rdJoyy => exact Laws.RowSelects.rdJoyy
  | rdSpeedknob => exact Laws.RowSelects.rdSpeedknob
  | rdLeds => exact Laws.RowSelects.rdLeds
  | rdFlash => exact Laws.RowSelects.rdFlash
  | wrButton1 v => exact Laws.RowSelects.wrButton1 v
  | wrDrivemode v => exact Laws.RowSelects.wrDrivemode v
  | wrJoyx v => exact Laws.RowSelects.wrJoyx v
  | wrJoyy v => exact Laws.RowSelects.wrJoyy v
  | wrSpeedknob v => exact Laws.RowSelects.wrSpeedknob v
  | wrLeds v => exact Laws.RowSelects.wrLeds v
  | wrFlash v => exact Laws.RowSelects.wrFlash v
  | pincfg pin level => exact Laws.RowSelects.pincfg pin level
  | txbyte ch => exact Laws.RowSelects.txbyte ch

/-- A word that matches under a mask that keeps the opcode, field by field. -/
theorem fields_of_row {w : Word} {op ma mb : Byte} (h : w &&& mkWord 0xFF#8 ma mb = mkWord op 0#8 0#8) :
    opField w = op ∧ aField w &&& ma = 0#8 ∧ bField w &&& mb = 0#8 := by
  rw [← mkWord_fields w, Laws.RowSelects.mkWord_and, Laws.RowSelects.and_ones] at h
  exact ⟨by simpa using congrArg opField h, by simpa using congrArg aField h, by simpa using congrArg bField h⟩

/-- The mask of a format B1 or AB1 row keeps bits 7:1 of the operand byte. -/
theorem highBits_of_mask_oneBit {b : Byte} (h : b &&& 0xFE#8 = 0#8) : b.extractLsb' 1 7 = 0#7 := by
  revert b; decide

/-- The mask of the format B2 row keeps bits 7:2 of the operand byte. -/
theorem highBits_of_mask_twoBits {b : Byte} (h : b &&& 0xFC#8 = 0#8) : b.extractLsb' 2 6 = 0#6 := by
  revert b; decide

/-- A word that selects a format Z row is made of its opcode alone. -/
theorem word_of_rowZ {w : Word} (op : Byte) (h : w &&& mkWord 0xFF#8 0xFF#8 0xFF#8 = mkWord op 0#8 0#8) :
    mkWord op 0#8 0#8 = w := by
  rw [← h]; exact BitVec.and_allOnes

theorem word_of_rowB {w : Word} (op : Byte) (h : w &&& mkWord 0xFF#8 0xFF#8 0x00#8 = mkWord op 0#8 0#8) :
    mkWord op 0#8 (bField w) = w := by
  obtain ⟨rfl, ha, -⟩ := fields_of_row h
  rw [Laws.RowSelects.and_ones] at ha
  rw [← ha, mkWord_fields]

theorem word_of_rowB1 {w : Word} (op : Byte) (h : w &&& mkWord 0xFF#8 0xFF#8 0xFE#8 = mkWord op 0#8 0#8) :
    mkWord op 0#8 (((bField w).extractLsb' 0 1).setWidth 8) = w := by
  obtain ⟨rfl, ha, hb⟩ := fields_of_row h
  rw [Laws.RowSelects.and_ones] at ha
  rw [← byte_eq_oneBit (highBits_of_mask_oneBit hb), ← ha, mkWord_fields]

theorem word_of_rowB2 {w : Word} (op : Byte) (h : w &&& mkWord 0xFF#8 0xFF#8 0xFC#8 = mkWord op 0#8 0#8) :
    mkWord op 0#8 (((bField w).extractLsb' 0 2).setWidth 8) = w := by
  obtain ⟨rfl, ha, hb⟩ := fields_of_row h
  rw [Laws.RowSelects.and_ones] at ha
  rw [← byte_eq_twoBits (highBits_of_mask_twoBits hb), ← ha, mkWord_fields]

theorem word_of_rowAB {w : Word} (op : Byte) (h : w &&& mkWord 0xFF#8 0x00#8 0x00#8 = mkWord op 0#8 0#8) :
    mkWord op (aField w) (bField w) = w := by
  obtain ⟨rfl, -, -⟩ := fields_of_row h
  exact mkWord_fields w

theorem word_of_rowAB1 {w : Word} (op : Byte) (h : w &&& mkWord 0xFF#8 0x00#8 0xFE#8 = mkWord op 0#8 0#8) :
    mkWord op (aField w) ((bitOfLevel (levelOfBit ((bField w).extractLsb' 0 1))).setWidth 8) = w := by
  obtain ⟨rfl, -, hb⟩ := fields_of_row h
  rw [bitOfLevel_levelOfBit, ← byte_eq_oneBit (highBits_of_mask_oneBit hb), mkWord_fields]

/-- A word that selects a row is the word of an instruction of that row. -/
theorem exists_encode_of_row {w : Word} {r : Word × Word} (hr : r ∈ opcodeRows) (h : w &&& r.2 = r.1) :
    ∃ i, encode i = w := by
  simp only [opcodeRows, List.cons_append, List.nil_append, List.mem_cons, List.not_mem_nil, or_false] at hr
  rcases hr with rfl | rfl | rfl | rfl | rfl | rfl | rfl | rfl | rfl | rfl | rfl | rfl |
    rfl | rfl | rfl | rfl | rfl | rfl | rfl | rfl | rfl
  · exact ⟨.push _, word_of_rowB 0x01#8 h⟩
  · exact ⟨.avail, word_of_rowZ 0x10#8 h⟩
  · exact ⟨.pop, word_of_rowZ 0x11#8 h⟩
  · exact ⟨.businit, word_of_rowZ 0x20#8 h⟩
  · exact ⟨.bussend _ _, word_of_rowAB 0x21#8 h⟩
  · exact ⟨.rdButton1, word_of_rowZ 0x30#8 h⟩
  · exact ⟨.rdDrivemode, word_of_rowZ 0x31#8 h⟩
  · exact ⟨.rdJoyx, word_of_rowZ 0x32#8 h⟩
  · exact ⟨.rdJoyy, word_of_rowZ 0x33#8 h⟩
  · exact ⟨.rdSpeedknob, word_of_rowZ 0x34#8 h⟩
  · exact ⟨.rdLeds, word_of_rowZ 0x35#8 h⟩
  · exact ⟨.rdFlash, word_of_rowZ 0x36#8 h⟩
  · exact ⟨.wrButton1 _, word_of_rowB1 0x38#8 h⟩
  · exact ⟨.wrDrivemode _, word_of_rowB2 0x39#8 h⟩
  · exact ⟨.wrJoyx _, word_of_rowB 0x3A#8 h⟩
  · exact ⟨.wrJoyy _, word_of_rowB 0x3B#8 h⟩
  · exact ⟨.wrSpeedknob _, word_of_rowB 0x3C#8 h⟩
  · exact ⟨.wrLeds _, word_of_rowB 0x3D#8 h⟩
  · exact ⟨.wrFlash _, word_of_rowB 0x3E#8 h⟩
  · exact ⟨.pincfg _ _, word_of_rowAB1 0x40#8 h⟩
  · exact ⟨.txbyte _, word_of_rowB 0x50#8 h⟩

theorem Instr.wf_eq_false_iff {i : Instr} : i.wf = false ↔ i = .wrDrivemode 3#2 := by
  cases i <;> simp [Instr.wf]

theorem decode_drivemode_three : decode 0x390003#24 = .error .reservedValue := by decide

/-- One word of a row stands for no well-formed instruction: that of `WR.drivemode 3`. -/
theorem wf_iff_encode_ne (i : Instr) : i.wf = true ↔ encode i ≠ 0x390003#24 := by
  refine ⟨fun h he => ?_, fun hne => by_contra fun h => ?_⟩
  · have hok := decode_encode h
    rw [he, decode_drivemode_three] at hok
    exact nomatch hok
  · rw [Bool.not_eq_true, Instr.wf_eq_false_iff] at h
    subst h
    exact hne (by decide)

/-- Settles O5: the words of a row are the words of the instructions, and one of them is not well formed. -/
theorem reservedWordsAreExactlyTheOthers : Obligations.ReservedWordsAreExactlyTheOthers := by
  refine fun w => ⟨fun ⟨i, hi⟩ => ?_, fun ⟨⟨r, hr, hw⟩, hne⟩ => ?_⟩
  · obtain ⟨rfl, hwf⟩ := encode_of_decode hi
    obtain ⟨hmatch, hrow, -⟩ := encode_selects_row i
    exact ⟨⟨_, hrow, hmatch⟩, (wf_iff_encode_ne i).1 hwf⟩
  · obtain ⟨i, rfl⟩ := exists_encode_of_row hr hw
    exact ⟨i, decode_encode ((wf_iff_encode_ne i).2 hne)⟩

/-! ### the written-out words (95_test_vectors.md) -/

/-- Settles O1: each word is decoded as it is written. -/
theorem wordsOfEveryFamilyDecode : Obligations.WordsOfEveryFamilyDecode := by
  unfold Obligations.WordsOfEveryFamilyDecode
  decide

end Sys2Proof

/-! SUPPORT. The words on the two ports, and how the main loop issues a pseudo-instruction's expansion
(30_encoding.md R99 to R101, R106). -/

namespace Sys2Proof.Machine

/-! ### the two ports (R99, R100, R101) -/

/-- PUSH is the one operation of the producer port (R96). -/
theorem port_eq_consumer {i : Instr} (h : ∀ b, i ≠ .push b) : i.port = .consumer := by
  cases i with
  | push b => exact absurd rfl (h b)
  | _ => rfl

theorem fire_producer_reserved {w : Word} {r : Reject} (hw : decode w = .error r) (s : State) :
    fire (.producer w) s = .refused (.reservedWord r) := by
  simp only [fire, onProducerPort, hw]

theorem fire_command_reserved {w : Word} {r : Reject} (hw : decode w = .error r) (s : State) :
    fire (.command w) s = .refused (.reservedWord r) := by
  simp only [fire, onConsumerPort, hw]

theorem fire_producer_wrongPort {w : Word} {i : Instr} (hw : decode w = .ok i) (hp : i.port = .consumer)
    (s : State) : fire (.producer w) s = .refused .wrongPort := by
  simp only [fire, onProducerPort, hw, hp, reduceCtorEq, if_false]

theorem fire_command_wrongPort {w : Word} {b : Byte} (hw : decode w = .ok (.push b)) (s : State) :
    fire (.command w) s = .refused .wrongPort := by
  simp only [fire, onConsumerPort, hw, Instr.port, reduceCtorEq, if_false]

/-- Settles O7: the points of R101 in their order; `cop` alone decides whether a consumer word is taken. -/
theorem eachPortRefusesIgnoresOrPerforms : Obligations.EachPortRefusesIgnoresOrPerforms := by
  refine ⟨fun s w r hw => ⟨fire_producer_reserved hw s, fire_command_reserved hw s⟩,
    fun s w b hw => ⟨fire_producer_push hw s, fire_command_wrongPort hw s⟩, fun s w i hw hi => ?_⟩
  have hp : i.port = .consumer := port_eq_consumer hi
  exact ⟨fire_producer_wrongPort hw hp s, fire_command_busy hw hp, fire_command_idle hw hp, rfl,
    State.settled_of_nil⟩

/-! ### an expansion, item by item (R106) -/

/-- The main loop starts a pseudo-instruction when it is free: the expansion is pending. -/
theorem fire_pseudo_idle {s : State} {p : Pseudo} {ops : List MainOp} (hops : expand p = .ok ops) (hi : Idle s)
    (hp : s.env.pending = []) : fire (.pseudo p) s = .next (s.setEnv { s.env with pending := ops }) := by
  simp only [fire, startPseudo, hops, State.mainBusy_false.2 ⟨hi, hp⟩, Bool.false_eq_true, if_false]

/-- From IDLE the oldest item is issued as the operation it stands for. -/
theorem fire_consumer_due {s : State} {m : MainOp} {rest : List MainOp} {i : Instr} (h : Idle s)
    (hp : s.env.pending = m :: rest) (hd : m.due s.lastByte = some i) :
    fire .consumer s = exec i (s.setEnv { s.env with pending := rest }) := by
  rw [fire_consumer_issue h hp]
  exact issue_of_due hd

/-- From IDLE an item that stands for nothing is dropped. -/
theorem fire_consumer_skip {s : State} {m : MainOp} {rest : List MainOp} (h : Idle s)
    (hp : s.env.pending = m :: rest) (hd : m.due s.lastByte = none) :
    fire .consumer s = .next (s.setEnv { s.env with pending := rest }) := by
  rw [fire_consumer_issue h hp]
  exact issue_of_none hd

/-- Settles O56: an item that is an operation stands for that operation, whatever was returned before. -/
theorem expansionIsIssuedInOrder : Obligations.ExpansionIsIssuedInOrder :=
  ⟨fun _ _ _ => fire_pseudo_idle, fun _ _ _ hi hp => fire_consumer_due hi hp rfl, fun _ _ => fire_consumer_busy⟩

/-! ### GETC -/

/-- The occupied count loses nothing in the eight bits AVAIL returns it in (R123). -/
theorem toNat_occupiedByte (s : State) :
    (BitVec.ofNat 8 (occupied s.slots s.headIdx s.tailIdx)).toNat = occupied s.slots s.headIdx s.tailIdx := by
  have hlt := occupied_lt s.headIdx_lt s.tailIdx_lt
  have hle := s.slots_le
  rw [BitVec.toNat_ofNat, Nat.mod_eq_of_lt (by omega)]

/-- AVAIL returns 0 exactly when the buffer is empty. -/
theorem occupiedByte_eq_zero_iff (s : State) :
    BitVec.ofNat 8 (occupied s.slots s.headIdx s.tailIdx) = 0#8 ↔ s.isEmpty = true := by
  rw [State.isEmpty_iff, ← BitVec.toNat_inj, toNat_occupiedByte]
  rfl

/-- The state with GETC's items pending. -/
def State.getcStarted (s : State) : State := s.setEnv { s.env with pending := [.op .avail, .popIfNonzero] }

/-- After the a1 of GETC's AVAIL. -/
def State.getcReading (s : State) : State :=
  ((s.setSeq { s.seq with tTail := s.tailIdx }).goto .avail 2).setEnv { s.env with pending := [.popIfNonzero] }

/-- After GETC's AVAIL. -/
def State.getcCounted (s : State) : State :=
  s.getcReading.finish (.value (BitVec.ofNat 8 (occupied s.slots s.headIdx s.tailIdx)))

@[simp] theorem State.getcCounted_size (s : State) : s.getcCounted.size = s.size := by
  simp [State.getcCounted, State.getcReading]

@[simp] theorem State.getcCounted_ring (s : State) : s.getcCounted.ring = s.ring := by
  simp [State.getcCounted, State.getcReading]

theorem fire_getcStarted {s : State} (hi : Idle s) :
    fire .consumer s.getcStarted = .next s.getcReading :=
  (fire_consumer_due (s := s.getcStarted) hi rfl rfl).trans (exec_avail_a1 (State.phaseOf_idle hi _))

theorem fire_getcReading (s : State) : fire .consumer s.getcReading = .next s.getcCounted := by
  have htail : s.getcReading.tTailIdx = s.tailIdx := State.tTailIdx_of_read s.tailIdx_lt rfl
  rw [fire_consumer_busy (i := .avail) rfl, exec_avail_a2 (State.phaseOf_same rfl), htail]
  rfl

theorem fire_getcCounted_empty {s : State} (h : s.isEmpty = true) :
    fire .consumer s.getcCounted = .next (s.getcCounted.setEnv { s.env with pending := [] }) :=
  fire_consumer_skip (m := .popIfNonzero) rfl rfl (if_pos ((occupiedByte_eq_zero_iff s).2 h))

/-- After the p1 of GETC's POP. -/
def State.getcPopping (s : State) : State :=
  let t := s.getcCounted.setEnv { s.env with pending := [] }
  (t.setSeq { t.seq with tTail := t.tailIdx }).goto .pop 2

theorem fire_getcCounted_nonempty {s : State} (h : s.isEmpty = false) :
    fire .consumer s.getcCounted = .next s.getcPopping := by
  have hne : BitVec.ofNat 8 (occupied s.slots s.headIdx s.tailIdx) ≠ 0#8 := by
    rw [Ne, occupiedByte_eq_zero_iff, h]; exact Bool.false_ne_true
  exact (fire_consumer_due (s := s.getcCounted) (m := .popIfNonzero) rfl rfl (if_neg hne)).trans
    (exec_pop_p1 (State.phaseOf_idle rfl _))

@[simp] theorem State.getcPopping_ring (s : State) : s.getcPopping.ring = s.ring := by
  simp [State.getcPopping]

theorem State.getcPopping_tTail (s : State) : s.getcPopping.seq.tTail = s.tailIdx := by
  simp only [State.getcPopping, State.goto_seq, State.setSeq_seq]
  exact State.tailIdx_eq_of (by simp) (by simp)

/-- Settles O57: AVAIL returns the count, and the count is 0 exactly when the buffer is empty. -/
theorem getcPopsOnlyWhatIsThere : Obligations.GetcPopsOnlyWhatIsThere := by
  intro s hi hp
  have hstart : fire (.pseudo .getc) s = .next s.getcStarted := fire_pseudo_idle rfl hi hp
  have hcount : ∃ v, s.getcCounted.ports.rsp = .value v ∧ v.toNat = occupied s.slots s.headIdx s.tailIdx :=
    ⟨_, rfl, toNat_occupiedByte s⟩
  cases he : s.isEmpty with
  | true =>
    exact ⟨_, _, _, _, hstart, fire_getcStarted hi, fire_getcReading s, fire_getcCounted_empty he, rfl, hcount, rfl,
      rfl, s.getcCounted_ring, fun _ => ⟨rfl, rfl⟩, nofun⟩
  | false =>
    exact ⟨_, _, _, _, hstart, fire_getcStarted hi, fire_getcReading s, fire_getcCounted_nonempty he, rfl, hcount, rfl,
      rfl, s.getcPopping_ring, nofun, fun _ => ⟨rfl, rfl, s.getcPopping_tTail⟩⟩

/-! ### REFLECT.f -/

/-- The field REFLECT.f reads (R106). -/
def Ssr.reflected (r : Ssr) : Reflected → Byte
  | .joyx => r.joyx
  | .joyy => r.joyy
  | .speedknob => r.speedknob

theorem exec_reflectRead_idle {s : State} (hi : Idle s) (f : Reflected) :
    exec (reflectRead f) s = .next (s.finish (.value (s.ssr.reflected f))) := by
  cases f <;> exact returnField_idle hi _

/-- The state with REFLECT.f's items pending. -/
def State.reflectStarted (s : State) (f : Reflected) : State :=
  s.setEnv { s.env with pending := [.op (reflectRead f), .sendRead (reflectChannel f)] }

/-- After the read of REFLECT.f. -/
def State.reflectFieldRead (s : State) (f : Reflected) : State :=
  (s.setEnv { s.env with pending := [.sendRead (reflectChannel f)] }).finish (.value (s.ssr.reflected f))

/-- After the s1 of REFLECT.f's BUSSEND. -/
def State.reflectSending (s : State) (f : Reflected) : State :=
  let t := (s.reflectFieldRead f).setEnv { s.env with pending := [] }
  (((t.setSeq { t.seq with tAddr := reflectChannel f, tVal := s.ssr.reflected f }).driveLevel
    Config.pinBusCs .low).emitBus .csFall).goto (.bussend (reflectChannel f) (s.ssr.reflected f)) 2

theorem fire_reflectStarted {s : State} (hi : Idle s) (f : Reflected) :
    fire .consumer (s.reflectStarted f) = .next (s.reflectFieldRead f) := by
  have hread := exec_reflectRead_idle (s := s.setEnv { s.env with pending := [.sendRead (reflectChannel f)] }) hi f
  exact (fire_consumer_due (s := s.reflectStarted f) hi rfl rfl).trans hread

theorem fire_reflectFieldRead {s : State} (hr : s.busReady = true) (f : Reflected) :
    fire .consumer (s.reflectFieldRead f) = .next (s.reflectSending f) :=
  (fire_consumer_due (s := s.reflectFieldRead f) rfl rfl rfl).trans (exec_bussend_s1 (State.phaseOf_idle rfl _) hr)

/-- REFLECT.f on an initialised bus, for every field. -/
theorem reflect_sends {s : State} (hi : Idle s) (hp : s.env.pending = []) (hr : s.busReady = true) (f : Reflected) :
    ∃ s1 s2 t, fire (.pseudo (.reflect f)) s = .next s1 ∧ fire .consumer s1 = .next s2 ∧
      fire .consumer s2 = .next t ∧ s2.ports.rsp = .value (s.ssr.reflected f) ∧
      t.seq.cop = some (.bussend (reflectChannel f) (s.ssr.reflected f)) ∧ t.seq.cphase = 2 ∧
      t.bus.trace = s.bus.trace ++ [.csFall] ∧ t.env.pending = [] :=
  ⟨s.reflectStarted f, s.reflectFieldRead f, s.reflectSending f, fire_pseudo_idle rfl hi hp, fire_reflectStarted hi f,
    fire_reflectFieldRead hr f, rfl, rfl, rfl, rfl, rfl⟩

/-- Settles O58: the byte the read returns is the field, and BUSSEND takes it from there. -/
theorem reflectSendsTheFieldJustRead : Obligations.ReflectSendsTheFieldJustRead := by
  intro s hi hp hr p hmem
  simp only [List.mem_cons, List.not_mem_nil, or_false] at hmem
  rcases hmem with rfl | rfl | rfl
  · exact reflect_sends hi hp hr .joyx
  · exact reflect_sends hi hp hr .joyy
  · exact reflect_sends hi hp hr .speedknob

end Sys2Proof.Machine

/-! SUPPORT. The ring buffer as a queue of at most N - 1 bytes, under every step (40_fifo.md R132). -/

namespace Sys2Proof.Machine

/-! ### the queue under one event -/

/-- What the queue is a function of is kept: N, the ring buffer, and the draw of the unwritten slots. -/
structure RingKept (s t : State) : Prop where
  size  : t.size = s.size
  ring  : t.ring = s.ring
  boots : t.env.boots = s.env.boots

theorem RingKept.trans {s t u : State} (h : RingKept s t) (h' : RingKept t u) : RingKept s u :=
  ⟨h'.size.trans h.size, h'.ring.trans h.ring, h'.boots.trans h.boots⟩

theorem RingKept.setEnv (s : State) {env : Env} (hb : env.boots = s.env.boots) : RingKept s (s.setEnv env) :=
  ⟨rfl, rfl, hb⟩

theorem RingKept.taken (s : State) : RingKept s s.taken := by
  obtain ⟨inputs, tick, ht⟩ := s.taken_eq
  rw [ht]
  exact .setEnv s rfl

theorem RingKept.queue {s t : State} (h : RingKept s t) : t.queue = s.queue := by
  have hn := State.slots_of_size h.size
  have hh := State.headIdx_eq_of h.size h.ring
  have ht := State.tailIdx_eq_of h.size h.ring
  exact State.queue_congr hn hh (by rw [hn, hh, ht]) fun k _ => State.readSlot_eq_of h.ring h.boots _

/-- The p4 of a POP takes the oldest byte off the queue of a non-empty buffer (R124). -/
theorem State.queue_popped {s : State} (he : s.isEmpty = false) :
    s.queue = s.readSlot s.headIdx :: ((s.setHead (nextIdx s.slots s.headIdx)).goto .pop 5).queue :=
  State.queue_advance he rfl nextIdx_mod rfl fun _ => rfl

/-- A micro-step of a consumer operation leaves the ring buffer, but for the p4 of a POP (R48). -/
theorem exec_ringKept {i : Instr} {s t : State} (hx : exec i s = .next t) (hp : i.port = .consumer)
    (h4 : ¬ (i = .pop ∧ s.phaseOf .pop = some 4)) : RingKept s t := by
  obtain ⟨henv, hn⟩ := exec_env_size hx
  rcases exec_ring_cases hx with ⟨b, rfl⟩ | ⟨hi, hph, -⟩ | hr
  · exact nomatch hp
  · exact absurd ⟨hi, hph⟩ h4
  · exact ⟨hn, hr, congrArg Env.boots henv⟩

/-- What `fire` performs from IDLE, for a word or for an item of an expansion, is a consumer operation. -/
theorem Inv.port_issued {s : State} (h : Inv s) {e : Event} {i : Instr}
    (hi : (∃ w, e = .command w ∧ decode w = .ok i ∧ i.port = .consumer) ∨
      (e = .consumer ∧ ∃ m rest, s.env.pending = m :: rest ∧ m.due s.lastByte = some i)) :
    i.port = .consumer := by
  rcases hi with ⟨w, -, -, hp⟩ | ⟨-, m, rest, hm, hdue⟩
  · exact hp
  · exact (h.pending.due (hm ▸ List.mem_cons_self ..) hdue).1

/-- Every event but a PUSH, the p4 of a POP and power-on leaves the ring buffer (R48). -/
theorem fire_ringKept {e : Event} {s t : State} (h : Inv s) (hf : fire e s = .next t) (hon : isPowerOn e = false)
    (hpush : ∀ w, e ≠ .producer w) (h4 : ¬ (e = .consumer ∧ s.seq.cop = some .pop ∧ s.seq.cphase = 4)) :
    RingKept s t := by
  rcases fire_cases hf with ⟨env, rfl, henv⟩ | ⟨b, w, he, -, -⟩ | ⟨i, he, hc, hx⟩ |
    ⟨i, env, -, hc, henv, hi, hx⟩ | ⟨-, rfl⟩ | ⟨-, rfl⟩ | ⟨f, -, ho⟩ | ⟨-, rfl⟩ | ⟨d, rfl, -⟩
  · exact .setEnv s henv.1
  · exact absurd he (hpush w)
  · refine exec_ringKept hx (h.block.seq.port_inflight hc) ?_
    rintro ⟨rfl, hph⟩
    exact h4 ⟨he, phaseOf_inflight (by decide) hph⟩
  · refine (RingKept.setEnv s henv.1).trans (exec_ringKept hx (h.port_issued hi) ?_)
    rintro ⟨-, hph⟩
    rw [State.phaseOf_idle (show (s.setEnv env).seq.cop = none from hc)] at hph
    exact absurd hph (by decide)
  · exact ⟨s.busDone_size, s.busDone_ring, by rw [State.busDone_env]⟩
  · exact ⟨s.txDone_size, s.txDone_ring, by rw [State.txDone_env]⟩
  · obtain ⟨v, -, rfl⟩ := observe_cases ho
    exact ⟨rfl, rfl, rfl⟩
  · exact ⟨s.configureSerial_size, s.configureSerial_ring, by rw [State.configureSerial_env]⟩
  · exact nomatch hon

theorem fire_push_queue {w : Word} {b : Byte} {s t : State} (hw : decode w = .ok (.push b))
    (hf : fire (.producer w) s = .next t) :
    t.queue = if s.queue.length < s.slots - 1 then s.queue ++ [b] else s.queue := by
  rw [fire_producer_push hw, exec_push_eq] at hf
  injection hf with hf
  rw [← hf, State.queue_pushed]

/-- At p4 the buffer holds a byte, and the temporary holds it already (R77, R78). -/
theorem SeqOk.pop_p4 {s : State} (h : SeqOk s) (hc : s.seq.cop = some .pop) (hk : s.seq.cphase = 4) :
    s.isEmpty = false ∧ s.seq.tByte = s.readSlot s.headIdx := by
  rcases (SeqOk.pop_iff hc).1 h with ⟨h2, -⟩ | ⟨h3, -⟩ | ⟨-, hne, hb⟩ | h5
  · omega
  · omega
  · exact ⟨hne, hb⟩
  · omega

theorem fire_pop_p4 {s : State} (hc : s.seq.cop = some .pop) (hk : s.seq.cphase = 4) :
    fire .consumer s = .next ((s.setHead (nextIdx s.slots s.headIdx)).goto .pop 5) := by
  rw [fire_consumer_busy hc, exec_pop_p4 (hk ▸ State.phaseOf_same hc)]

theorem fire_pop_queue {s t : State} (h : SeqOk s) (hc : s.seq.cop = some .pop) (hk : s.seq.cphase = 4)
    (hf : fire .consumer s = .next t) : s.queue = s.seq.tByte :: t.queue := by
  obtain ⟨hne, hb⟩ := h.pop_p4 hc hk
  rw [fire_pop_p4 hc hk] at hf
  injection hf with hf
  rw [← hf, hb]
  exact State.queue_popped hne

/-- Settles O16: PUSH appends, p4 takes off, and only these two move the queue; taking the event off the
inputs does not. -/
theorem stepsRefineTheQueue : Obligations.StepsRefineTheQueue := by
  intro s t h hs hon
  rw [step_eq] at hs
  obtain ⟨inputs, tick, ht⟩ := s.taken_eq
  have hseq : s.taken.seq = s.seq := by rw [ht]; rfl
  have hslots : s.taken.slots = s.slots := by rw [ht]; rfl
  refine ⟨fun w b he hw => ?_, fun he hc hk => ?_, fun hpush h4 => ?_⟩
  · rw [he] at hs
    rw [fire_push_queue hw hs, (RingKept.taken s).queue, hslots]
  · rw [he] at hs
    rw [← (RingKept.taken s).queue, ← hseq]
    exact fire_pop_queue h.taken.block.seq (hseq ▸ hc) (hseq ▸ hk) hs
  · exact ((RingKept.taken s).trans (fire_ringKept h.taken hs hon hpush (hseq ▸ h4))).queue

end Sys2Proof.Machine

/-! SUPPORT. What the slots outside the occupied range hold: two states that differ there step in lockstep
(40_fifo.md R127, R128, R129). -/

namespace Sys2Proof.Machine

/-- The state with other bytes in its slots. -/
def State.withStorage (s : State) (m : Memory) : State := s.setRing { s.ring with storage := m }

/-- Two states agree on the occupied slots exactly when they differ in storage alone and stand for the
same queue. -/
theorem agreeOnOccupied_iff {s t : State} :
    AgreeOnOccupied s t ↔ t = s.withStorage t.ring.storage ∧ t.queue = s.queue := by
  refine and_congr_right fun ht => ?_
  have hn : t.slots = s.slots := by rw [ht]; rfl
  have hh : t.headIdx = s.headIdx := by rw [ht]; rfl
  have htl : t.tailIdx = s.tailIdx := by rw [ht]; rfl
  simp only [State.queue, hn, hh, htl, List.map_inj_left, List.mem_range]

/-- What keeps the ring buffer keeps the agreement. -/
theorem RingKept.agree {s t : State} {m : Memory} (hk : RingKept s t) (h : (s.withStorage m).queue = s.queue) :
    AgreeOnOccupied t (t.withStorage m) := by
  have hm : RingKept (s.withStorage m) (t.withStorage m) :=
    ⟨hk.size, congrArg (fun r : Ring => { r with storage := m }) hk.ring, hk.boots⟩
  exact agreeOnOccupied_iff.2 ⟨rfl, by rw [hm.queue, h, hk.queue]⟩

/-- The oldest byte is read from an occupied slot. -/
theorem readSlot_head_withStorage {s : State} {m : Memory} (he : s.isEmpty = false)
    (h : (s.withStorage m).queue = s.queue) : (s.withStorage m).readSlot s.headIdx = s.readSlot s.headIdx := by
  have hq := State.queue_popped (s := s.withStorage m) he
  rw [h, State.queue_popped he] at hq
  exact (List.cons.inj hq).1.symm

/-! ### one micro-step -/

theorem pushed_withStorage (s : State) (m : Memory) (b : Byte) :
    (s.withStorage m).pushed b = (s.pushed b).withStorage (m.write s.tailIdx b) := by
  unfold State.pushed State.commit
  rw [show ((s.withStorage m).writeSlot (s.withStorage m).tailIdx b).isFull =
    (s.writeSlot s.tailIdx b).isFull from rfl]
  split <;> rfl

/-- A PUSH appends the same byte to the same queue (R121, R122). -/
theorem AgreeOnOccupied.pushed {s : State} {m : Memory} (h : (s.withStorage m).queue = s.queue) (b : Byte) :
    AgreeOnOccupied (s.pushed b) ((s.withStorage m).pushed b) := by
  refine agreeOnOccupied_iff.2 ⟨?_, ?_⟩
  · rw [pushed_withStorage]; rfl
  · rw [State.queue_pushed, State.queue_pushed, h]
    rfl

/-- The result of a step with other bytes in the slots of the state it leaves. -/
def withStorageAfter (m : Memory) : Result → Result
  | .next t => .next (t.withStorage m)
  | .fault f => .fault f
  | .refused r => .refused r

@[simp] theorem State.withStorage_seq (s : State) (m : Memory) : (s.withStorage m).seq = s.seq := rfl
@[simp] theorem State.withStorage_phaseOf (s : State) (m : Memory) (i : Instr) :
    (s.withStorage m).phaseOf i = s.phaseOf i := rfl

theorem execAvail_withStorage (s : State) (m : Memory) :
    execAvail (s.withStorage m) = withStorageAfter m (execAvail s) := by
  simp only [execAvail, State.withStorage_phaseOf]
  split <;> rfl

/-- The p3 of POP is the one micro-step that reads a slot (R48, R77). -/
theorem execPop_withStorage {s : State} {m : Memory}
    (h3 : s.phaseOf .pop = some 3 → (s.withStorage m).readSlot s.headIdx = s.readSlot s.headIdx) :
    execPop (s.withStorage m) = withStorageAfter m (execPop s) := by
  simp only [execPop, State.withStorage_phaseOf]
  split
  case h_3 =>
    rw [show (s.withStorage m).headIdx = s.headIdx from rfl, show (s.withStorage m).tTailIdx = s.tTailIdx from rfl]
    split <;> rfl
  case h_4 hph =>
    rw [show (s.withStorage m).headIdx = s.headIdx from rfl, h3 hph]
    rfl
  all_goals rfl

theorem execBusinit_withStorage (s : State) (m : Memory) :
    execBusinit (s.withStorage m) = withStorageAfter m (execBusinit s) := by
  simp only [execBusinit, State.withStorage_phaseOf]
  split <;> rfl

theorem execBussend_withStorage (a v : Byte) (s : State) (m : Memory) :
    execBussend a v (s.withStorage m) = withStorageAfter m (execBussend a v s) := by
  simp only [execBussend, State.withStorage_phaseOf]
  rw [show (s.withStorage m).busReady = s.busReady from rfl, show (s.withStorage m).bus = s.bus from rfl]
  split
  case h_2 | h_4 | h_6 => split <;> rfl
  all_goals rfl

theorem whenIdle_withStorage {f : State → Result} {s : State} {m : Memory}
    (hf : f (s.withStorage m) = withStorageAfter m (f s)) :
    (s.withStorage m).whenIdle f = withStorageAfter m (s.whenIdle f) := by
  simp only [State.whenIdle, State.withStorage_seq]
  split
  · exact hf
  · rfl

theorem returnField_withStorage (x : Byte) (s : State) (m : Memory) :
    returnField x (s.withStorage m) = withStorageAfter m (returnField x s) := whenIdle_withStorage rfl

theorem writeRecord_withStorage (r : Ssr) (s : State) (m : Memory) :
    writeRecord r (s.withStorage m) = withStorageAfter m (writeRecord r s) := whenIdle_withStorage rfl

theorem execPincfg_withStorage (p : Byte) (l : Level) (s : State) (m : Memory) :
    execPincfg p l (s.withStorage m) = withStorageAfter m (execPincfg p l s) := by
  refine whenIdle_withStorage ?_
  rw [show (s.withStorage m).bus = s.bus from rfl]
  split <;> rfl

theorem execWrDrivemode_withStorage (v : BitVec 2) (s : State) (m : Memory) :
    execWrDrivemode v (s.withStorage m) = withStorageAfter m (execWrDrivemode v s) := by
  unfold execWrDrivemode
  split
  · rfl
  · exact writeRecord_withStorage _ s m

theorem execTxbyte_withStorage (ch : Byte) (s : State) (m : Memory) :
    execTxbyte ch (s.withStorage m) = withStorageAfter m (execTxbyte ch s) := by
  simp only [execTxbyte, State.withStorage_phaseOf]
  split <;> rfl

/-- A micro-step of a consumer operation does not depend on storage, but for the slot p3 reads. -/
theorem exec_withStorage {i : Instr} {s : State} {m : Memory} (hp : i.port = .consumer)
    (h3 : s.phaseOf .pop = some 3 → (s.withStorage m).readSlot s.headIdx = s.readSlot s.headIdx) :
    exec i (s.withStorage m) = withStorageAfter m (exec i s) := by
  cases i with
  | push b => exact nomatch hp
  | avail => exact execAvail_withStorage s m
  | pop => exact execPop_withStorage h3
  | businit => exact execBusinit_withStorage s m
  | bussend a v => exact execBussend_withStorage a v s m
  | rdButton1 | rdDrivemode | rdJoyx | rdJoyy | rdSpeedknob | rdLeds | rdFlash => exact returnField_withStorage _ s m
  | wrDrivemode v => exact execWrDrivemode_withStorage v s m
  | wrButton1 | wrJoyx | wrJoyy | wrSpeedknob | wrLeds | wrFlash => exact writeRecord_withStorage _ s m
  | pincfg p l => exact execPincfg_withStorage p l s m
  | txbyte ch => exact execTxbyte_withStorage ch s m

/-! ### one event -/

/-- At p3 the buffer holds a byte (R77, R78). -/
theorem SeqOk.pop_p3 {s : State} (h : SeqOk s) (hc : s.seq.cop = some .pop) (hk : s.seq.cphase = 3) :
    s.isEmpty = false := by
  rcases (SeqOk.pop_iff hc).1 h with ⟨h2, -⟩ | ⟨-, hne⟩ | ⟨h4, -⟩ | h5
  · omega
  · exact hne
  · omega
  · omega

/-- The operation in flight does not depend on the slots outside the occupied range. -/
theorem exec_inflight_withStorage {i : Instr} {s : State} {m : Memory} (h : SeqOk s) (hc : s.seq.cop = some i)
    (hq : (s.withStorage m).queue = s.queue) : exec i (s.withStorage m) = withStorageAfter m (exec i s) := by
  refine exec_withStorage (h.port_inflight hc) fun h3 => ?_
  obtain ⟨hpop, hk⟩ := phaseOf_inflight (by decide) h3
  exact readSlot_head_withStorage (h.pop_p3 hpop hk) hq

/-- The first micro-step of an operation does not depend on storage. -/
theorem exec_idle_withStorage {i : Instr} {s : State} {m : Memory} (hp : i.port = .consumer)
    (hc : s.seq.cop = none) : exec i (s.withStorage m) = withStorageAfter m (exec i s) := by
  refine exec_withStorage hp fun h3 => ?_
  rw [State.phaseOf_idle hc] at h3
  exact absurd h3 (by decide)

theorem fire_command_withStorage (w : Word) (s : State) (m : Memory) :
    fire (.command w) (s.withStorage m) = withStorageAfter m (fire (.command w) s) := by
  cases hw : decode w with
  | error r =>
    rw [fire_command_reserved hw, fire_command_reserved hw]
    rfl
  | ok i =>
    by_cases hpush : ∃ b, i = .push b
    · obtain ⟨b, rfl⟩ := hpush
      rw [fire_command_wrongPort hw, fire_command_wrongPort hw]
      rfl
    · have hp : i.port = .consumer := port_eq_consumer fun b hb => hpush ⟨b, hb⟩
      by_cases hc : s.seq.cop = none
      · rw [fire_command_idle hw hp hc, fire_command_idle (s := s.withStorage m) hw hp hc]
        exact exec_idle_withStorage (s := s.settled) hp hc
      · rw [fire_command_busy hw hp hc, fire_command_busy (s := s.withStorage m) hw hp hc]
        rfl

theorem consumerStep_withStorage {s : State} {m : Memory} (h : Inv s) (hq : (s.withStorage m).queue = s.queue) :
    consumerStep (s.withStorage m) = withStorageAfter m (consumerStep s) := by
  simp only [consumerStep, State.withStorage_seq, show (s.withStorage m).env = s.env from rfl]
  split
  · next i hc => exact exec_inflight_withStorage h.block.seq hc hq
  · next hc =>
    split
    · rfl
    · next x rest hx =>
      simp only [issue, show ((s.withStorage m).setEnv { s.env with pending := rest }).lastByte = s.lastByte from rfl,
        State.lastByte_setEnv]
      split
      · rfl
      · next i hi =>
        have hp := (h.pending.due (hx ▸ List.mem_cons_self ..) hi).1
        exact exec_idle_withStorage (s := s.setEnv { s.env with pending := rest }) hp hc

theorem startPseudo_withStorage (p : Pseudo) (s : State) (m : Memory) :
    startPseudo p (s.withStorage m) = withStorageAfter m (startPseudo p s) := by
  simp only [startPseudo, show (s.withStorage m).mainBusy = s.mainBusy from rfl]
  split
  · rfl
  · split <;> rfl

theorem busDone_withStorage (s : State) (m : Memory) : (s.withStorage m).busDone = s.busDone.withStorage m := by
  unfold State.busDone
  rw [show (s.withStorage m).busDoneEnabled = s.busDoneEnabled from rfl]
  split <;> rfl

theorem txDone_withStorage (s : State) (m : Memory) : (s.withStorage m).txDone = s.txDone.withStorage m := by
  unfold State.txDone
  rw [show (s.withStorage m).txDoneEnabled = s.txDoneEnabled from rfl]
  split <;> rfl

theorem observe_withStorage (f : BitVec 3) (s : State) (m : Memory) :
    observe f (s.withStorage m) = withStorageAfter m (observe f s) := by
  simp only [observe, show (s.withStorage m).ssr = s.ssr from rfl]
  split <;> rfl

theorem configureSerial_withStorage (s : State) (m : Memory) :
    (s.withStorage m).configureSerial = s.configureSerial.withStorage m := by
  unfold State.configureSerial
  rw [show (s.withStorage m).ser = s.ser from rfl]
  split <;> rfl

/-- An event that is neither a PUSH nor power-on does the same whatever the slots outside the occupied
range hold (R127, R128). -/
theorem fire_withStorage {e : Event} {s : State} {m : Memory} (h : Inv s)
    (hq : (s.withStorage m).queue = s.queue) (hon : isPowerOn e = false) (hpush : ∀ w, e ≠ .producer w) :
    fire e (s.withStorage m) = withStorageAfter m (fire e s) := by
  cases e with
  | producer w => exact absurd rfl (hpush w)
  | command w => exact fire_command_withStorage w s m
  | consumer => exact consumerStep_withStorage h hq
  | pseudo p => exact startPseudo_withStorage p s m
  | busDone => exact congrArg Host.Outcome.next (busDone_withStorage s m)
  | txDone => exact congrArg Host.Outcome.next (txDone_withStorage s m)
  | obsRead f => exact observe_withStorage f s m
  | serialConfigured => exact congrArg Host.Outcome.next (configureSerial_withStorage s m)
  | powerOn d => exact nomatch hon

/-- After the p4 of a POP the two queues have each lost their oldest byte (R124). -/
theorem agree_popped {s t : State} {m : Memory} (he : s.isEmpty = false) (hc : s.seq.cop = some .pop)
    (hk : s.seq.cphase = 4) (hq : (s.withStorage m).queue = s.queue) (hf : fire .consumer s = .next t) :
    AgreeOnOccupied t (t.withStorage m) := by
  rw [fire_pop_p4 hc hk] at hf
  injection hf with hf
  have hpopped := State.queue_popped (s := s.withStorage m) he
  rw [hq, State.queue_popped he] at hpopped
  rw [← hf]
  exact agreeOnOccupied_iff.2 ⟨rfl, (List.cons.inj hpopped).2.symm⟩

theorem eq_powerOn_of_isPowerOn {e : Event} (h : isPowerOn e = true) : ∃ d, e = .powerOn d := by
  cases e with
  | powerOn d => exact ⟨d, rfl⟩
  | _ => exact nomatch h

/-- One event in lockstep (R127, R128, R129). -/
theorem fire_agree {e : Event} {s s' : State} {m : Memory} (h : Inv s) (hq : (s.withStorage m).queue = s.queue)
    (hf : fire e s = .next s') : ∃ t', fire e (s.withStorage m) = .next t' ∧ AgreeOnOccupied s' t' := by
  by_cases hpush : ∃ w, e = .producer w
  · obtain ⟨w, rfl⟩ := hpush
    obtain ⟨b, hw, hx⟩ := onProducerPort_cases hf
    injection hx with hx
    exact ⟨_, fire_producer_push hw _, hx ▸ AgreeOnOccupied.pushed hq b⟩
  cases hon : isPowerOn e with
  | true =>
    obtain ⟨d, rfl⟩ := eq_powerOn_of_isPowerOn hon
    exact ⟨s', hf, agreeOnOccupied_iff.2 ⟨rfl, rfl⟩⟩
  | false =>
    have hpush' : ∀ w, e ≠ .producer w := fun w hw => hpush ⟨w, hw⟩
    refine ⟨s'.withStorage m, by rw [fire_withStorage h hq hon hpush', hf]; rfl, ?_⟩
    by_cases h4 : e = .consumer ∧ s.seq.cop = some .pop ∧ s.seq.cphase = 4
    · obtain ⟨rfl, hc, hk⟩ := h4
      exact agree_popped (h.block.seq.pop_p4 hc hk).1 hc hk hq hf
    · exact (fire_ringKept h hf hon hpush' h4).agree hq

theorem taken_withStorage (s : State) (m : Memory) : (s.withStorage m).taken = s.taken.withStorage m := by
  unfold State.taken
  rw [show (s.withStorage m).env = s.env from rfl]
  split <;> rfl

/-- Settles O17: the two states take the same event and perform it in lockstep; p3 alone reads a slot, an
occupied one, and PUSH writes the same byte in both. -/
theorem uncommittedSlotsAreNeverSeen : Obligations.UncommittedSlotsAreNeverSeen := by
  intro s t s' h hst hs
  obtain ⟨ht, hq⟩ := agreeOnOccupied_iff.1 hst
  generalize t.ring.storage = m at ht
  subst ht
  rw [step_eq, show (s.withStorage m).nextEvent = s.nextEvent from rfl, taken_withStorage]
  exact fire_agree h.taken (agreeOnOccupied_iff.1 ((RingKept.taken s).agree hq)).2 hs

end Sys2Proof.Machine

/-! SUPPORT. The three operations of the ring buffer, each from its micro-steps with any PUSHes between them
(40_fifo.md R121 to R125, R129, 20_memory.md R77, R78). -/

namespace Sys2Proof.Machine

/-! ### PUSH (R121, R122) -/

theorem encode_push (b : Byte) : encode (.push b) = 0x010000#24 ||| b.setWidth 24 := by
  refine BitVec.eq_of_toNat_eq ?_
  have hb : b.toNat < 2 ^ 24 := lt_trans b.isLt (by decide)
  rw [encode, mkWord, BitVec.toNat_append, BitVec.toNat_or, BitVec.toNat_setWidth, Nat.mod_eq_of_lt hb]
  exact congrArg (· ||| b.toNat) (show (0x01#8 ++ 0#8).toNat <<< 8 = (0x010000#24).toNat by decide)

theorem State.pushed_tailIdx (s : State) (b : Byte) : (s.pushed b).tailIdx =
    if nextIdx s.slots s.tailIdx ≠ s.headIdx then nextIdx s.slots s.tailIdx else s.tailIdx := by
  rw [State.pushed, push_tailIdx, State.isFull, ite_not]
  simp only [beq_iff_eq]

theorem State.pushed_storage (s : State) (b : Byte) :
    (s.pushed b).ring.storage = s.ring.storage.write s.tailIdx b := push_storage s b

/-- Settles O9: the byte is written at `tail` and the commit follows; that nothing else is touched is
what PUSHes alone leave. -/
theorem pushWritesTheSlotThenCommits : Obligations.PushWritesTheSlotThenCommits := by
  intro s b
  have hw : decode (encode (.push b)) = .ok (.push b) := decode_encode rfl
  have P := Pushed.one s b
  refine ⟨encode_push b, fire_producer_push hw s, fire_command_wrongPort hw s, s.pushed b, rfl, ?_, fun x hx => ?_,
    s.pushed_tailIdx b, P.head, P.size, P.ssr, P.pins, P.bus, P.ser, P.seq, P.ports, P.env⟩
  · rw [State.pushed_storage, Memory.read_write_same]
  · rw [State.pushed_storage, Memory.read_write_other _ _ hx]

/-- PUSHes into a full buffer write one slot, again and again (R122, R251). -/
theorem pushAll_full (bs : List Byte) (b : Byte) {s : State} (hf : s.isFull = true) :
    ∃ m, pushAll (bs ++ [b]) s = .next (s.withStorage m) ∧ m.read s.tailIdx = some b ∧
      ∀ x, x ≠ s.tailIdx → m.read x = s.ring.storage.read x := by
  induction bs generalizing s with
  | nil =>
    refine ⟨s.ring.storage.write s.tailIdx b, ?_, Memory.read_write_same _ _ _,
      fun x hx => Memory.read_write_other _ _ hx⟩
    rw [List.nil_append, pushAll_cons, State.pushed_full hf]
    rfl
  | cons a bs ih =>
    obtain ⟨m, hm, hlast, hother⟩ := ih (s := s.writeSlot s.tailIdx a) hf
    refine ⟨m, ?_, hlast, fun x hx => (hother x hx).trans (Memory.read_write_other _ _ hx)⟩
    rw [List.cons_append, pushAll_cons, State.pushed_full hf, hm]
    rfl

/-- Settles O10: a full buffer stays full, so no PUSH commits. -/
theorem pushesWhenFullRewriteOneSlot : Obligations.PushesWhenFullRewriteOneSlot := by
  intro s bs b hf
  obtain ⟨m, hm, hlast, hother⟩ := pushAll_full bs b hf
  exact ⟨s.withStorage m, hm, hlast, hother, rfl⟩

/-! ### the consumer's operations, with PUSHes between their micro-steps (R77) -/

/-- PUSHes leave the sequencer, so the next micro-step is still the one due. -/
theorem Pushed.phaseOf_goto {s t : State} {i : Instr} {k : Nat} (h : Pushed (s.goto i k) t) : t.phaseOf i = some k := by
  rw [State.phaseOf_of_seq h.seq, State.phaseOf_goto]

theorem State.occupied_pos {s : State} (he : s.isEmpty = false) : 0 < occupied s.slots s.headIdx s.tailIdx :=
  Nat.pos_of_ne_zero fun h0 => by simp [s.isEmpty_iff.2 h0] at he

/-- A byte that is held stays held, and stays the oldest one (R78). -/
theorem Pushed.readHead {s t : State} (h : Pushed s t) (he : s.isEmpty = false) :
    t.isEmpty = false ∧ t.readSlot t.headIdx = s.readSlot s.headIdx := by
  have hpos := State.occupied_pos he
  refine ⟨Bool.eq_false_iff.2 fun ht => ?_, ?_⟩
  · have := h.count
    rw [t.isEmpty_iff.1 ht] at this
    omega
  · have := h.slot 0 hpos
    rw [Nat.add_zero, Nat.mod_eq_of_lt s.headIdx_lt] at this
    rw [h.headIdx, this]

/-- Nothing is changed but the ring buffer and the sequencer. -/
def OnlyRingAndSeq (s t : State) : Prop := t = (s.setRing t.ring).setSeq t.seq

namespace OnlyRingAndSeq

variable {s t u : State}

theorem size (h : OnlyRingAndSeq s t) : t.size = s.size := by rw [h]; rfl
theorem ssr (h : OnlyRingAndSeq s t) : t.ssr = s.ssr := by rw [h]; rfl
theorem pins (h : OnlyRingAndSeq s t) : t.pins = s.pins := by rw [h]; rfl
theorem bus (h : OnlyRingAndSeq s t) : t.bus = s.bus := by rw [h]; rfl
theorem ser (h : OnlyRingAndSeq s t) : t.ser = s.ser := by rw [h]; rfl
theorem ports (h : OnlyRingAndSeq s t) : t.ports = s.ports := by rw [h]; rfl
theorem env (h : OnlyRingAndSeq s t) : t.env = s.env := by rw [h]; rfl

theorem finish_ports (h : OnlyRingAndSeq s t) (r : Response) : (t.finish r).ports = { s.ports with rsp := r } := by
  rw [State.finish_ports, h.ports]

theorem trans (h : OnlyRingAndSeq s t) (h' : OnlyRingAndSeq t u) : OnlyRingAndSeq s u := by
  unfold OnlyRingAndSeq at *
  rw [h', h]
  rfl

end OnlyRingAndSeq

theorem Pushed.onlyRingAndSeq {s t : State} (h : Pushed s t) : OnlyRingAndSeq s t := by
  unfold OnlyRingAndSeq
  rw [h.ringOnly]
  rfl

/-! ### AVAIL (R123) -/

/-- After a1. -/
def State.afterA1 (s : State) : State := (s.setSeq { s.seq with tTail := s.tailIdx }).goto .avail 2

/-- a2 counts up to the `tail` that a1 read: PUSHes since then are not counted. -/
theorem exec_avail_a2_pushed {s t : State} (P : Pushed s.afterA1 t) : exec .avail t =
    .next (t.finish (.value (BitVec.ofNat 8 (occupied s.slots s.headIdx s.tailIdx)))) := by
  have htail : t.tTailIdx = s.tailIdx :=
    State.tTailIdx_of_read (by rw [P.slots]; exact s.tailIdx_lt) (by rw [P.seq]; rfl)
  rw [exec_avail_a2 P.phaseOf_goto, htail, P.slots, P.headIdx]
  rfl

/-- Settles O11: `t_tail` and `head` are what they were at a1, and a count below N fits in eight bits. -/
theorem availReturnsTheCountAtItsRead : Obligations.AvailReturnsTheCountAtItsRead := by
  intro s bs hi
  obtain ⟨s2, h2, P⟩ := pushAll_next bs s.afterA1
  have hkept : OnlyRingAndSeq s s2 := OnlyRingAndSeq.trans (t := s.afterA1) rfl P.onlyRingAndSeq
  exact ⟨s.afterA1, s2, _, _, exec_avail_a1 (State.phaseOf_idle hi _), h2, exec_avail_a2_pushed P,
    hkept.finish_ports _, toNat_occupiedByte s, rfl, rfl, rfl, hkept.size,
    hkept.ssr, hkept.pins, hkept.bus, hkept.ser,
    hkept.env⟩

/-! ### POP (R124, R125) -/

/-- After p1. -/
def State.afterP1 (s : State) : State := (s.setSeq { s.seq with tTail := s.tailIdx }).goto .pop 2

/-- After the p2 of a POP that found a byte. -/
def State.afterP2 (s : State) : State := s.goto .pop 3

/-- After p3. -/
def State.afterP3 (s : State) : State := (s.setSeq { s.seq with tByte := s.readSlot s.headIdx }).goto .pop 4

/-- After p4. -/
def State.afterP4 (s : State) : State := (s.setHead (nextIdx s.slots s.headIdx)).goto .pop 5

/-- p2 compares `head` with the `tail` that p1 read, whatever was pushed since. -/
theorem p2_compares {s t : State} (P : Pushed s.afterP1 t) : t.headIdx = t.tTailIdx ↔ s.isEmpty = true := by
  have hhead : t.headIdx = s.headIdx := P.headIdx
  have htail : t.tTailIdx = s.tailIdx :=
    State.tTailIdx_of_read (by rw [P.slots]; exact s.tailIdx_lt) (by rw [P.seq]; rfl)
  rw [hhead, htail, State.isEmpty, beq_iff_eq]

/-- Settles O12: a byte once held stays the oldest through the PUSHes, up to p3, which reads it. -/
theorem popReturnsTheOldestByte : Obligations.PopReturnsTheOldestByte := by
  intro s b1 b2 b3 b4 hi he
  obtain ⟨s2, h2, P1⟩ := pushAll_next b1 s.afterP1
  obtain ⟨s4, h4, P2⟩ := pushAll_next b2 s2.afterP2
  obtain ⟨s6, h6, P3⟩ := pushAll_next b3 s4.afterP3
  obtain ⟨s8, h8, P4⟩ := pushAll_next b4 s6.afterP4
  have K2 : OnlyRingAndSeq s s2 := OnlyRingAndSeq.trans (t := s.afterP1) rfl P1.onlyRingAndSeq
  have K4 : OnlyRingAndSeq s s4 := K2.trans (OnlyRingAndSeq.trans (t := s2.afterP2) rfl P2.onlyRingAndSeq)
  have K6 : OnlyRingAndSeq s s6 := K4.trans (OnlyRingAndSeq.trans (t := s4.afterP3) rfl P3.onlyRingAndSeq)
  have K8 : OnlyRingAndSeq s s8 := K6.trans (OnlyRingAndSeq.trans (t := s6.afterP4) rfl P4.onlyRingAndSeq)
  have hp2 : s2.headIdx ≠ s2.tTailIdx := fun h => by simp [(p2_compares P1).1 h] at he
  obtain ⟨he2, hread2⟩ := P1.readHead he
  obtain ⟨-, hread4⟩ := P2.readHead he2
  have hslots : s6.slots = s.slots := State.slots_of_size (K6.size)
  have hhead : s6.headIdx = s.headIdx := P3.headIdx.trans (P2.headIdx.trans P1.headIdx)
  have hbyte : s8.seq.tByte = s.readSlot s.headIdx := by
    rw [P4.seq, show s6.afterP4.seq.tByte = s6.seq.tByte from rfl, P3.seq]
    exact hread4.trans hread2
  refine ⟨s.afterP1, s2, s2.afterP2, s4, s4.afterP3, s6, s6.afterP4, s8, s8.finish (.value s8.seq.tByte),
    exec_pop_p1 (State.phaseOf_idle hi _), h2, exec_pop_p2_some P1.phaseOf_goto hp2, h4,
    exec_pop_p3 P2.phaseOf_goto, h6, exec_pop_p4 P3.phaseOf_goto, h8, exec_pop_p5 P4.phaseOf_goto,
    ?_, ?_, rfl, rfl, rfl, rfl, ?_, rfl, K8.size,
    K8.ssr, K8.pins, K8.bus, K8.ser,
    K8.env⟩
  · rw [hbyte]
    exact K8.finish_ports _
  · rw [← hslots, ← hhead]
    exact P4.headIdx.trans nextIdx_mod
  · rw [← hslots, ← hhead]
    rfl

/-- Settles O13: p2 sees the `tail` that p1 read, so a byte pushed since then is left where it is. -/
theorem popOfEmptyReturnsTheSentinel : Obligations.PopOfEmptyReturnsTheSentinel := by
  intro s bs hi he
  obtain ⟨s2, h2, P⟩ := pushAll_next bs s.afterP1
  have K : OnlyRingAndSeq s s2 := OnlyRingAndSeq.trans (t := s.afterP1) rfl P.onlyRingAndSeq
  exact ⟨s.afterP1, s2, _, exec_pop_p1 (State.phaseOf_idle hi _), h2,
    exec_pop_p2_empty P.phaseOf_goto ((p2_compares P).2 he), K.finish_ports _, rfl, rfl, rfl,
    P.head, K.size, K.ssr, K.pins, K.bus,
    K.ser, K.env⟩

/-- The slot at `head` of a non-empty buffer has been written since power-on (R129). -/
theorem RingOk.read_head {s : State} (h : RingOk s) (he : s.isEmpty = false) :
    s.ring.storage.read s.headIdx = some (s.readSlot s.headIdx) := by
  have hpos := State.occupied_pos he
  have hw := h.written 0 hpos
  rw [Nat.add_zero, Nat.mod_eq_of_lt s.headIdx_lt] at hw
  obtain ⟨b, hb⟩ := Option.isSome_iff_exists.1 hw
  simp only [State.readSlot, hb]

/-- Settles O18: at p3 the buffer holds a byte, and an occupied slot is a written one. -/
theorem popReadsOnlyPushedBytes : Obligations.PopReadsOnlyPushedBytes := by
  intro s t h hc hk hx
  rw [exec_pop_p3 (hk ▸ State.phaseOf_same hc)] at hx
  injection hx with hx
  rw [← hx]
  exact h.block.ring.read_head (h.block.seq.pop_p3 hc hk)

end Sys2Proof.Machine

/-! SUPPORT. Any number of PUSHes, and then POPs, as operations on the queue (40_fifo.md R126, R130, R131). -/

namespace Sys2Proof.Machine

/-! ### many PUSHes -/

/-- The state PUSHes of the given bytes leave. -/
def State.pushedAll (s : State) (bs : List Byte) : State := bs.foldl State.pushed s

theorem pushAll_eq (bs : List Byte) (s : State) : pushAll bs s = .next (s.pushedAll bs) := by
  induction bs generalizing s with
  | nil => rfl
  | cons b bs ih => exact ih (s.pushed b)

theorem Pushed.all (s : State) (bs : List Byte) : Pushed s (s.pushedAll bs) := by
  obtain ⟨t, ht, P⟩ := pushAll_next bs s
  rw [pushAll_eq] at ht
  injection ht with ht
  exact ht ▸ P

theorem State.pushedAll_concat (s : State) (bs : List Byte) (b : Byte) :
    s.pushedAll (bs ++ [b]) = (s.pushedAll bs).pushed b := List.foldl_concat ..

/-- The queue is never longer than N - 1 (R126). -/
theorem State.queue_length_le (s : State) : s.queue.length ≤ s.slots - 1 := by
  rw [s.queue_length]
  exact Nat.le_sub_one_of_lt (occupied_lt s.headIdx_lt s.tailIdx_lt)

/-- The queue takes the bytes in order as long as there is room, and none after that (R126, R132). -/
theorem State.queue_pushedAll (s : State) (bs : List Byte) :
    (s.pushedAll bs).queue = (s.queue ++ bs).take (s.slots - 1) := by
  have hle := s.queue_length_le
  induction bs using List.reverseRecOn with
  | nil => rw [List.append_nil, List.take_of_length_le hle]; rfl
  | append_singleton bs b ih =>
    rw [s.pushedAll_concat, State.queue_pushed, ih, (Pushed.all s bs).slots, ← List.append_assoc]
    rw [List.length_take]
    split
    · next h =>
      have hall : (s.queue ++ bs ++ [b]).length ≤ s.slots - 1 := by
        rw [List.length_append, List.length_singleton]
        omega
      rw [List.take_of_length_le (by omega), List.take_of_length_le hall]
    · next h => rw [List.take_append_of_le_length (l₁ := s.queue ++ bs) (by omega)]

theorem State.queue_getElem? {s : State} {k : Nat} (hk : k < s.queue.length) :
    s.queue[k]? = some (s.readSlot ((s.headIdx + k) % s.slots)) := by
  rw [s.queue_length] at hk
  simp [State.queue, hk]

/-! ### PUSHes from reset (R130) -/

section FromReset

variable {s : State} (hr : FifoReset s) (bs : List Byte)
include hr

theorem FifoReset.headIdx : s.headIdx = 0 := by rw [State.headIdx, hr.1, Nat.zero_mod]

theorem FifoReset.queue : s.queue = [] := by
  have ht : s.tailIdx = 0 := by rw [State.tailIdx, hr.2, Nat.zero_mod]
  rw [← List.length_eq_zero_iff, s.queue_length, occupied_eq_zero s.headIdx_lt s.tailIdx_lt, hr.headIdx, ht]

theorem FifoReset.pushedAll_headIdx : (s.pushedAll bs).headIdx = 0 := (Pushed.all s bs).headIdx.trans hr.headIdx

theorem FifoReset.pushedAll_queue : (s.pushedAll bs).queue = bs.take (s.slots - 1) := by
  rw [State.queue_pushedAll, hr.queue, List.nil_append]

theorem FifoReset.pushedAll_occupied :
    occupied (s.pushedAll bs).slots (s.pushedAll bs).headIdx (s.pushedAll bs).tailIdx =
      min bs.length (s.slots - 1) := by
  rw [← State.queue_length, hr.pushedAll_queue, List.length_take, Nat.min_comm]

/-- With `head` at 0 the occupied count is `tail`. -/
theorem FifoReset.pushedAll_tailIdx : (s.pushedAll bs).tailIdx = min bs.length (s.slots - 1) := by
  have h := hr.pushedAll_occupied bs
  rwa [occupied_eq (State.headIdx_lt _) (State.tailIdx_lt _), hr.pushedAll_headIdx bs, if_pos (Nat.zero_le _)] at h

/-- The queue stands in slots 0 on. -/
theorem FifoReset.pushedAll_slot {k : Nat} (hk : k < min bs.length (s.slots - 1)) :
    bs[k]? = some ((s.pushedAll bs).readSlot k) := by
  have hlt : k < (s.pushedAll bs).slots := by rw [(Pushed.all s bs).slots]; omega
  have hlen : k < (s.pushedAll bs).queue.length := by rwa [State.queue_length, hr.pushedAll_occupied]
  have hq := State.queue_getElem? hlen
  rwa [hr.pushedAll_headIdx, Nat.zero_add, Nat.mod_eq_of_lt hlt, hr.pushedAll_queue,
    List.getElem?_take_of_lt (by omega)] at hq

/-- Once the buffer is full, slot N - 1 is the one every PUSH writes (R122). -/
theorem FifoReset.pushedAll_last (hlen : s.slots ≤ bs.length) :
    bs.getLast? = some ((s.pushedAll bs).readSlot (s.slots - 1)) := by
  have h2 := s.two_le_slots
  obtain rfl | ⟨cs, b, rfl⟩ := bs.eq_nil_or_concat
  · simp at hlen; omega
  · have htail : (s.pushedAll cs).tailIdx = s.slots - 1 := by
      rw [hr.pushedAll_tailIdx]
      simp at hlen
      omega
    rw [List.concat_eq_append, List.getLast?_concat, s.pushedAll_concat, State.pushed, push_readSlot, if_pos htail.symm]

end FromReset

/-- Settles O14: the queue is the first N - 1 bytes, it starts at slot 0, and a full buffer's next byte goes
to slot N - 1. -/
theorem pushesFromResetFillUpToCapacity : Obligations.PushesFromResetFillUpToCapacity := by
  intro s bs hr
  exact ⟨s.pushedAll bs, pushAll_eq bs s, (Pushed.all s bs).head.trans hr.1, hr.pushedAll_tailIdx bs,
    hr.pushedAll_occupied bs, fun k hk => hr.pushedAll_slot bs hk, hr.pushedAll_last bs⟩

/-! ### many POPs (R131) -/

theorem State.isEmpty_iff_queue (s : State) : s.isEmpty = true ↔ s.queue = [] := by
  rw [s.isEmpty_iff, ← s.queue_length, List.length_eq_zero_iff]

theorem microSteps_succ {i : Instr} {s t : State} (k : Nat) (h : exec i s = .next t) :
    microSteps (k + 1) i s = microSteps k i t := by
  simp only [microSteps, h]

/-- The state a POP of a non-empty buffer leaves, undisturbed. -/
def State.popped (s : State) : State := s.afterP1.afterP2.afterP3.afterP4.finish (.value (s.readSlot s.headIdx))

theorem microSteps_pop {s : State} (hi : Idle s) (he : s.isEmpty = false) :
    microSteps 5 .pop s = .next s.popped := by
  have hp2 : s.afterP1.headIdx ≠ s.afterP1.tTailIdx := fun h => by simp [(p2_compares (.refl _)).1 h] at he
  rw [microSteps_succ (t := s.afterP1) _ (exec_pop_p1 (State.phaseOf_idle hi _)),
    microSteps_succ (t := s.afterP1.afterP2) _ (exec_pop_p2_some (State.phaseOf_goto ..) hp2),
    microSteps_succ (t := s.afterP1.afterP2.afterP3) _ (exec_pop_p3 (State.phaseOf_goto ..)),
    microSteps_succ (t := s.afterP1.afterP2.afterP3.afterP4) _ (exec_pop_p4 (State.phaseOf_goto ..)),
    microSteps_succ (t := s.popped) _ (exec_pop_p5 (State.phaseOf_goto ..))]
  rfl

theorem RingKept.afterP1 (s : State) : RingKept s s.afterP1 := ⟨rfl, rfl, rfl⟩
theorem RingKept.afterP2 (s : State) : RingKept s s.afterP2 := ⟨rfl, rfl, rfl⟩
theorem RingKept.afterP3 (s : State) : RingKept s s.afterP3 := ⟨rfl, rfl, rfl⟩
theorem RingKept.finish (s : State) (r : Response) : RingKept s (s.finish r) := ⟨rfl, rfl, rfl⟩

/-- p4 takes the byte off the queue it finds, which may be reached by steps that kept the ring buffer. -/
theorem RingKept.queue_afterP4 {s t : State} (h : RingKept s t) (he : s.isEmpty = false) :
    s.queue = s.readSlot s.headIdx :: t.afterP4.queue := by
  have hpop : t.queue = t.readSlot t.headIdx :: t.afterP4.queue :=
    State.queue_popped ((isEmpty_of_eq h.size h.ring).trans he)
  rwa [h.queue, State.readSlot_eq_of h.ring h.boots, State.headIdx_eq_of h.size h.ring] at hpop

/-- Of the micro-steps of a POP, p4 alone moves the queue. -/
theorem State.queue_eq_popped {s : State} (he : s.isEmpty = false) :
    s.queue = s.readSlot s.headIdx :: s.popped.queue := by
  rw [State.popped, (RingKept.finish _ _).queue]
  exact (((RingKept.afterP1 s).trans (.afterP2 _)).trans (.afterP3 _)).queue_afterP4 he

/-- One POP of `popMany`, and the others after it. -/
theorem popMany_succ {s : State} (hi : Idle s) (he : s.isEmpty = false) (k : Nat) :
    popMany (k + 1) s = (popMany k s.popped).map (fun r => (s.readSlot s.headIdx :: r.1, r.2)) := by
  rw [popMany, microSteps_pop hi he]
  rfl

/-- As many POPs as bytes are held return the queue and leave it empty. -/
theorem popMany_queue {s : State} (hi : Idle s) :
    ∃ u, popMany s.queue.length s = some (s.queue, u) ∧ u.isEmpty = true := by
  generalize hq : s.queue = q
  induction q generalizing s with
  | nil => exact ⟨s, rfl, s.isEmpty_iff_queue.2 hq⟩
  | cons b q ih =>
    have he : s.isEmpty = false := Bool.eq_false_iff.2 fun h => by simp [s.isEmpty_iff_queue.1 h] at hq
    have hpop := State.queue_eq_popped he
    rw [hq] at hpop
    obtain ⟨rfl, hrest⟩ := List.cons.inj hpop
    obtain ⟨u, hu, hempty⟩ := ih (s := s.popped) rfl hrest.symm
    exact ⟨u, by rw [List.length_cons, popMany_succ hi he, hu]; rfl, hempty⟩

/-- Settles O15: within capacity the PUSHes append every byte, and the POPs return the whole queue. -/
theorem pushedBytesArePoppedInOrder : Obligations.PushedBytesArePoppedInOrder := by
  intro s bs hi hroom
  have hidle : Idle (s.pushedAll bs) := (congrArg Seq.cop (Pushed.all s bs).seq).trans hi
  have hq : (s.pushedAll bs).queue = s.queue ++ bs := by
    rw [State.queue_pushedAll, List.take_of_length_le (by rwa [List.length_append, s.queue_length])]
  obtain ⟨u, hu, hempty⟩ := popMany_queue hidle
  rw [hq, List.length_append, s.queue_length] at hu
  exact ⟨s.pushedAll bs, u, pushAll_eq bs s, hu, hempty⟩

end Sys2Proof.Machine
/-! SUPPORT. The bus after every step: chip-select and `bus_trace` read off the invariant, and what the
device latches of such a trace (41_bus.md R159, R161, R168). -/

namespace Sys2Proof.Machine

/-! ### chip-select (R168) -/

theorem Inv.step {s t : State} (h : Inv s) (hs : step s = .next t) : Inv t := everyStepKeepsTheInvariant s t h hs

/-- What `selected` says, read off the sequencer. -/
theorem selected_iff (s : State) :
    selected s = true ↔ ∃ a v, s.seq.cop = some (.bussend a v) ∧ 2 ≤ s.seq.cphase ∧ s.seq.cphase ≤ 6 := by
  unfold selected
  split
  · next a v hc => simp [hc]
  · next hc => exact ⟨nofun, fun ⟨a, v, h, _⟩ => absurd h (hc a v)⟩

/-- Settles O34: the invariant ties chip-select to `selected`, and every step keeps the invariant. -/
theorem chipSelectIsLowExactlyInTransactions : Obligations.ChipSelectIsLowExactlyInTransactions := by
  intro s t h hs hen
  have hbus := (h.step hs).block.bus
  obtain ⟨-, -, hdir⟩ := hbus.outputs hen
  refine ⟨hdir, ?_⟩
  rw [hbus.cs hen, ← selected_iff]
  cases selected t <;> decide

/-! ### the trace (R159) -/

/-- What the transaction in flight has appended is a beginning of its own group. -/
theorem groupSoFar_eq_take (s : State) : ∃ a v k, k ≤ 4 ∧ groupSoFar s = (busGroup a v).take k ∧
    (k ≠ 0 → s.seq.cop = some (.bussend a v)) := by
  unfold groupSoFar
  split
  · next a v hc =>
    have begun (k : Nat) (hk : k ≤ 4) : ∃ a' v' k', k' ≤ 4 ∧
        (busGroup a v).take k = (busGroup a' v').take k' ∧ (k' ≠ 0 → s.seq.cop = some (.bussend a' v')) :=
      ⟨a, v, k, hk, rfl, fun _ => hc⟩
    split
    · exact begun 1 (by decide)
    · split
      · exact begun 2 (by decide)
      · exact begun 1 (by decide)
    · exact begun 2 (by decide)
    · split
      · exact begun 3 (by decide)
      · exact begun 2 (by decide)
    · exact begun 3 (by decide)
    · exact begun 4 (by decide)
    · exact begun 0 (by decide)
  · exact ⟨0#8, 0#8, 0, by decide, rfl, fun h => absurd rfl h⟩

/-- Settles O35: the invariant's trace law, with the unfinished part as a beginning of a group. -/
theorem busTraceIsMadeOfGroups : Obligations.BusTraceIsMadeOfGroups := by
  intro s t h hs
  obtain ⟨groups, htrace⟩ := (h.step hs).block.bus.trace
  obtain ⟨a, v, k, hk, hgroup, hcop⟩ := groupSoFar_eq_take t
  exact ⟨groups, a, v, k, hk, hgroup ▸ htrace, hcop⟩

/-! ### the device (R161) -/

/-- The device latches whole groups one by one. -/
theorem potLog_groups_append (groups : List (Byte × Byte)) (rest : List BusEvent) :
    potLog (groups.flatMap (fun g => busGroup g.1 g.2) ++ rest) = groups ++ potLog rest := by
  induction groups with
  | nil => rfl
  | cons g groups ih => exact congrArg (g :: ·) ih

/-- Of an unfinished group it latches nothing. -/
theorem potLog_unfinished (a v : Byte) {k : Nat} (hk : k < 4) : potLog ((busGroup a v).take k) = [] := by
  interval_cases k <;> rfl

/-- Settles O36: the whole groups are latched in order, the unfinished one is not. -/
theorem deviceLatchesWholeGroupsOnly : Obligations.DeviceLatchesWholeGroupsOnly := by
  intro groups a v k hk
  rw [potLog_groups_append, potLog_unfinished a v hk, List.append_nil]

/-! ### below the byte (R160, R224) -/

/-- Settles O60: the wave of a byte is eight pulses written out, and so is its frame. -/
theorem linesCarryTheBitsInOrder : Obligations.LinesCarryTheBitsInOrder :=
  fun _ => ⟨rfl, rfl, rfl, rfl⟩

end Sys2Proof.Machine

/-! SUPPORT. BUSINIT, micro-step by micro-step (41_bus.md R152, R153). -/

namespace Sys2Proof.Machine

/-- The state i1 leaves: chip-select is an output at HIGH. -/
def State.afterI1 (s : State) : State := (s.configureOutput Config.pinBusCs .high).goto .businit 2

/-- The state i2 leaves: data is an output at LOW. -/
def State.afterI2 (s : State) : State := (s.configureOutput Config.pinBusData .low).goto .businit 3

/-- The state i3 leaves: the clock is an output at LOW. -/
def State.afterI3 (s : State) : State := (s.configureOutput Config.pinBusClk .low).goto .businit 4

/-- The state i4 leaves: the peripheral is enabled as master. -/
def State.afterI4 (s : State) : State :=
  (s.setBus { s.bus with ctl := { en := true, mstr := true, x2 := false }, rdy := false, busy := false }).goto .businit 5

/-- The state a BUSINIT leaves, undisturbed. -/
def State.initialised (s : State) : State := s.afterI1.afterI2.afterI3.afterI4.finish .done

theorem State.afterI1_pin (s : State) (p : Byte) :
    s.afterI1.pin p = if p = Config.pinBusCs then { dir := .output, level := .high } else s.pin p :=
  s.pin_configureOutput _ p _

theorem State.afterI2_pin (s : State) (p : Byte) :
    s.afterI2.pin p = if p = Config.pinBusData then { dir := .output, level := .low } else s.pin p :=
  s.pin_configureOutput _ p _

theorem State.afterI3_pin (s : State) (p : Byte) :
    s.afterI3.pin p = if p = Config.pinBusClk then { dir := .output, level := .low } else s.pin p :=
  s.pin_configureOutput _ p _

/-- i2, i3 and i4 leave chip-select. -/
theorem State.afterI2_pinCs (s : State) : s.afterI2.pin Config.pinBusCs = s.pin Config.pinBusCs := by
  rw [s.afterI2_pin, if_neg cs_ne_data.symm]

theorem State.afterI3_pinCs (s : State) : s.afterI3.pin Config.pinBusCs = s.pin Config.pinBusCs := by
  rw [s.afterI3_pin, if_neg cs_ne_clk.symm]

theorem State.afterI4_pinCs (s : State) : s.afterI4.pin Config.pinBusCs = s.pin Config.pinBusCs := rfl

/-- Every pin after a BUSINIT: the three of the bus are configured, the others are as before. -/
theorem State.initialised_pin (s : State) (p : Byte) : s.initialised.pin p =
    if p = Config.pinBusClk then { dir := .output, level := .low }
    else if p = Config.pinBusData then { dir := .output, level := .low }
    else if p = Config.pinBusCs then { dir := .output, level := .high }
    else s.pin p := by
  change s.afterI1.afterI2.afterI3.pin p = _
  rw [State.afterI3_pin, State.afterI2_pin, State.afterI1_pin]

theorem State.initialised_pinClk (s : State) :
    s.initialised.pin Config.pinBusClk = { dir := .output, level := .low } := by
  rw [s.initialised_pin, if_pos rfl]

theorem State.initialised_pinData (s : State) :
    s.initialised.pin Config.pinBusData = { dir := .output, level := .low } := by
  rw [s.initialised_pin, if_neg data_ne_clk.symm, if_pos rfl]

theorem State.initialised_pinCs (s : State) :
    s.initialised.pin Config.pinBusCs = { dir := .output, level := .high } := by
  rw [s.initialised_pin, if_neg cs_ne_clk.symm, if_neg cs_ne_data.symm, if_pos rfl]

theorem State.initialised_pin_other (s : State) {p : Byte} (h : isBusPin p = false) :
    s.initialised.pin p = s.pin p := by
  obtain ⟨hdata, hclk, hcs⟩ := ne_of_isBusPin_false h
  rw [s.initialised_pin, if_neg hclk, if_neg hdata, if_neg hcs]

/-- The bus after a BUSINIT (R152). -/
theorem State.initialised_bus (s : State) : s.initialised.bus =
    { s.bus with ctl := { en := true, mstr := true, x2 := false }, rdy := false, busy := false } := by
  simp [State.initialised, State.afterI1, State.afterI2, State.afterI3, State.afterI4]

/-- What a BUSINIT leaves: it touches the bus, its pins, the sequencer and the completion alone. -/
theorem State.initialised_frame (s : State) : Idle s.initialised ∧
    s.initialised.ports = { s.ports with rsp := .done } ∧ s.initialised.ring = s.ring ∧
    s.initialised.ssr = s.ssr ∧ s.initialised.ser = s.ser ∧ s.initialised.size = s.size ∧
    s.initialised.env = s.env := by
  simp [Idle, State.initialised, State.afterI1, State.afterI2, State.afterI3, State.afterI4]

theorem State.busInitialised_initialised (s : State) : BusInitialised s.initialised := by
  refine ⟨?_, by rw [s.initialised_pinCs], by rw [s.initialised_bus]⟩
  rw [State.busReady, s.initialised_pinData, s.initialised_pinClk, s.initialised_pinCs, s.initialised_bus]
  rfl

/-- BUSCTL as BUSINIT leaves it (R36, R152). -/
theorem BusCtl.image_on : BusCtl.image { en := true, mstr := true, x2 := false } = 0b011#8 := by decide

theorem exec_idle_businit {s : State} (hi : Idle s) : exec .businit s = .next s.afterI1 :=
  exec_businit_i1 (State.phaseOf_idle hi _)

theorem exec_afterI1 (s : State) : exec .businit s.afterI1 = .next s.afterI1.afterI2 :=
  exec_businit_i2 (State.phaseOf_goto ..)

theorem exec_afterI2 (s : State) : exec .businit s.afterI2 = .next s.afterI2.afterI3 :=
  exec_businit_i3 (State.phaseOf_goto ..)

theorem exec_afterI3 (s : State) : exec .businit s.afterI3 = .next s.afterI3.afterI4 :=
  exec_businit_i4 (State.phaseOf_goto ..)

theorem exec_afterI4 (s : State) : exec .businit s.afterI4 = .next (s.afterI4.finish .done) :=
  exec_businit_i5 (State.phaseOf_goto ..)

/-- Settles O28: the five micro-steps, of which i1 sets chip-select and no later one touches it. -/
theorem businitInitialisesTheBus : Obligations.BusinitInitialisesTheBus := by
  intro s hi
  have hcs1 : s.afterI1.pin Config.pinBusCs = { dir := .output, level := .high } := by
    rw [s.afterI1_pin, if_pos rfl]
  have hcs2 := s.afterI1.afterI2_pinCs.trans hcs1
  have hcs3 := s.afterI1.afterI2.afterI3_pinCs.trans hcs2
  have hcs4 := s.afterI1.afterI2.afterI3.afterI4_pinCs.trans hcs3
  refine ⟨s.afterI1, s.afterI1.afterI2, s.afterI1.afterI2.afterI3, s.afterI1.afterI2.afterI3.afterI4,
    s.initialised, exec_idle_businit hi, exec_afterI1 _, exec_afterI2 _, exec_afterI3 _, exec_afterI4 _, ?_,
    s.initialised_pinData, s.initialised_pinClk, fun p => s.initialised_pin_other, ?_⟩
  · simp only [List.forall_mem_cons, List.not_mem_nil, false_implies, implies_true, and_true]
    exact ⟨hcs1, hcs2, hcs3, hcs4, s.initialised_pinCs⟩
  · rw [s.initialised_bus]
    exact ⟨BusCtl.image_on, rfl, rfl, rfl, rfl, s.busInitialised_initialised, s.initialised_frame⟩

/-! ### a second BUSINIT (R153) -/

theorem Pins.eq_of_fields {x y : Pins} (hdir : x.dir = y.dir) (hlevel : x.level = y.level) : x = y := by
  cases x; cases y; cases hdir; cases hlevel; rfl

/-- Two states with the same pins one by one have the same pins. -/
theorem State.pins_ext {s t : State} (h : ∀ p, t.pin p = s.pin p) : t.pins = s.pins := by
  have hp (i : Nat) (hi : i < 256) : t.pins.dir[i] = s.pins.dir[i] ∧ t.pins.level[i] = s.pins.level[i] := by
    simpa [State.pin, Nat.mod_eq_of_lt hi] using h (BitVec.ofNat 8 i)
  exact Pins.eq_of_fields (Vector.ext fun i hi => (hp i hi).1) (Vector.ext fun i hi => (hp i hi).2)

theorem microSteps_businit {s : State} (hi : Idle s) : microSteps 5 .businit s = .next s.initialised := by
  rw [microSteps_succ _ (exec_idle_businit hi), microSteps_succ _ (exec_afterI1 _),
    microSteps_succ _ (exec_afterI2 _), microSteps_succ _ (exec_afterI3 _), microSteps_succ _ (exec_afterI4 _)]
  rfl

/-- What a BUSINIT sets it has set already. -/
theorem State.initialised_again (s : State) :
    s.initialised.initialised.bus = s.initialised.bus ∧ s.initialised.initialised.pins = s.initialised.pins := by
  refine ⟨?_, State.pins_ext fun p => ?_⟩
  · rw [State.initialised_bus s.initialised, s.initialised_bus]
  · rw [State.initialised_pin s.initialised, s.initialised_pin]
    split_ifs <;> rfl

/-- Settles O29: both runs set the same pins and the same control register, and touch nothing else of
the block. -/
theorem secondBusinitChangesNothing : Obligations.SecondBusinitChangesNothing := by
  intro s hi
  obtain ⟨hidle, -⟩ := s.initialised_frame
  obtain ⟨-, -, hring, hssr, hser, -⟩ := s.initialised.initialised_frame
  obtain ⟨hbus, hpins⟩ := s.initialised_again
  exact ⟨s.initialised, s.initialised.initialised, microSteps_businit hi, microSteps_businit hidle, hbus, hpins,
    hring, hssr, hser⟩

end Sys2Proof.Machine

/-! SUPPORT. BUSSEND, micro-step by micro-step, and the bus engine (41_bus.md R154 to R158). -/

namespace Sys2Proof.Machine

/-! ### the engine (R158) -/

theorem State.busDoneEnabled_iff (s : State) :
    s.busDoneEnabled = true ↔ s.bus.busy = true ∧ s.bus.ctl.en = true ∧ s.bus.ctl.mstr = true := by
  simp [State.busDoneEnabled, and_assoc]

theorem State.busDone_enabled {s : State} (h : s.busDoneEnabled = true) : s.busDone =
    s.setBus { s.bus with trace := s.bus.trace ++ [.xfer s.bus.dat], busy := false, rdy := true } := if_pos h

theorem State.busDone_disabled {s : State} (h : s.busDoneEnabled ≠ true) : s.busDone = s := if_neg h

/-- Settles O33: whether the engine is enabled decides what its step does. -/
theorem busEngineFinishesOneTransfer : Obligations.BusEngineFinishesOneTransfer := by
  intro s
  refine ⟨s.busDone, rfl, ?_⟩
  rw [← State.busDoneEnabled_iff]
  exact ⟨State.busDone_enabled, State.busDone_disabled⟩

/-! ### refused before BUSINIT (R157) -/

/-- Settles O31: s1 tests the bus, which reset leaves disabled. -/
theorem bussendBeforeBusinitIsRefused : Obligations.BussendBeforeBusinitIsRefused :=
  ⟨fun _ _ _ hi hr => exec_bussend_s1_refused (State.phaseOf_idle hi _) hr,
    fun _ _ _ _ => exec_bussend_s1_refused (State.phaseOf_idle rfl _) rfl⟩

/-! ### one transaction (R154) -/

/-- The state s1 leaves: the operands in the temporaries, chip-select LOW. -/
def State.afterS1 (s : State) (a v : Byte) : State :=
  (((s.setSeq { s.seq with tAddr := a, tVal := v }).driveLevel Config.pinBusCs .low).emitBus .csFall).goto (.bussend a v) 2

/-- The state s2 or s4 leaves: BUSDAT written with `d`, the wait `k` due. -/
def State.afterWrite (s : State) (a v d : Byte) (k : Nat) : State := (s.writeBusdat d).goto (.bussend a v) k

/-- The state s3 or s5 leaves when the engine has shifted the byte that was written. -/
def State.afterTransfer (s : State) (a v d : Byte) (k : Nat) : State :=
  (s.afterWrite a v d k).busDone.goto (.bussend a v) (k + 1)

/-- The state s6 leaves: chip-select HIGH. -/
def State.afterS6 (s : State) (a v : Byte) : State :=
  ((s.driveLevel Config.pinBusCs .high).emitBus .csRise).goto (.bussend a v) 7

/-- The state after s5 of a BUSSEND from IDLE: both bytes are on the bus, chip-select is still LOW. -/
def State.bothShifted (s : State) (a v : Byte) : State :=
  ((s.afterS1 a v).afterTransfer a v a 3).afterTransfer a v v 5

/-- The state a BUSSEND leaves, each of its writes answered by the engine. -/
def State.sent (s : State) (a v : Byte) : State := ((s.bothShifted a v).afterS6 a v).finish .done

section Transaction

variable (s : State) (a v d : Byte) (k : Nat)

theorem State.afterWrite_bus :
    (s.afterWrite a v d k).bus = { s.bus with dat := d, rdy := false, busy := true } := by
  simp [State.afterWrite]

/-- A write is answered when the peripheral is enabled as master (R158). -/
theorem State.busDone_afterWrite_bus (hen : s.bus.ctl.en = true) (hm : s.bus.ctl.mstr = true) :
    (s.afterWrite a v d k).busDone.bus =
      { s.bus with dat := d, rdy := true, busy := false, trace := s.bus.trace ++ [.xfer d] } := by
  have hon : (s.afterWrite a v d k).busDoneEnabled = true := by
    rw [State.busDoneEnabled_iff, State.afterWrite_bus]
    exact ⟨rfl, hen, hm⟩
  rw [State.busDone_bus, if_pos hon, State.afterWrite_bus]

theorem State.phaseOf_busDone_afterWrite : (s.afterWrite a v d k).busDone.phaseOf (.bussend a v) = some k := by
  rw [State.phaseOf_of_seq (State.busDone_seq _)]
  exact State.phaseOf_goto ..

theorem State.afterTransfer_bus (hen : s.bus.ctl.en = true) (hm : s.bus.ctl.mstr = true) :
    (s.afterTransfer a v d k).bus =
      { s.bus with dat := d, rdy := true, busy := false, trace := s.bus.trace ++ [.xfer d] } :=
  s.busDone_afterWrite_bus a v d k hen hm

theorem State.afterTransfer_ctl : (s.afterTransfer a v d k).bus.ctl = s.bus.ctl := by
  obtain ⟨-, hctl, -⟩ := (s.afterWrite a v d k).busDone_frame
  exact hctl

theorem State.afterTransfer_pins : (s.afterTransfer a v d k).pins = s.pins := by
  simp [State.afterTransfer, State.afterWrite]

theorem exec_afterTransfer_s3 (hen : s.bus.ctl.en = true) (hm : s.bus.ctl.mstr = true) :
    exec (.bussend a v) (s.afterWrite a v d 3).busDone = .next (s.afterTransfer a v d 3) := by
  rw [exec_bussend_s3 (s.phaseOf_busDone_afterWrite a v d 3), s.busDone_afterWrite_bus a v d 3 hen hm]
  rfl

theorem exec_afterTransfer_s5 (hen : s.bus.ctl.en = true) (hm : s.bus.ctl.mstr = true) :
    exec (.bussend a v) (s.afterWrite a v d 5).busDone = .next (s.afterTransfer a v d 5) := by
  rw [exec_bussend_s5 (s.phaseOf_busDone_afterWrite a v d 5), s.busDone_afterWrite_bus a v d 5 hen hm]
  rfl

theorem State.afterS1_bus : (s.afterS1 a v).bus = { s.bus with trace := s.bus.trace ++ [.csFall] } := by
  simp [State.afterS1]

theorem State.afterS1_ctl : (s.afterS1 a v).bus.ctl = s.bus.ctl := by rw [State.afterS1_bus]

theorem State.afterS1_pin (p : Byte) : (s.afterS1 a v).pin p =
    if p = Config.pinBusCs then { dir := (s.pin Config.pinBusCs).dir, level := .low } else s.pin p :=
  (s.setSeq _).pin_driveLevel _ p _

theorem State.afterS6_pin (p : Byte) : (s.afterS6 a v).pin p =
    if p = Config.pinBusCs then { dir := (s.pin Config.pinBusCs).dir, level := .high } else s.pin p :=
  s.pin_driveLevel _ p _

/-- s2 writes the operand s1 has stored. -/
theorem exec_afterS1 : exec (.bussend a v) (s.afterS1 a v) = .next ((s.afterS1 a v).afterWrite a v a 3) :=
  exec_bussend_s2 (State.phaseOf_goto ..)

/-- s4 writes the other one. -/
theorem exec_afterS3 : exec (.bussend a v) ((s.afterS1 a v).afterTransfer a v a 3) =
    .next (((s.afterS1 a v).afterTransfer a v a 3).afterWrite a v v 5) := by
  have hval : ((s.afterS1 a v).afterTransfer a v a 3).seq.tVal = v := by
    simp [State.afterTransfer, State.afterWrite, State.afterS1]
  have hs4 := exec_bussend_s4 (s := (s.afterS1 a v).afterTransfer a v a 3) (State.phaseOf_goto ..)
  rwa [hval] at hs4

theorem exec_bothShifted :
    exec (.bussend a v) (s.bothShifted a v) = .next ((s.bothShifted a v).afterS6 a v) :=
  exec_bussend_s6 (State.phaseOf_goto ..)

theorem exec_afterS6 : exec (.bussend a v) (s.afterS6 a v) = .next ((s.afterS6 a v).finish .done) :=
  exec_bussend_s7 (State.phaseOf_goto ..)

/-- Between s1 and s6 every pin is as s1 left it. -/
theorem State.bothShifted_pin (p : Byte) : (s.bothShifted a v).pin p = (s.afterS1 a v).pin p :=
  State.pin_eq_of ((State.afterTransfer_pins ..).trans (State.afterTransfer_pins ..)) p

theorem State.sent_pin (p : Byte) : (s.sent a v).pin p =
    if p = Config.pinBusCs then { dir := (s.pin Config.pinBusCs).dir, level := .high } else s.pin p := by
  change ((s.bothShifted a v).afterS6 a v).pin p = _
  rw [State.afterS6_pin, State.bothShifted_pin, State.bothShifted_pin, State.afterS1_pin, if_pos rfl,
    State.afterS1_pin]
  split_ifs <;> rfl

/-- The trace gains one whole group (R159). -/
theorem State.sent_bus (hen : s.bus.ctl.en = true) (hm : s.bus.ctl.mstr = true) : (s.sent a v).bus =
    { s.bus with dat := v, rdy := true, busy := false,
                 trace := s.bus.trace ++ [.csFall, .xfer a, .xfer v, .csRise] } := by
  have hctl1 := s.afterS1_ctl a v
  have hctl3 := ((s.afterS1 a v).afterTransfer_ctl a v a 3).trans hctl1
  have hboth : (s.bothShifted a v).bus = { s.bus with
      dat := v, rdy := true, busy := false, trace := s.bus.trace ++ [.csFall] ++ [.xfer a] ++ [.xfer v] } := by
    rw [State.bothShifted, State.afterTransfer_bus _ _ _ _ _ (by rwa [hctl3]) (by rwa [hctl3]),
      State.afterTransfer_bus _ _ _ _ _ (by rwa [hctl1]) (by rwa [hctl1]), State.afterS1_bus]
  simp [State.sent, State.afterS6, hboth]

/-- What a BUSSEND leaves: it touches the bus, chip-select, the sequencer and the completion alone. -/
theorem State.sent_frame : Idle (s.sent a v) ∧ (s.sent a v).ports = { s.ports with rsp := .done } ∧
    (s.sent a v).ring = s.ring ∧ (s.sent a v).ssr = s.ssr ∧ (s.sent a v).ser = s.ser ∧
    (s.sent a v).size = s.size ∧ (s.sent a v).env = s.env := by
  simp [Idle, State.sent, State.bothShifted, State.afterS6, State.afterTransfer, State.afterWrite, State.afterS1]

end Transaction

/-- The precondition of BUSSEND has the peripheral enabled as master (R157). -/
theorem State.ctl_of_busReady {s : State} (h : s.busReady = true) :
    s.bus.ctl.en = true ∧ s.bus.ctl.mstr = true := by
  simp only [State.busReady, Bool.and_eq_true] at h
  obtain ⟨⟨⟨⟨hen, hm⟩, -⟩, -⟩, -⟩ := h
  exact ⟨hen, hm⟩

/-- Settles O30: the seven micro-steps with the engine's two, of which s1 and s6 alone touch a pin. -/
theorem bussendIsOneFramedTransaction : Obligations.BussendIsOneFramedTransaction := by
  intro s a v hi hr
  obtain ⟨hen, hm⟩ := State.ctl_of_busReady hr
  let s1 := s.afterS1 a v
  let s3 := s1.afterTransfer a v a 3
  have hctl1 : s1.bus.ctl = s.bus.ctl := s.afterS1_ctl a v
  have hctl3 : s3.bus.ctl = s.bus.ctl := (s1.afterTransfer_ctl a v a 3).trans hctl1
  have hlow {x : State} (hx : x.pins = s1.pins) : (x.pin Config.pinBusCs).level = .low := by
    rw [State.pin_eq_of hx, s.afterS1_pin, if_pos rfl]
  have hpins3 : s3.pins = s1.pins := s1.afterTransfer_pins a v a 3
  refine ⟨s1, s1.afterWrite a v a 3, s3, s3.afterWrite a v v 5, s.bothShifted a v, (s.bothShifted a v).afterS6 a v,
    s.sent a v, exec_bussend_s1 (State.phaseOf_idle hi _) hr, exec_afterS1 s a v,
    exec_afterTransfer_s3 s1 a v a (by rwa [hctl1]) (by rwa [hctl1]), exec_afterS3 s a v,
    exec_afterTransfer_s5 s3 a v v (by rwa [hctl3]) (by rwa [hctl3]), exec_bothShifted s a v,
    exec_afterS6 _ a v, ?_, ?_⟩
  · simp only [List.forall_mem_cons, List.not_mem_nil, false_implies, implies_true, and_true]
    exact ⟨hlow rfl, hlow rfl, hlow hpins3, hlow hpins3, hlow ((s3.afterTransfer_pins a v v 5).trans hpins3)⟩
  · rw [State.afterWrite_bus, State.afterWrite_bus, s.afterS1_bus, s.sent_bus a v hen hm, s.sent_pin, if_pos rfl]
    exact ⟨rfl, rfl, rfl, rfl, rfl, rfl, rfl, rfl, fun p hp => by rw [s.sent_pin, if_neg hp], rfl, s.sent_frame a v⟩

/-! ### the wait for RDY (R156) -/

/-- Moving on in the operation in flight changes its micro-step alone. -/
theorem State.goto_inflight {s : State} {i : Instr} (h : s.seq.cop = some i) (k : Nat) :
    s.goto i k = s.setSeq { s.seq with cphase := k } := by
  rw [State.goto, ← h]

/-- Only the two operations of the bus change it. -/
theorem exec_bus_cases {i : Instr} {s t : State} (h : exec i s = .next t) :
    i = .businit ∨ (∃ a v, i = .bussend a v) ∨ t.bus = s.bus := by
  cases i with
  | push b => injection h with h; subst h; simp
  | avail =>
    obtain ⟨-, -, -, hbus, -⟩ := execAvail_frame h
    exact .inr (.inr hbus)
  | pop =>
    obtain ⟨-, -, -, hbus, -⟩ := execPop_frame h
    exact .inr (.inr hbus)
  | businit => exact .inl rfl
  | bussend a v => exact .inr (.inl ⟨a, v, rfl⟩)
  | rdButton1 | rdDrivemode | rdJoyx | rdJoyy | rdSpeedknob | rdLeds | rdFlash =>
    obtain ⟨-, -, -, hbus, -⟩ := returnField_frame h
    exact .inr (.inr hbus)
  | wrDrivemode v =>
    obtain ⟨-, -, hbus, -⟩ := writeRecord_frame (execWrDrivemode_cases h).2
    exact .inr (.inr hbus)
  | wrButton1 v | wrJoyx v | wrJoyy v | wrSpeedknob v | wrLeds v | wrFlash v =>
    obtain ⟨-, -, hbus, -⟩ := writeRecord_frame (r := _) h
    exact .inr (.inr hbus)
  | pincfg p l =>
    obtain ⟨-, -, hbus, -⟩ := execPincfg_frame h
    exact .inr (.inr hbus)
  | txbyte ch =>
    obtain ⟨-, -, -, hbus, -⟩ := execTxbyte_frame h
    exact .inr (.inr hbus)

/-- No micro-step of any operation raises RDY. -/
theorem exec_rdy_false {i : Instr} {s t : State} (h : exec i s = .next t) (hr : s.bus.rdy = false) :
    t.bus.rdy = false := by
  obtain rfl | ⟨a, v, rfl⟩ | hbus := exec_bus_cases h
  · rcases execBusinit_cases h with ⟨-, rfl⟩ | ⟨-, rfl⟩ | ⟨-, rfl⟩ | ⟨-, rfl⟩ | ⟨-, rfl⟩ | ⟨k, -, -, -, -, -, rfl⟩
    case inr.inr.inr.inr.inl => rfl
    all_goals exact hr
  · rcases execBussend_cases h with ⟨-, rfl⟩ | ⟨-, -, rfl⟩ | ⟨-, rfl⟩ | ⟨-, -, rfl⟩ | ⟨-, rfl⟩ | ⟨-, -, rfl⟩ |
      ⟨-, -, rfl⟩ | ⟨-, rfl⟩ | ⟨k, -, -, -, -, -, -, -, rfl⟩
    case inr.inr.inl | inr.inr.inr.inr.inl => rfl
    all_goals exact hr
  · rw [hbus, hr]

/-- The engine alone raises RDY. -/
theorem eq_busDone_of_rdy {e : Event} {s t : State} (hf : fire e s = .next t) (hs : s.bus.rdy = false)
    (ht : t.bus.rdy = true) : e = .busDone := by
  have clash (hlow : t.bus.rdy = false) : e = .busDone := by rw [hlow] at ht; exact nomatch ht
  rcases fire_cases hf with ⟨env, rfl, -⟩ | ⟨b, w, -, -, hx⟩ | ⟨i, -, -, hx⟩ | ⟨i, env, -, -, -, -, hx⟩ |
    ⟨he, -⟩ | ⟨-, rfl⟩ | ⟨f, -, ho⟩ | ⟨-, rfl⟩ | ⟨d, -, rfl⟩
  · exact clash hs
  · exact clash (exec_rdy_false hx hs)
  · exact clash (exec_rdy_false hx hs)
  · exact clash (exec_rdy_false hx hs)
  · exact he
  · exact clash (by rw [State.txDone_bus, hs])
  · obtain ⟨v, -, rfl⟩ := observe_cases ho
    exact clash hs
  · exact clash (by rw [State.configureSerial_bus, hs])
  · exact clash rfl

/-- Settles O32: s3 and s5 branch on RDY and change the micro-step at most. -/
theorem bussendWaitsUntilReady : Obligations.BussendWaitsUntilReady := by
  refine ⟨fun s a v hc hk => ?_, fun e s t => eq_busDone_of_rdy⟩
  have hphase := State.phaseOf_same hc
  rcases hk with hk | hk <;> rw [hk] at hphase
  · rw [exec_bussend_s3 hphase, State.goto_inflight hc, hk]
    exact ⟨fun hr => by rw [hr]; rfl, fun hr => by rw [hr]; rfl⟩
  · rw [exec_bussend_s5 hphase, State.goto_inflight hc, hk]
    exact ⟨fun hr => by rw [hr]; rfl, fun hr => by rw [hr]; rfl⟩

end Sys2Proof.Machine

/-! SUPPORT. A BUSSEND along a run: it hangs without BUS.DONE, and it returns if the bus responds
(41_bus.md R165, R167). -/

namespace Sys2Proof.Machine

/-! ### one event while an operation is in flight -/

/-- The sequencer, the bus, the pins and the record are kept. -/
structure TransactionKept (s t : State) : Prop where
  seq  : t.seq = s.seq
  bus  : t.bus = s.bus
  pins : t.pins = s.pins
  ssr  : t.ssr = s.ssr

theorem TransactionKept.refl (s : State) : TransactionKept s s := ⟨rfl, rfl, rfl, rfl⟩

theorem TransactionKept.trans {s t u : State} (h : TransactionKept s t) (h' : TransactionKept t u) :
    TransactionKept s u :=
  ⟨h'.seq.trans h.seq, h'.bus.trans h.bus, h'.pins.trans h.pins, h'.ssr.trans h.ssr⟩

theorem Pushed.transactionKept {s t : State} (h : Pushed s t) : TransactionKept s t := ⟨h.seq, h.bus, h.pins, h.ssr⟩

/-- While an operation is in flight, only its own next micro-step, the bus engine and power-on touch the
sequencer, the bus, the pins or the record. -/
theorem fire_inflight {e : Event} {i : Instr} {s t : State} (hc : s.seq.cop = some i) (hf : fire e s = .next t) :
    (e = .consumer ∧ exec i s = .next t) ∨ (e = .busDone ∧ t = s.busDone) ∨
    (∃ d, e = .powerOn d ∧ t = s.powerOn d) ∨ TransactionKept s t := by
  rcases fire_cases hf with ⟨env, rfl, -⟩ | ⟨b, w, -, -, hx⟩ | ⟨j, he, hj, hx⟩ | ⟨j, env, -, hn, -⟩ | ⟨he, rfl⟩ |
    ⟨-, rfl⟩ | ⟨f, -, ho⟩ | ⟨-, rfl⟩ | ⟨d, he, rfl⟩
  · exact .inr (.inr (.inr ⟨rfl, rfl, rfl, rfl⟩))
  · injection hx with hx
    exact .inr (.inr (.inr (hx ▸ (Pushed.one s b).transactionKept)))
  · obtain rfl : i = j := Option.some.inj (hc.symm.trans hj)
    exact .inl ⟨he, hx⟩
  · rw [hc] at hn
    exact nomatch hn
  · exact .inr (.inl ⟨he, rfl⟩)
  · exact .inr (.inr (.inr ⟨s.txDone_seq, s.txDone_bus, s.txDone_pins, s.txDone_ssr⟩))
  · obtain ⟨v, -, rfl⟩ := observe_cases ho
    exact .inr (.inr (.inr ⟨rfl, rfl, rfl, rfl⟩))
  · exact .inr (.inr (.inr ⟨s.configureSerial_seq, s.configureSerial_bus, s.configureSerial_pins,
      s.configureSerial_ssr⟩))
  · exact .inr (.inr (.inl ⟨d, he, rfl⟩))

/-! ### without BUS.DONE (R165) -/

/-- A BUSSEND that waits is left waiting by every event but BUS.DONE and power-on. -/
theorem fire_waiting {e : Event} {s t : State} {a v : Byte} (hc : s.seq.cop = some (.bussend a v))
    (hk : s.seq.cphase = 3 ∨ s.seq.cphase = 5) (hr : s.bus.rdy = false) (hdone : e ≠ .busDone)
    (hon : isPowerOn e = false) (hf : fire e s = .next t) : TransactionKept s t := by
  obtain ⟨-, hx⟩ | ⟨he, -⟩ | ⟨d, rfl, -⟩ | hkept := fire_inflight hc hf
  · have hwait := (bussendWaitsUntilReady.1 s a v hc hk).1 hr
    rw [hwait] at hx
    injection hx with hx
    exact hx ▸ .refl s
  · exact absurd he hdone
  · exact nomatch hon
  · exact hkept

/-- Settles O37: what decides that the BUSSEND waits is kept from step to step. -/
theorem bussendHangsWithoutBusDone : Obligations.BussendHangsWithoutBusDone := by
  intro ev run a v hrun hev hc hk hr n
  have hkept : TransactionKept (run 0) (run n) := by
    induction n with
    | zero => exact .refl _
    | succ n ih =>
      refine ih.trans (fire_waiting (a := a) (v := v) ?_ ?_ ?_ (hev n).1 (hev n).2 (hrun n))
      · rw [ih.seq, hc]
      · rw [ih.seq]; exact hk
      · rw [ih.bus, hr]
  refine ⟨hkept.seq, hkept.bus, hkept.pins, hkept.ssr, .inl ⟨a, v, ?_⟩⟩
  rw [hkept.seq, hkept.bus]
  exact ⟨hc, hk, hr⟩

/-! ### if the bus responds (R167) -/

/-- The invariant holds all along a run that starts in it. -/
theorem IsRun.inv {ev : Nat → Event} {run : Nat → State} (hrun : IsRun ev run) (h : Inv (run 0)) (k : Nat) :
    Inv (run k) := by
  induction k with
  | zero => exact h
  | succ k ih => exact ih.fire (hrun k)

/-- If `P` persists until `Q` holds, and the event `e` brings `Q` about while `P` holds, then `Q` holds at
some moment once `e` is to come. -/
theorem exists_of_persists {ev : Nat → Event} {run : Nat → State} {P Q : State → Prop} {e : Event}
    (hstep : ∀ k, P (run k) → P (run (k + 1)) ∨ Q (run (k + 1)))
    (hevent : ∀ k, ev k = e → P (run k) → Q (run (k + 1)))
    {k j : Nat} (hkj : k ≤ j) (hj : ev j = e) (hP : P (run k)) : ∃ n, Q (run n) := by
  induction hkj using Nat.decreasingInduction with
  | self => exact ⟨j + 1, hevent j hj hP⟩
  | of_succ k _ ih =>
    rcases hstep k hP with hP' | hQ
    · exact ih hP'
    · exact ⟨k + 1, hQ⟩

/-- How far a BUSSEND is from its end: two for each micro-step left, one for a byte not yet shifted. -/
def sendDistance (s : State) : Nat := 2 * (8 - s.seq.cphase) + (if s.bus.rdy then 0 else 1)

/-- The operation in flight has ended, or it is nearer to its end. -/
def Nearer (s t : State) : Prop :=
  t.seq.cop = none ∨ (t.seq.cop = s.seq.cop ∧ sendDistance t < sendDistance s)

/-- Going on to a later micro-step is nearer, whatever becomes of RDY. -/
theorem Nearer.of_later {s t : State} (hc : t.seq.cop = s.seq.cop) (hlt : s.seq.cphase < t.seq.cphase)
    (hle : t.seq.cphase ≤ 8) : Nearer s t := by
  refine .inr ⟨hc, ?_⟩
  unfold sendDistance
  split_ifs <;> omega

/-- The consumer's turn takes a BUSSEND nearer to its end, unless a transfer is in flight. -/
theorem exec_bussend_nearer {a v : Byte} {s t : State} (hq : SeqOk s) (hc : s.seq.cop = some (.bussend a v))
    (hx : exec (.bussend a v) s = .next t) : (transferring s = true ∧ t = s) ∨ Nearer s t := by
  obtain ⟨h2, -⟩ := (SeqOk.bussend_iff hc).1 hq
  have hphase : s.phaseOf (.bussend a v) = some s.seq.cphase := State.phaseOf_same hc
  have later {u : State} {k : Nat} (hk : s.phaseOf (.bussend a v) = some k) (hu : u.seq.cop = s.seq.cop)
      (huk : u.seq.cphase = k + 1) (hk8 : k < 8) : Nearer s u := by
    have hsk : s.seq.cphase = k := Option.some.inj (hphase.symm.trans hk)
    exact .of_later hu (by omega) (by omega)
  rcases execBussend_cases hx with ⟨hn, -⟩ | ⟨h1, -, -⟩ | ⟨hk, rfl⟩ | ⟨hk, -, rfl⟩ | ⟨hk, rfl⟩ | ⟨hk, -, rfl⟩ |
    ⟨hk, hr, rfl⟩ | ⟨hk, rfl⟩ | ⟨k, -, -, -, -, -, -, -, rfl⟩
  · exact nomatch hphase.symm.trans hn
  · have := Option.some.inj (hphase.symm.trans h1)
    omega
  · exact .inr (later hk hc.symm rfl (by decide))
  · exact .inr (later hk hc.symm rfl (by decide))
  · exact .inr (later hk hc.symm rfl (by decide))
  · exact .inr (later hk hc.symm rfl (by decide))
  · rw [hphase, Option.some.injEq, Option.some.injEq] at hk
    exact .inl ⟨by simp [transferring, hc, hk, hr], rfl⟩
  · exact .inr (later hk hc.symm rfl (by decide))
  · exact .inr (.inl rfl)

/-- Inside a BUSSEND the engine is enabled exactly while a transfer is in flight (R155, R158). -/
theorem BusOk.busDoneEnabled {a v : Byte} {s : State} (h : BusOk s) (hc : s.seq.cop = some (.bussend a v)) :
    s.busDoneEnabled = transferring s := by
  have hen := h.enabled a v hc
  have hm : s.bus.ctl.mstr = true := by
    rcases h.ctl with hctl | hctl
    · rw [hctl] at hen; exact nomatch hen
    · rw [hctl]
  rw [State.busDoneEnabled, hen, hm, h.busy, Bool.and_true, Bool.and_true]

/-- The engine's step takes a BUSSEND nearer to its end while a transfer is in flight. -/
theorem busDone_nearer {a v : Byte} {s : State} (h : BusOk s) (hc : s.seq.cop = some (.bussend a v))
    (ht : transferring s = true) : Nearer s s.busDone := by
  have hr : s.bus.rdy = false := by
    simp only [transferring, hc, Bool.and_eq_true, Bool.not_eq_true'] at ht
    exact ht.2
  rw [State.busDone_enabled ((h.busDoneEnabled hc).trans ht)]
  exact .inr ⟨rfl, by simp [sendDistance, hr]⟩

/-- Every event leaves a BUSSEND where it is or takes it nearer to its end. -/
theorem fire_kept_or_nearer {e : Event} {a v : Byte} {s t : State} (h : Inv s)
    (hc : s.seq.cop = some (.bussend a v)) (hf : fire e s = .next t) : TransactionKept s t ∨ Nearer s t := by
  obtain ⟨-, hx⟩ | ⟨-, rfl⟩ | ⟨d, -, rfl⟩ | hkept := fire_inflight hc hf
  · obtain ⟨-, rfl⟩ | hn := exec_bussend_nearer h.block.seq hc hx
    · exact .inl (.refl t)
    · exact .inr hn
  · cases ht : transferring s with
    | true => exact .inr (busDone_nearer h.block.bus hc ht)
    | false =>
      rw [State.busDone_disabled (by rw [h.block.bus.busDoneEnabled hc, ht]; exact Bool.false_ne_true)]
      exact .inl (.refl s)
  · exact .inr (.inl rfl)
  · exact .inl hkept

theorem TransactionKept.transferring_eq {s t : State} (h : TransactionKept s t) : transferring t = transferring s := by
  rw [transferring, transferring, h.seq, h.bus]

theorem TransactionKept.nearer {s t u : State} (h : TransactionKept s t) (hn : Nearer t u) : Nearer s u := by
  rwa [Nearer, sendDistance, sendDistance, ← h.seq, ← h.bus]

/-- Under both fairness premises a BUSSEND in flight gets nearer to its end: BUS.DONE comes while a transfer
is in flight, and otherwise the consumer's turn comes. -/
theorem exists_nearer {ev : Nat → Event} {run : Nat → State} {a v : Byte} (hrun : IsRun ev run) (h : Inv (run 0))
    (hbus : BusResponds ev run) (hcons : ConsumerRuns ev) {k : Nat}
    (hc : (run k).seq.cop = some (.bussend a v)) : ∃ n, Nearer (run k) (run n) := by
  have hinv := hrun.inv h
  have hcop {n : Nat} (hkept : TransactionKept (run k) (run n)) : (run n).seq.cop = some (.bussend a v) := by
    rw [hkept.seq, hc]
  have hstep (n : Nat) (hkept : TransactionKept (run k) (run n)) :
      TransactionKept (run k) (run (n + 1)) ∨ Nearer (run k) (run (n + 1)) :=
    (fire_kept_or_nearer (hinv n) (hcop hkept) (hrun n)).imp hkept.trans hkept.nearer
  cases ht : transferring (run k) with
  | true =>
    obtain ⟨j, hkj, hj⟩ := hbus k (((hinv k).block.bus.busDoneEnabled hc).trans ht)
    refine exists_of_persists (P := TransactionKept (run k)) hstep (fun n hn hkept => ?_) hkj hj (.refl _)
    have hf := hrun n
    rw [hn] at hf
    injection hf with hf
    exact hkept.nearer (hf ▸ busDone_nearer (hinv n).block.bus (hcop hkept) (hkept.transferring_eq.trans ht))
  | false =>
    obtain ⟨j, hkj, hj⟩ := hcons k
    refine exists_of_persists (P := TransactionKept (run k)) hstep (fun n hn hkept => ?_) hkj hj (.refl _)
    have hf := hrun n
    rw [hn, fire_consumer_busy (hcop hkept)] at hf
    obtain ⟨ht', -⟩ | hnear := exec_bussend_nearer (hinv n).block.seq (hcop hkept) hf
    · rw [hkept.transferring_eq, ht] at ht'
      exact nomatch ht'
    · exact hkept.nearer hnear

/-- Settles O38: by induction on the distance to the end. -/
theorem bussendReturnsIfTheBusResponds : Obligations.BussendReturnsIfTheBusResponds := by
  intro ev run a v hrun h hbus hcons hc
  have hends (d : Nat) : ∀ k, sendDistance (run k) = d → (run k).seq.cop = some (.bussend a v) →
      ∃ n, (run n).seq.cop = none := by
    induction d using Nat.strong_induction_on with
    | _ d ih =>
      intro k hd hk
      obtain ⟨n, hend | ⟨hsame, hlt⟩⟩ := exists_nearer hrun h hbus hcons hk
      · exact ⟨n, hend⟩
      · exact ih _ (hd ▸ hlt) n rfl (hsame.trans hk)
  exact hends _ 0 rfl hc

end Sys2Proof.Machine

/-! SUPPORT. The Shared State Record: what each RD.f returns, what each WR.f stores, and what no other agent
changes (42_shared_state.md R181 to R201). -/

namespace Sys2Proof

/-- A word of format B is its opcode with the operand in the low byte (R92, R93). -/
theorem mkWord_operand (op v : Byte) : mkWord op 0#8 v = mkWord op 0#8 0#8 ||| v.setWidth 24 := by
  refine BitVec.eq_of_toNat_eq ?_
  have hv : v.toNat < 2 ^ 24 := lt_trans v.isLt (by decide)
  simp only [mkWord, BitVec.toNat_append, BitVec.toNat_or, BitVec.toNat_setWidth, Nat.mod_eq_of_lt hv,
    BitVec.toNat_zero, Nat.or_zero]

/-- A one-bit operand widened to a word, through its operand byte or at once. -/
theorem setWidth_oneBit (b : BitVec 1) : (b.setWidth 8).setWidth 24 = b.setWidth 24 := by
  revert b; decide

/-- A format B1 word with any of bits 7 to 1 set is refused (R99). -/
theorem formatB1_reserved {w : Word} {k : BitVec 1 → Instr} (h : (bField w).extractLsb' 1 7 ≠ 0#7) :
    formatB1 w k = .error .operandNotZero := if_neg fun hz => h hz.2

theorem decode_wrButton1_reserved {w : Word} (hop : opField w = 0x38#8) (h : (bField w).extractLsb' 1 7 ≠ 0#7) :
    decode w = .error .operandNotZero := by
  rw [decode, hop]
  exact formatB1_reserved h

end Sys2Proof

namespace Sys2Proof.Machine

/-! ### RD.f (R182 to R188) -/

/-- The seven reads, in the order of their field numbers (R97). -/
def recordReads : List Instr := [.rdButton1, .rdDrivemode, .rdJoyx, .rdJoyy, .rdSpeedknob, .rdLeds, .rdFlash]

/-- From IDLE a read returns the field its word names by number (R97). -/
theorem exec_read_idle {g : Instr} (hg : g ∈ recordReads) {s : State} (hi : Idle s) :
    ∃ v, s.ssr.field (fieldNumber (encode g)) = some v ∧ exec g s = .next (s.finish (.value v)) := by
  simp only [recordReads, List.mem_cons, List.not_mem_nil, or_false] at hg
  rcases hg with rfl | rfl | rfl | rfl | rfl | rfl | rfl
  all_goals exact ⟨_, rfl, returnField_idle hi _⟩

theorem zext8_oneBit (b : BitVec 1) : zext8 b = 0#8 ∨ zext8 b = 1#8 := by
  revert b; decide

theorem zext8_mode {m : BitVec 2} (h : m ≠ 3#2) : zext8 m = 0#8 ∨ zext8 m = 1#8 ∨ zext8 m = 2#8 := by
  revert m; decide

/-- Settles O39: each read is `returnField` of its field, one micro-step from IDLE. -/
theorem readsReturnTheirField : Obligations.ReadsReturnTheirField := by
  refine ⟨rfl, rfl, rfl, rfl, rfl, rfl, rfl, fun s hi =>
    ⟨fun p hp => ?_, zext8_oneBit _, fun h => zext8_mode h.block.mode⟩⟩
  simp only [List.mem_cons, List.not_mem_nil, or_false] at hp
  rcases hp with rfl | rfl | rfl | rfl | rfl | rfl | rfl
  all_goals exact ⟨_, returnField_idle hi _, rfl, rfl, rfl, rfl, rfl, rfl, rfl, rfl, rfl⟩

/-! ### WR.f (R189 to R195) -/

/-- Settles O40: each write is `writeRecord` of the record with one field replaced. -/
theorem writesSetTheirField : Obligations.WritesSetTheirField := by
  intro s b v
  have hbutton : encode (.wrButton1 b) = 0x380000#24 ||| b.setWidth 24 := by
    rw [← setWidth_oneBit b]
    exact mkWord_operand 0x38#8 _
  refine ⟨hbutton, mkWord_operand 0x3A#8 v, mkWord_operand 0x3B#8 v, mkWord_operand 0x3C#8 v,
    mkWord_operand 0x3D#8 v, mkWord_operand 0x3E#8 v, fun _ => decode_wrButton1_reserved, fun hi p hp => ?_⟩
  simp only [List.mem_cons, List.not_mem_nil, or_false] at hp
  rcases hp with rfl | rfl | rfl | rfl | rfl | rfl
  all_goals exact ⟨_, writeRecord_idle hi _, rfl, rfl, rfl, rfl, rfl, rfl, rfl, rfl, rfl⟩

/-- A write of a legal mode is a write like the others (R190). -/
theorem exec_wrDrivemode_idle {s : State} (hi : Idle s) {m : BitVec 2} (hm : m ≠ 3#2) :
    exec (.wrDrivemode m) s = .next ((s.setSsr { s.ssr with drivemode := m }).finish .done) :=
  (if_neg hm).trans (writeRecord_idle hi _)

theorem exec_wrDrivemode_three (s : State) : exec (.wrDrivemode 3#2) s = .refused .reservedMode := by
  rw [exec, execWrDrivemode, if_pos rfl]

/-- Settles O41: the mode written decides, not the current one; the decoder refuses 3 before the operation does. -/
theorem drivemodeTakesThreeValuesOnly : Obligations.DrivemodeTakesThreeValuesOnly :=
  ⟨fun _ _ hi hm => ⟨_, exec_wrDrivemode_idle hi hm, rfl, rfl, rfl, rfl, rfl, rfl, rfl, rfl, rfl⟩,
    fun s => ⟨exec_wrDrivemode_three s, fire_command_reserved decode_drivemode_three s⟩⟩

/-! ### a read after a write (R201) -/

/-- From IDLE a write that replaces one byte of the record's image leaves that image, and IDLE. -/
theorem writeRecord_image {r : Ssr} {s t : State} (hi : Idle s) (h : writeRecord r s = .next t) {k : Nat} {v : Byte}
    (hr : r.image = s.ssr.image.set k v) : Idle t ∧ t.ssr.image = s.ssr.image.set k v := by
  rw [writeRecord_idle hi] at h
  injection h with h
  subst h
  exact ⟨rfl, hr⟩

/-- No step of the other agents but power-on touches the record or the sequencer (R48, R201). -/
theorem fire_keeps_record {e : Event} {s t : State} (ha : e.agent ≠ .consumer) (hp : isPowerOn e = false)
    (h : fire e s = .next t) : t.ssr = s.ssr ∧ t.seq = s.seq := by
  cases e with
  | producer w => obtain ⟨hring, -⟩ := fire_producer_frame h; rw [hring]; exact ⟨rfl, rfl⟩
  | busDone => injection h with h; subst h; exact ⟨s.busDone_ssr, s.busDone_seq⟩
  | txDone => injection h with h; subst h; exact ⟨s.txDone_ssr, s.txDone_seq⟩
  | obsRead f => rw [observe_frame h]; exact ⟨rfl, rfl⟩
  | serialConfigured => injection h with h; subst h; exact ⟨s.configureSerial_ssr, s.configureSerial_seq⟩
  | powerOn d => exact nomatch hp
  | command w | consumer | pseudo p => exact absurd rfl ha

theorem fireAll_keeps_record {es : List Event} (hes : ∀ e ∈ es, e.agent ≠ .consumer ∧ isPowerOn e = false)
    {s u : State} (h : fireAll es s = .next u) : u.ssr = s.ssr ∧ u.seq = s.seq := by
  induction es generalizing s with
  | nil => injection h with h; rw [h]; exact ⟨rfl, rfl⟩
  | cons e es ih =>
    rw [List.forall_mem_cons] at hes
    obtain ⟨⟨ha, hp⟩, hrest⟩ := hes
    rw [fireAll] at h
    cases hf : fire e s with
    | next t =>
      rw [hf] at h
      obtain ⟨hssr, hseq⟩ := fire_keeps_record ha hp hf
      obtain ⟨hssr', hseq'⟩ := ih hrest h
      exact ⟨hssr'.trans hssr, hseq'.trans hseq⟩
    | fault f => exact nomatch f
    | refused r => rw [hf] at h; exact nomatch h

theorem fieldNumber_read_inj {g g' : Instr} (hg : g ∈ recordReads) (hg' : g' ∈ recordReads)
    (h : fieldNumber (encode g) = fieldNumber (encode g')) : g = g' := by
  have hinj : ∀ g ∈ recordReads, ∀ g' ∈ recordReads, fieldNumber (encode g) = fieldNumber (encode g') → g = g' := by
    decide
  exact hinj g hg g' hg' h

/-- Two reads of the same byte return the same value, in whatever IDLE states they are made. -/
theorem exec_read_congr {g : Instr} (hg : g ∈ recordReads) {s u : State} (hs : Idle s) (hu : Idle u)
    (h : u.ssr.field (fieldNumber (encode g)) = s.ssr.field (fieldNumber (encode g))) :
    ∃ x y, exec g u = .next x ∧ exec g s = .next y ∧ x.ports.rsp = y.ports.rsp := by
  obtain ⟨v, hv, hx⟩ := exec_read_idle hg hu
  obtain ⟨w, hw, hy⟩ := exec_read_idle hg hs
  obtain rfl : v = w := Option.some.inj (hv.symm.trans (h.trans hw))
  exact ⟨_, _, hx, hy, rfl⟩

/-- Where one byte of the record's image is replaced, that field's read returns the new byte and every other
read what it returned before. -/
theorem reads_of_image_set {s u : State} (hs : Idle s) (hu : Idle u) {rd : Instr} (hrd : rd ∈ recordReads) {v : Byte}
    (himage : u.ssr.image = s.ssr.image.set (fieldNumber (encode rd)).toNat v) :
    (∃ x, exec rd u = .next x ∧ x.ports.rsp = .value v) ∧
    ∀ g ∈ recordReads, g ≠ rd → ∃ x y, exec g u = .next x ∧ exec g s = .next y ∧ x.ports.rsp = y.ports.rsp := by
  refine ⟨?_, fun g hg hne => exec_read_congr hg hs hu ?_⟩
  · obtain ⟨w, hw, hx⟩ := exec_read_idle hrd hu
    obtain ⟨_, hold, -⟩ := exec_read_idle hrd hs
    rw [← Ssr.image_getElem?] at hold hw
    obtain ⟨hlt, -⟩ := List.getElem?_eq_some_iff.1 hold
    rw [himage, List.getElem?_set_self hlt] at hw
    exact ⟨_, hx, congrArg Response.value (Option.some.inj hw).symm⟩
  · have hnum : (fieldNumber (encode rd)).toNat ≠ (fieldNumber (encode g)).toNat := fun he =>
      hne (fieldNumber_read_inj hrd hg (BitVec.eq_of_toNat_eq he)).symm
    rw [← Ssr.image_getElem?, ← Ssr.image_getElem?, himage, List.getElem?_set_ne hnum]

/-- Settles O42: a write replaces one byte of the record's image, and the steps between keep the record. -/
theorem readAfterWriteReturnsTheValue : Obligations.ReadAfterWriteReturnsTheValue := by
  intro s t u es b m v hi hes p hp hw hu
  obtain ⟨hssr, hseq⟩ := fireAll_keeps_record hes hu
  have hwritten : p.2.1 ∈ recordReads ∧ Idle t ∧
      t.ssr.image = s.ssr.image.set (fieldNumber (encode p.2.1)).toNat p.2.2 := by
    simp only [List.mem_cons, List.not_mem_nil, or_false] at hp
    rcases hp with rfl | rfl | rfl | rfl | rfl | rfl | rfl
    all_goals dsimp only
    case inr.inl => exact ⟨by decide, writeRecord_image hi (execWrDrivemode_cases hw).2 rfl⟩
    all_goals exact ⟨by decide, writeRecord_image (r := _) hi hw rfl⟩
  obtain ⟨hread, hidle, himage⟩ := hwritten
  exact reads_of_image_set hi (show u.seq.cop = none from hseq ▸ hidle) hread (hssr ▸ himage)

/-! ### the observer (R196, R98) -/

theorem observe_field {s : State} {f : BitVec 3} {v : Byte} (h : s.ssr.field f = some v) :
    fire (.obsRead f) s = .next (s.setPorts { s.ports with oVal := some v }) := by
  simp only [fire, observe, h]

theorem observe_noField {s : State} {f : BitVec 3} (h : s.ssr.field f = none) :
    fire (.obsRead f) s = .refused .noSuchField := by
  simp only [fire, observe, h]

/-- Settles O43: the record's field decides, and no part of the state but the record is read. -/
theorem observerReadsAnyFieldAnyTime : Obligations.ObserverReadsAnyFieldAnyTime := by
  refine fun s => ⟨fun p hp => ?_, observe_noField rfl⟩
  simp only [List.mem_cons, List.not_mem_nil, or_false] at hp
  rcases hp with rfl | rfl | rfl | rfl | rfl | rfl | rfl
  all_goals exact observe_field rfl

/-! ### CYCLE (R200, R106) -/

/-- The mode a read returned is the mode that was stored. -/
theorem setWidth_zext8_mode (m : BitVec 2) : (zext8 m).setWidth 2 = m := by
  revert m; decide

/-- The state with CYCLE's items pending. -/
def State.cycleStarted (s : State) : State := s.setEnv { s.env with pending := [.op .rdDrivemode, .writeNextMode] }

/-- After the read of CYCLE. -/
def State.cycleRead (s : State) : State :=
  (s.setEnv { s.env with pending := [.writeNextMode] }).finish (.value (zext8 s.ssr.drivemode))

/-- After the write of CYCLE. -/
def State.cycled (s : State) : State :=
  ((s.cycleRead.setEnv { s.env with pending := [] }).setSsr
    { s.ssr with drivemode := nextMode s.ssr.drivemode }).finish .done

theorem fire_cycleStarted {s : State} (hi : Idle s) : fire .consumer s.cycleStarted = .next s.cycleRead :=
  (fire_consumer_due (s := s.cycleStarted) hi rfl rfl).trans
    (returnField_idle (s := s.setEnv { s.env with pending := [.writeNextMode] }) hi _)

/-- The item that waited for the read is `WR.drivemode` of the mode after the stored one. -/
theorem cycleRead_due (s : State) :
    MainOp.writeNextMode.due s.cycleRead.lastByte = some (.wrDrivemode (nextMode s.ssr.drivemode)) :=
  congrArg (fun m => some (Instr.wrDrivemode (nextMode m))) (setWidth_zext8_mode s.ssr.drivemode)

theorem fire_cycleRead (s : State) : fire .consumer s.cycleRead = .next s.cycled :=
  (fire_consumer_due (s := s.cycleRead) rfl rfl (cycleRead_due s)).trans
    (exec_wrDrivemode_idle (s := s.cycleRead.setEnv { s.env with pending := [] }) rfl (nextMode_ne_three _))

/-- Settles O44: the write takes the mode from `c_rsp`, where the read has just put it. -/
theorem cycleStepsTheMode : Obligations.CycleStepsTheMode :=
  ⟨fun s hi hp _ => ⟨s.cycleStarted, s.cycleRead, s.cycled, fire_pseudo_idle rfl hi hp, fire_cycleStarted hi,
    fire_cycleRead s, rfl, rfl, rfl, rfl, rfl, rfl, rfl, rfl⟩, rfl, rfl, rfl⟩

end Sys2Proof.Machine

/-! SUPPORT. The pin driver: what PINCFG does from IDLE, and on which pins it is refused (43_pin.md R211,
R212). -/

namespace Sys2Proof.Machine

/-- Settles O45: from IDLE the one micro-step configures the pin, which touches no other, and returns. -/
theorem pincfgSetsDirectionAndLevelTogether : Obligations.PincfgSetsDirectionAndLevelTogether := by
  refine fun s p l => ⟨rfl, fun hi hok => ?_⟩
  exact ⟨(s.configureOutput p l).finish .done, exec_pincfg_idle hi hok, State.pin_setPin_same s p _,
    fun q hq => s.pin_configureOutput_other l hq, rfl, rfl, rfl, rfl, rfl, rfl, rfl, rfl⟩

/-- The pins of the bus by their ids (R35, R212). -/
theorem isBusPin_iff (p : Byte) : isBusPin p = true ↔ p = 0#8 ∨ p = 1#8 ∨ p = 2#8 := by
  simp [isBusPin, Config.pinBusData, Config.pinBusClk, Config.pinBusCs, or_assoc]

/-- Settles O46: c1 tests whether the bus owns the pin, and both outcomes of the test are an answer. -/
theorem pincfgIsRefusedForOwnedPinsOnly : Obligations.PincfgIsRefusedForOwnedPinsOnly := by
  intro s p l hi
  rw [← isBusPin_iff, ← Bool.and_eq_true]
  cases howned : s.bus.ctl.en && isBusPin p with
  | false =>
    have hnext := exec_pincfg_idle (l := l) hi howned
    exact ⟨by simp [hnext], fun _ => ⟨_, hnext⟩⟩
  | true =>
    obtain ⟨hen, hbus⟩ := Bool.and_eq_true_iff.1 howned
    refine ⟨iff_of_true (exec_pincfg_refused hi howned) rfl, ?_⟩
    rintro (hoff | hfree)
    · exact absurd (hoff.symm.trans hen) Bool.false_ne_true
    · exact absurd hbus hfree

end Sys2Proof.Machine

/-! SUPPORT. The transmitter: what changes the serial link, the bytes handed to it, and TXBYTE along a run
(44_serial_tx.md R221 to R223, R231 to R233). -/

namespace Sys2Proof.Machine

/-! ### the transmit engine (R223) -/

theorem State.txDoneEnabled_iff (s : State) :
    s.txDoneEnabled = true ↔ s.ser.busy = true ∧ s.ser.ctl.txen = true := by
  rw [State.txDoneEnabled, Bool.and_eq_true]

theorem State.txDone_enabled {s : State} (h : s.txDoneEnabled = true) : s.txDone =
    s.setSer { s.ser with trace := s.ser.trace ++ [s.ser.txdat], busy := false, txrdy := true } := if_pos h

theorem State.txDone_disabled {s : State} (h : s.txDoneEnabled ≠ true) : s.txDone = s := if_neg h

/-- Settles O48: whether the engine is enabled decides what its step does. -/
theorem transmitEngineSendsOneByte : Obligations.TransmitEngineSendsOneByte := by
  intro s
  rw [← s.txDoneEnabled_iff]
  exact ⟨s.txDone, rfl, State.txDone_enabled, State.txDone_disabled⟩

/-! ### what changes the serial link -/

theorem State.taken_seq (s : State) : s.taken.seq = s.seq := by
  obtain ⟨inputs, tick, ht⟩ := s.taken_eq
  rw [ht]; rfl

theorem State.taken_ser (s : State) : s.taken.ser = s.ser := by
  obtain ⟨inputs, tick, ht⟩ := s.taken_eq
  rw [ht]; rfl

/-- The serial link is changed by the t2 of the TXBYTE in flight, the engine, boot and power-on alone (R48). -/
theorem fire_ser_cases {e : Event} {s t : State} (hf : fire e s = .next t) :
    (e = .consumer ∧ (∃ ch, s.seq.cop = some (.txbyte ch)) ∧ s.seq.cphase = 2 ∧
      t.ser = (s.writeTxdat s.seq.tCh).ser) ∨
    (e = .txDone ∧ t.ser = s.txDone.ser) ∨ (e = .serialConfigured ∧ t.ser = s.configureSerial.ser) ∨
    (∃ d, e = .powerOn d ∧ t = s.powerOn d) ∨ t.ser = s.ser := by
  rcases fire_cases hf with ⟨env, rfl, -⟩ | ⟨b, w, -, -, hx⟩ | ⟨i, he, hc, hx⟩ | ⟨i, env, -, hidle, -, -, hx⟩ |
    ⟨-, rfl⟩ | ⟨he, rfl⟩ | ⟨f, -, ho⟩ | ⟨he, rfl⟩ | ⟨d, he, rfl⟩
  · exact .inr (.inr (.inr (.inr rfl)))
  · injection hx with hx
    exact .inr (.inr (.inr (.inr (hx ▸ (Pushed.one s b).ser))))
  · obtain ⟨ch, rfl, hp, rfl⟩ | hser := exec_ser_cases hx
    · obtain ⟨-, hk⟩ := phaseOf_inflight (by decide) hp
      exact .inl ⟨he, ⟨ch, hc⟩, hk, rfl⟩
    · exact .inr (.inr (.inr (.inr hser)))
  · obtain ⟨ch, rfl, hp, -⟩ | hser := exec_ser_cases hx
    · exact absurd ((State.phaseOf_idle hidle _).symm.trans hp) (by decide)
    · exact .inr (.inr (.inr (.inr hser)))
  · exact .inr (.inr (.inr (.inr s.busDone_ser)))
  · exact .inr (.inl ⟨he, rfl⟩)
  · obtain ⟨v, -, rfl⟩ := observe_cases ho
    exact .inr (.inr (.inr (.inr rfl)))
  · exact .inr (.inr (.inl ⟨he, rfl⟩))
  · exact .inr (.inr (.inr (.inl ⟨d, he, rfl⟩)))

/-! ### the bytes handed over (R231, R232) -/

theorem SeqOk.txbyte_iff {s : State} {ch : Byte} (hc : s.seq.cop = some (.txbyte ch)) : SeqOk s ↔
    1 ≤ s.seq.cphase ∧ s.seq.cphase ≤ 3 ∧ s.seq.tCh = ch ∧ (s.seq.cphase = 2 → s.ser.txrdy = true) := by
  rw [SeqOk, hc]

/-- A transmitter that is ready holds no byte. -/
theorem SerialOk.not_busy {s : State} (h : SerialOk s) (hr : s.ser.txrdy = true) : s.ser.busy = false := by
  obtain ⟨-, -, hb⟩ | ⟨-, hb⟩ := h
  · exact hb
  · rw [hb, hr]; rfl

/-- The collaborator turns on a link that holds no byte, so it forgets none. -/
theorem SerialOk.configureSerial_busy {s : State} (h : SerialOk s) : s.configureSerial.ser.busy = s.ser.busy := by
  unfold State.configureSerial
  split
  · next hoff =>
    obtain ⟨-, -, hb⟩ | ⟨hon, -⟩ := h
    · exact hb.symm
    · exact absurd (hoff.symm.trans hon) (by decide)
  · rfl

theorem State.handedOver_of_ser {s t : State} (h : t.ser = s.ser) : t.handedOver = s.handedOver := by
  rw [State.handedOver, State.handedOver, h]

theorem State.handedOver_writeTxdat {s : State} (hb : s.ser.busy = false) (d : Byte) :
    (s.writeTxdat d).handedOver = s.handedOver ++ [d] := by
  simp [State.handedOver, hb]

/-- The engine moves the byte it holds onto the line, behind those already there. -/
theorem State.handedOver_txDone (s : State) : s.txDone.handedOver = s.handedOver := by
  by_cases hen : s.txDoneEnabled = true
  · obtain ⟨hb, -⟩ := s.txDoneEnabled_iff.1 hen
    rw [State.txDone_enabled hen]
    simp [State.handedOver, hb]
  · rw [State.txDone_disabled hen]

theorem SerialOk.handedOver_configureSerial {s : State} (h : SerialOk s) :
    s.configureSerial.handedOver = s.handedOver := by
  obtain ⟨-, htrace, hdat⟩ := s.configureSerial_frame
  rw [State.handedOver, State.handedOver, htrace, hdat, h.configureSerial_busy]

/-- t2 appends the operand: TXBYTE comes to it only when the transmitter is ready. -/
theorem fire_handedOver_t2 {ch : Byte} {s t : State} (h : Inv s) (hc : s.seq.cop = some (.txbyte ch))
    (hk : s.seq.cphase = 2) (hf : fire .consumer s = .next t) : t.handedOver = s.handedOver ++ [ch] := by
  obtain ⟨-, -, hch, hrdy⟩ := (SeqOk.txbyte_iff hc).1 h.block.seq
  rw [fire_consumer_busy hc, exec_txbyte_t2 (hk ▸ State.phaseOf_same hc)] at hf
  injection hf with hf
  rw [← hf, ← hch]
  exact State.handedOver_writeTxdat (h.block.serial.not_busy (hrdy hk)) _

theorem fire_handedOver_kept {e : Event} {s t : State} (h : Inv s) (hf : fire e s = .next t)
    (hon : isPowerOn e = false)
    (ht2 : ¬ (e = .consumer ∧ (∃ ch, s.seq.cop = some (.txbyte ch)) ∧ s.seq.cphase = 2)) :
    t.handedOver = s.handedOver := by
  obtain ⟨he, hc, hk, -⟩ | ⟨-, hser⟩ | ⟨-, hser⟩ | ⟨d, rfl, -⟩ | hser := fire_ser_cases hf
  · exact absurd ⟨he, hc, hk⟩ ht2
  · exact (State.handedOver_of_ser hser).trans s.handedOver_txDone
  · exact (State.handedOver_of_ser hser).trans h.block.serial.handedOver_configureSerial
  · exact nomatch hon
  · exact State.handedOver_of_ser hser

theorem fire_trace_grows {e : Event} {s t : State} (hf : fire e s = .next t) (hon : isPowerOn e = false) :
    s.ser.trace <+: t.ser.trace := by
  obtain ⟨-, -, -, hser⟩ | ⟨-, hser⟩ | ⟨-, hser⟩ | ⟨d, rfl, -⟩ | hser := fire_ser_cases hf
  · rw [hser, State.writeTxdat_ser]
  · rw [hser, State.txDone_ser]
    split
    · exact ⟨[s.ser.txdat], rfl⟩
    · rfl
  · obtain ⟨-, htrace, -⟩ := s.configureSerial_frame
    rw [hser, htrace]
  · exact nomatch hon
  · rw [hser]

theorem fire_handedOver_powerOn {e : Event} {s t : State} (hf : fire e s = .next t) (hon : isPowerOn e = true) :
    t.handedOver = [] := by
  obtain ⟨d, rfl⟩ := eq_powerOn_of_isPowerOn hon
  injection hf with hf
  rw [← hf]
  rfl

/-- Settles O49: what each event does to the bytes handed over; taking the event off the inputs touches
neither the link nor the sequencer. -/
theorem transmittedBytesKeepTheirOrder : Obligations.TransmittedBytesKeepTheirOrder := by
  intro s t h hs
  rw [step_eq] at hs
  rw [← s.taken_seq, ← s.taken_ser, ← State.handedOver_of_ser s.taken_ser]
  refine ⟨fire_handedOver_powerOn hs, fun ch he hc hk => ?_, fire_handedOver_kept h.taken hs, fire_trace_grows hs⟩
  rw [he] at hs
  exact fire_handedOver_t2 h.taken hc hk hs

/-! ### TXBYTE from IDLE (R221, R222) -/

/-- After t1 of TXBYTE, with `k` the micro-step that is due next: 2 once TXRDY was read as 1, else t1 again. -/
def State.afterT1 (s : State) (ch : Byte) (k : Nat) : State :=
  (s.setSeq { s.seq with tCh := ch }).goto (.txbyte ch) k

/-- After t2 of a TXBYTE that found the transmitter ready. -/
def State.afterT2 (s : State) (ch : Byte) : State := ((s.afterT1 ch 2).writeTxdat ch).goto (.txbyte ch) 3

/-- After the TXBYTE has returned. -/
def State.sentByte (s : State) (ch : Byte) : State := (s.afterT2 ch).finish .done

theorem exec_txbyte_ready {s : State} {ch : Byte} (h : s.phaseOf (.txbyte ch) = some 1)
    (hr : s.ser.txrdy = true) : exec (.txbyte ch) s = .next (s.afterT1 ch 2) := by
  rw [exec_txbyte_t1 h, hr]; rfl

theorem exec_txbyte_notReady {s : State} {ch : Byte} (h : s.phaseOf (.txbyte ch) = some 1)
    (hr : s.ser.txrdy = false) : exec (.txbyte ch) s = .next (s.afterT1 ch 1) := by
  rw [exec_txbyte_t1 h, hr]; rfl

theorem exec_afterT1 (s : State) (ch : Byte) : exec (.txbyte ch) (s.afterT1 ch 2) = .next (s.afterT2 ch) :=
  exec_txbyte_t2 (State.phaseOf_goto _ _ _)

theorem exec_afterT2 (s : State) (ch : Byte) : exec (.txbyte ch) (s.afterT2 ch) = .next (s.sentByte ch) :=
  exec_txbyte_t3 (State.phaseOf_goto _ _ _)

theorem State.sentByte_ser (s : State) (ch : Byte) :
    (s.sentByte ch).ser = { s.ser with txdat := ch, txrdy := false, busy := true } := by
  simp [State.sentByte, State.afterT2, State.afterT1]

/-- What a TXBYTE leaves: it touches TXDAT, TXRDY, `tx_busy`, the sequencer and the completion alone. -/
theorem State.sentByte_frame (s : State) (ch : Byte) : Idle (s.sentByte ch) ∧
    (s.sentByte ch).ports = { s.ports with rsp := .done } ∧ (s.sentByte ch).ring = s.ring ∧
    (s.sentByte ch).ssr = s.ssr ∧ (s.sentByte ch).pins = s.pins ∧ (s.sentByte ch).bus = s.bus ∧
    (s.sentByte ch).size = s.size ∧ (s.sentByte ch).env = s.env := by
  simp [Idle, State.sentByte, State.afterT2, State.afterT1]

/-- The engine puts the byte handed over on the line, when it is on. -/
theorem State.sentByte_txDone {s : State} {ch : Byte} (hon : s.ser.ctl.txen = true) :
    (s.sentByte ch).txDone.ser.trace = s.ser.trace ++ [ch] ∧ (s.sentByte ch).txDone.ser.txrdy = true := by
  have hen : (s.sentByte ch).txDoneEnabled = true := by
    rw [State.txDoneEnabled_iff, State.sentByte_ser]
    exact ⟨rfl, hon⟩
  rw [State.txDone_enabled hen, State.setSer_ser, State.sentByte_ser]
  exact ⟨rfl, rfl⟩

/-- Settles O47: t1 branches on TXRDY; from there t2 and t3 follow, or t1 again with nothing to change. -/
theorem txbyteWaitsThenHandsOver : Obligations.TxbyteWaitsThenHandsOver := by
  refine fun s ch => ⟨mkWord_operand 0x50#8 ch, fun hi hr => ?_, fun hi hr => ?_⟩
  · exact ⟨s.afterT1 ch 2, s.afterT2 ch, s.sentByte ch, exec_txbyte_ready (State.phaseOf_idle hi _) hr,
      exec_afterT1 s ch, exec_afterT2 s ch, rfl, s.sentByte_ser ch, rfl, State.sentByte_txDone,
      s.sentByte_frame ch⟩
  · exact ⟨s.afterT1 ch 1, exec_txbyte_notReady (State.phaseOf_idle hi _) hr,
      exec_txbyte_notReady (s := s.afterT1 ch 1) (State.phaseOf_goto _ _ _) hr, rfl, rfl, rfl⟩

/-! ### TXBYTE along a run (R233) -/

/-- A TXBYTE is in flight and the transmitter is on. -/
structure Sending (ch : Byte) (s : State) : Prop where
  inFlight : s.seq.cop = some (.txbyte ch)
  on       : s.ser.ctl.txen = true

/-- How far a TXBYTE is from its end: two for each micro-step left, one for a transmitter that is not
ready. It is 7 exactly while the TXBYTE waits at t1. -/
def txDistance (s : State) : Nat := 2 * (4 - s.seq.cphase) + (if s.ser.txrdy then 0 else 1)

/-- The operation has ended, or the TXBYTE is nearer to its end than `d`. -/
def TxNearer (ch : Byte) (d : Nat) (s : State) : Prop :=
  s.seq.cop = none ∨ (Sending ch s ∧ txDistance s < d)

theorem SerialOk.busy_of_on {s : State} (h : SerialOk s) (hon : s.ser.ctl.txen = true) :
    s.ser.busy = !s.ser.txrdy := by
  obtain ⟨hoff, -, -⟩ | ⟨-, hb⟩ := h
  · rw [hoff] at hon; exact nomatch hon
  · exact hb

theorem txDistance_eq_seven_iff {ch : Byte} {s : State} (hq : SeqOk s) (h : Sending ch s) :
    txDistance s = 7 ↔ s.seq.cphase = 1 ∧ s.ser.txrdy = false := by
  obtain ⟨h1, h3, -, -⟩ := (SeqOk.txbyte_iff h.inFlight).1 hq
  rw [txDistance]
  cases s.ser.txrdy with
  | true =>
    rw [if_pos rfl]
    exact iff_of_false (by omega) (fun hwait => nomatch hwait.2)
  | false =>
    rw [if_neg Bool.false_ne_true]
    exact ⟨fun hd => ⟨by omega, rfl⟩, fun ⟨hk, _⟩ => by omega⟩

theorem SerialOk.txDoneEnabled_of_on {s : State} (h : SerialOk s) (hon : s.ser.ctl.txen = true)
    (hr : s.ser.txrdy = false) : s.txDoneEnabled = true := by
  rw [State.txDoneEnabled_iff, h.busy_of_on hon, hr]
  exact ⟨rfl, hon⟩

theorem Sending.of_eq {ch : Byte} {s t : State} (h : Sending ch s) (hseq : t.seq = s.seq) (hser : t.ser = s.ser) :
    TxNearer ch (txDistance s + 1) t := by
  refine .inr ⟨⟨hseq ▸ h.inFlight, hser ▸ h.on⟩, ?_⟩
  rw [txDistance, txDistance, hseq, hser]
  exact Nat.lt_succ_self _

/-- The consumer's turn leaves a TXBYTE that waits at t1 there, and takes any other nearer to its end. -/
theorem Sending.exec {ch : Byte} {s t : State} (h : Sending ch s) (hq : SeqOk s)
    (hx : exec (.txbyte ch) s = .next t) :
    (txDistance s = 7 ∧ t = s.afterT1 ch 1) ∨ TxNearer ch (txDistance s) t := by
  obtain ⟨h1, h3, -, -⟩ := (SeqOk.txbyte_iff h.inFlight).1 hq
  have hphase : s.phaseOf (.txbyte ch) = some s.seq.cphase := State.phaseOf_same h.inFlight
  obtain hk | hk | hk : s.seq.cphase = 1 ∨ s.seq.cphase = 2 ∨ s.seq.cphase = 3 := by omega
  all_goals rw [hk] at hphase
  · cases hr : s.ser.txrdy with
    | true =>
      rw [exec_txbyte_ready hphase hr] at hx
      injection hx with hx
      subst hx
      exact .inr (.inr ⟨⟨rfl, h.on⟩, by simp [txDistance, State.afterT1, hk]⟩)
    | false =>
      rw [exec_txbyte_notReady hphase hr] at hx
      injection hx with hx
      exact .inl ⟨(txDistance_eq_seven_iff hq h).2 ⟨hk, hr⟩, hx.symm⟩
  · rw [exec_txbyte_t2 hphase] at hx
    injection hx with hx
    subst hx
    refine .inr (.inr ⟨⟨rfl, h.on⟩, ?_⟩)
    change 3 < txDistance s
    rw [txDistance, hk]
    exact Nat.lt_add_right _ (by decide)
  · rw [exec_txbyte_t3 hphase] at hx
    injection hx with hx
    subst hx
    exact .inr (.inl rfl)

/-- TX.DONE takes a TXBYTE that waits at t1 nearer to its end. -/
theorem Sending.txDone_nearer {ch : Byte} {s : State} (h : Sending ch s) (hi : Inv s) (hd : txDistance s = 7) :
    TxNearer ch (txDistance s) s.txDone := by
  obtain ⟨-, hr⟩ := (txDistance_eq_seven_iff hi.block.seq h).1 hd
  rw [State.txDone_enabled (hi.block.serial.txDoneEnabled_of_on h.on hr)]
  exact .inr ⟨⟨h.inFlight, h.on⟩, by simp [txDistance, hr]⟩

/-- The engine's step takes no TXBYTE away from its end. -/
theorem Sending.txDone {ch : Byte} {s : State} (h : Sending ch s) : TxNearer ch (txDistance s + 1) s.txDone := by
  by_cases hen : s.txDoneEnabled = true
  · rw [State.txDone_enabled hen]
    exact .inr ⟨⟨h.inFlight, h.on⟩, by simp [txDistance]⟩
  · rw [State.txDone_disabled hen]
    exact h.of_eq rfl rfl

theorem State.configureSerial_of_txen {s : State} (hon : s.ser.ctl.txen = true) : s.configureSerial = s :=
  if_neg fun hoff => by rw [hoff] at hon; exact nomatch hon

/-- No event takes a TXBYTE away from its end. -/
theorem Sending.fire {e : Event} {ch : Byte} {s t : State} (h : Sending ch s) (hi : Inv s)
    (hf : fire e s = .next t) : TxNearer ch (txDistance s + 1) t := by
  rcases fire_cases hf with ⟨env, rfl, -⟩ | ⟨b, w, -, -, hx⟩ | ⟨i, -, hc, hx⟩ | ⟨i, env, -, hidle, -⟩ |
    ⟨-, rfl⟩ | ⟨-, rfl⟩ | ⟨f, -, ho⟩ | ⟨-, rfl⟩ | ⟨d, -, rfl⟩
  · exact h.of_eq rfl rfl
  · injection hx with hx
    exact hx ▸ h.of_eq (Pushed.one s b).seq (Pushed.one s b).ser
  · obtain rfl : Instr.txbyte ch = i := Option.some.inj (h.inFlight.symm.trans hc)
    obtain ⟨hd, rfl⟩ | hend | ⟨hsend, hlt⟩ := h.exec hi.block.seq hx
    · obtain ⟨-, hr⟩ := (txDistance_eq_seven_iff hi.block.seq h).1 hd
      exact .inr ⟨⟨rfl, h.on⟩, by rw [hd]; simp [txDistance, State.afterT1, hr]⟩
    · exact .inl hend
    · exact .inr ⟨hsend, Nat.lt_succ_of_lt hlt⟩
  · exact nomatch h.inFlight.symm.trans hidle
  · exact h.of_eq s.busDone_seq s.busDone_ser
  · exact h.txDone
  · obtain ⟨v, -, rfl⟩ := observe_cases ho
    exact h.of_eq rfl rfl
  · rw [State.configureSerial_of_txen h.on]
    exact h.of_eq rfl rfl
  · exact .inl rfl

/-- A TXBYTE is in flight, at distance `d` from its end. -/
def SendingAt (ch : Byte) (d : Nat) (s : State) : Prop := Sending ch s ∧ txDistance s = d

/-- Under both fairness premises a TXBYTE in flight gets nearer to its end: TX.DONE comes while it waits at t1,
and otherwise the consumer's turn comes. -/
theorem exists_txNearer {ev : Nat → Event} {run : Nat → State} {ch : Byte} (hrun : IsRun ev run)
    (h : Inv (run 0)) (htx : TxResponds ev run) (hcons : ConsumerRuns ev) {k : Nat} (hs : Sending ch (run k)) :
    ∃ n, TxNearer ch (txDistance (run k)) (run n) := by
  have hinv := hrun.inv h
  have hstep (n : Nat) (hn : SendingAt ch (txDistance (run k)) (run n)) :
      SendingAt ch (txDistance (run k)) (run (n + 1)) ∨ TxNearer ch (txDistance (run k)) (run (n + 1)) := by
    obtain ⟨hsn, hd⟩ := hn
    rw [← hd]
    obtain hend | ⟨hsend, hle⟩ := hsn.fire (hinv n) (hrun n)
    · exact .inr (.inl hend)
    · exact (Nat.lt_succ_iff_lt_or_eq.1 hle).symm.imp (fun heq => ⟨hsend, heq⟩) (fun hlt => .inr ⟨hsend, hlt⟩)
  by_cases hwait : txDistance (run k) = 7
  · obtain ⟨-, hr⟩ := (txDistance_eq_seven_iff (hinv k).block.seq hs).1 hwait
    obtain ⟨j, hkj, hj⟩ := htx k ((hinv k).block.serial.txDoneEnabled_of_on hs.on hr)
    refine exists_of_persists hstep (fun n hn hat => ?_) hkj hj ⟨hs, rfl⟩
    obtain ⟨hsn, hd⟩ := hat
    have hf := hrun n
    rw [hn] at hf
    injection hf with hf
    rw [← hf, ← hd]
    exact hsn.txDone_nearer (hinv n) (hd.trans hwait)
  · obtain ⟨j, hkj, hj⟩ := hcons k
    refine exists_of_persists hstep (fun n hn hat => ?_) hkj hj ⟨hs, rfl⟩
    obtain ⟨hsn, hd⟩ := hat
    have hf := hrun n
    rw [hn, fire_consumer_busy hsn.inFlight] at hf
    obtain ⟨hwait', -⟩ | hnear := hsn.exec (hinv n).block.seq hf
    · exact absurd (hd.symm.trans hwait') hwait
    · exact hd ▸ hnear

/-- UCTL's image holds TXEN (R40). -/
theorem UCtl.txen_of_image {c : UCtl} (h : c.image = 0b111#8) : c.txen = true := by
  obtain ⟨-, -, huctl, -⟩ := registerImagesHoldTheirFields
  obtain ⟨-, htxen, -⟩ := huctl c
  rw [← htxen, h]
  rfl

/-- Settles O50: by induction on the distance to the end. -/
theorem txbyteReturnsIfTheTransmitterResponds : Obligations.TxbyteReturnsIfTheTransmitterResponds := by
  intro ev run ch hrun h htx hcons hctl hc
  have hends (d : Nat) : ∀ k, SendingAt ch d (run k) → ∃ n, (run n).seq.cop = none := by
    induction d using Nat.strong_induction_on with
    | _ d ih =>
      rintro k ⟨hs, rfl⟩
      obtain ⟨n, hend | ⟨hsend, hlt⟩⟩ := exists_txNearer hrun h htx hcons hs
      · exact ⟨n, hend⟩
      · exact ih _ hlt n ⟨hsend, rfl⟩
  exact hends _ 0 ⟨⟨hc, UCtl.txen_of_image hctl⟩, rfl⟩

end Sys2Proof.Machine

/-! SUPPORT. The numerals and the pseudo-instructions that send bytes: TXSTR, TXUNS, TXSGN (44_serial_tx.md
R225 to R230). -/

namespace Sys2Proof.Machine

/-! ### digits (R226) -/

theorem digit_toNat_decimal {d : Nat} (h : d < 10) : (digit d).toNat = 0x30 + d := by
  rw [digit, if_pos h, BitVec.toNat_ofNat, Nat.mod_eq_of_lt (by omega)]

theorem digit_toNat_letter {d : Nat} (h10 : 10 ≤ d) (h36 : d < 36) : (digit d).toNat = 0x61 + (d - 10) := by
  rw [digit, if_neg (by omega), BitVec.toNat_ofNat, Nat.mod_eq_of_lt (by omega)]

theorem digitValue_digit {d : Nat} (h : d < 36) : digitValue (digit d) = d := by
  rw [digitValue]
  rcases Nat.lt_or_ge d 10 with h10 | h10
  · rw [digit_toNat_decimal h10, if_pos (by omega)]; omega
  · rw [digit_toNat_letter h10 h, if_neg (by omega)]; omega

/-! ### the recursion (R227) -/

theorem legalBase_iff (base : Nat) : legalBase base = true ↔ 2 ≤ base ∧ base ≤ 36 := by
  rw [legalBase, Bool.and_eq_true, decide_eq_true_iff, decide_eq_true_iff]

theorem fmtUnsignedIn_call (calls value base : Nat) : fmtUnsignedIn (calls + 1) value base =
    if base ≤ value then fmtUnsignedIn calls (value / base) base ++ [digit (value % base)] else [digit value] := rfl

/-- A bound that the numeral does not reach may as well be one more. -/
theorem fmtUnsignedIn_succ {base : Nat} (hbase : 0 < base) (calls : Nat) {value : Nat}
    (h : value < base ^ (calls + 1)) : fmtUnsignedIn (calls + 1) value base = fmtUnsignedIn calls value base := by
  induction calls generalizing value with
  | zero =>
    rw [Nat.zero_add, Nat.pow_one] at h
    rw [fmtUnsignedIn_call, if_neg (Nat.not_le.2 h), fmtUnsignedIn]
  | succ calls ih =>
    have hquot : value / base < base ^ (calls + 1) := (Nat.div_lt_iff_lt_mul hbase).2 (by rwa [← Nat.pow_succ])
    rw [fmtUnsignedIn_call, ih hquot, ← fmtUnsignedIn_call]

/-- 16 calls are enough for a 16-bit value, so the bound does not show. -/
theorem fmtUnsigned_eq {value base : Nat} (hv : value < 65536) (hbase : 2 ≤ base) : fmtUnsigned value base =
    if base ≤ value then fmtUnsigned (value / base) base ++ [digit (value % base)] else [digit value] := by
  have hquot : value / base < base ^ 16 :=
    calc value / base ≤ value := Nat.div_le_self ..
      _ < 2 ^ 16 := hv
      _ ≤ base ^ 16 := Nat.pow_le_pow_left hbase 16
  have hsucc : fmtUnsigned (value / base) base = fmtUnsignedIn 15 (value / base) base :=
    fmtUnsignedIn_succ (by omega) 15 hquot
  rw [hsucc]
  rfl

theorem expand_txuns {base : Nat} (h : legalBase base = true) (value : BitVec 16) :
    expand (.txuns value base) = .ok (sendAll (fmtUnsigned value.toNat base)) := if_pos h

/-- Settles O51: the recursion, the digits and the expansion are a lemma each. -/
theorem unsignedFormatFollowsTheRecursion : Obligations.UnsignedFormatFollowsTheRecursion :=
  ⟨fun _ _ hv h2 _ => fmtUnsigned_eq hv h2, fun _ => digit_toNat_decimal, fun _ => digit_toNat_letter,
    fun value _ h2 h36 => expand_txuns ((legalBase_iff _).2 ⟨h2, h36⟩) value⟩

/-! ### reading a numeral back (R228) -/

/-- What holds of every numeral of one digit, and of a numeral with one more digit when it holds of that of
the quotient, holds of every 16-bit value's numeral. -/
theorem fmtUnsigned_induction {base : Nat} (hbase : 2 ≤ base) {motive : Nat → List Byte → Prop}
    (one : ∀ d, d < base → motive d [digit d])
    (more : ∀ value bytes, base ≤ value → motive (value / base) bytes →
      motive value (bytes ++ [digit (value % base)]))
    (value : Nat) (hv : value < 65536) : motive value (fmtUnsigned value base) := by
  induction value using Nat.strong_induction_on with
  | _ value ih =>
    rw [fmtUnsigned_eq hv hbase]
    split
    · next hle =>
      have hlt : value / base < value := Nat.div_lt_self (by omega) hbase
      exact more value _ hle (ih _ hlt (hlt.trans hv))
    · next hlt => exact one value (by omega)

theorem numeralValue_concat (base : Nat) (ds : List Nat) (d : Nat) :
    numeralValue base (ds ++ [d]) = numeralValue base ds * base + d := by
  rw [numeralValue, numeralValue, List.foldl_concat]

theorem numeralValue_fmtUnsigned {value base : Nat} (hv : value < 65536) (h2 : 2 ≤ base) (h36 : base ≤ 36) :
    numeralValue base ((fmtUnsigned value base).map digitValue) = value := by
  refine fmtUnsigned_induction h2 (motive := fun v bytes => numeralValue base (bytes.map digitValue) = v)
    (fun d hd => ?_) (fun v bytes _ ih => ?_) value hv
  · rw [List.map_singleton, digitValue_digit (by omega)]
    simp [numeralValue]
  · have hrem : v % base < base := Nat.mod_lt _ (by omega)
    rw [List.map_append, List.map_singleton, numeralValue_concat, ih, digitValue_digit (by omega)]
    exact Nat.div_add_mod' v base

theorem length_fmtUnsigned {value base : Nat} (hv : value < 65536) (h2 : 2 ≤ base) :
    (fmtUnsigned value base).length = Nat.log base value + 1 := by
  refine fmtUnsigned_induction h2 (motive := fun v bytes => bytes.length = Nat.log base v + 1)
    (fun d hd => ?_) (fun v bytes hle ih => ?_) value hv
  · rw [Nat.log_of_lt hd, List.length_singleton]
  · rw [List.length_append, List.length_singleton, ih, ← Nat.log_of_one_lt_of_le h2 hle]

theorem digitValue_lt_of_mem_fmtUnsigned {value base : Nat} (hv : value < 65536) (h2 : 2 ≤ base) (h36 : base ≤ 36) :
    ∀ c ∈ fmtUnsigned value base, digitValue c < base := by
  refine fmtUnsigned_induction h2 (motive := fun _ bytes => ∀ c ∈ bytes, digitValue c < base)
    (fun d hd => ?_) (fun v bytes _ ih => ?_) value hv
  · rw [List.forall_mem_singleton, digitValue_digit (by omega)]
    exact hd
  · have hrem : v % base < base := Nat.mod_lt _ (by omega)
    rw [List.forall_mem_append, List.forall_mem_singleton, digitValue_digit (by omega)]
    exact ⟨ih, hrem⟩

/-- Settles O52: each of the three by induction on the quotients. -/
theorem numeralReadsBackAsItsValue : Obligations.NumeralReadsBackAsItsValue :=
  fun _ _ hv h2 h36 => ⟨numeralValue_fmtUnsigned hv h2 h36, length_fmtUnsigned hv h2,
    digitValue_lt_of_mem_fmtUnsigned hv h2 h36⟩

/-! ### the sign (R229) -/

/-- The magnitude of a negative value, `(0 - value) mod 2^16` (R229). -/
theorem toNat_neg_of_msb {value : BitVec 16} (h : value.msb = true) :
    (0#16 - value).toNat = value.toInt.natAbs := by
  have hmsb := BitVec.msb_eq_true_iff_two_mul_ge.1 h
  rw [BitVec.toInt_eq_msb_cond, if_pos h, BitVec.toNat_sub, BitVec.toNat_zero]
  omega

theorem toNat_of_not_msb {value : BitVec 16} (h : value.msb = false) : value.toNat = value.toInt.natAbs := by
  rw [BitVec.toInt_eq_toNat_of_msb h, Int.natAbs_natCast]

theorem fmtSigned_eq (value : BitVec 16) (base : Nat) : fmtSigned value base =
    if value.toInt < 0 then 0x2D#8 :: fmtUnsigned value.toInt.natAbs base
    else fmtUnsigned value.toInt.natAbs base := by
  rw [fmtSigned]
  cases h : value.msb with
  | true => rw [if_pos rfl, if_pos (BitVec.toInt_neg_of_msb_true h), toNat_neg_of_msb h]
  | false =>
    rw [if_neg Bool.false_ne_true, if_neg (not_lt.2 (BitVec.toInt_nonneg_of_msb_false h)), toNat_of_not_msb h]

theorem expand_txsgn {base : Nat} (h : legalBase base = true) (value : BitVec 16) :
    expand (.txsgn value base) = .ok (sendAll (fmtSigned value base)) := if_pos h

/-- Settles O53: the sign bit decides, and the magnitude loses nothing in 16 bits. -/
theorem signedFormatSendsTheSignFirst : Obligations.SignedFormatSendsTheSignFirst :=
  fun value _ h2 h36 => ⟨fmtSigned_eq value _, expand_txsgn ((legalBase_iff _).2 ⟨h2, h36⟩) value⟩

/-! ### strings and refusals (R225, R230) -/

theorem beforeTerminator_append {before : List Byte} (h : 0#8 ∉ before) (after : List Byte) :
    beforeTerminator (before ++ 0#8 :: after) = some before := by
  induction before with
  | nil => rfl
  | cons b rest ih =>
    obtain ⟨hb, hrest⟩ := not_or.1 (mt List.mem_cons.2 h)
    rw [List.cons_append, beforeTerminator, if_neg (Ne.symm hb), ih hrest]
    rfl

theorem beforeTerminator_eq_none {bytes : List Byte} (h : 0#8 ∉ bytes) : beforeTerminator bytes = none := by
  induction bytes with
  | nil => rfl
  | cons b rest ih =>
    obtain ⟨hb, hrest⟩ := not_or.1 (mt List.mem_cons.2 h)
    rw [beforeTerminator, if_neg (Ne.symm hb), ih hrest]
    rfl

/-- A pseudo-instruction that has no expansion is refused, also while the main loop is busy. -/
theorem fire_pseudo_refused {p : Pseudo} {r : Refusal} (h : expand p = .error r) (s : State) :
    fire (.pseudo p) s = .refused r := by
  simp only [fire, startPseudo, h]

/-- Settles O54: what follows the first 0x00 is not looked at, and without one there is no expansion. -/
theorem stringIsSentUpToItsTerminator : Obligations.StringIsSentUpToItsTerminator := by
  refine ⟨fun before after h => ?_, fun bytes s h => fire_pseudo_refused ?_ s⟩
  · rw [expand, beforeTerminator_append h]
    rfl
  · rw [expand, beforeTerminator_eq_none h]

/-- Settles O55: an illegal base has no expansion. -/
theorem illegalBaseIsRefused : Obligations.IllegalBaseIsRefused := by
  intro s value base h
  have hillegal : ¬ legalBase base = true := by
    rw [legalBase_iff]
    omega
  exact ⟨fire_pseudo_refused (p := .txuns value base) (if_neg hillegal) s,
    fire_pseudo_refused (p := .txsgn value base) (if_neg hillegal) s⟩

end Sys2Proof.Machine

/-! SUPPORT. What coincides with a byte arrival and what a step declines: PUSH beside the two engines and
the observer (60_exceptions.md R260), and the reasons each event has to refuse (R250, R268). -/

namespace Sys2Proof.Machine

/-! ### PUSH beside the engines and the observer (R260) -/

/-- The ring buffer after a PUSH (R121, R122). -/
theorem State.pushed_ring (s : State) (b : Byte) : (s.pushed b).ring =
    if s.isFull then { s.ring with storage := s.ring.storage.write s.tailIdx b }
    else { s.ring with storage := s.ring.storage.write s.tailIdx b, tail := nextIdx s.slots s.tailIdx } :=
  State.commit_ring _

/-- What a PUSH leaves in the ring buffer depends on the ring buffer and N alone. -/
theorem State.pushed_eq_of {s t : State} (hn : t.size = s.size) (hr : t.ring = s.ring) (b : Byte) :
    t.pushed b = t.setRing (s.pushed b).ring := by
  have hfull : t.isFull = s.isFull := by
    simp only [State.isFull, State.slots_of_size hn, State.headIdx_eq_of hn hr, State.tailIdx_eq_of hn hr]
  have hring : (t.pushed b).ring = (s.pushed b).ring := by
    rw [t.pushed_ring, s.pushed_ring, hfull, hr, State.slots_of_size hn, State.tailIdx_eq_of hn hr]
  rw [t.pushed_eq, hring]

theorem State.busDone_setRing (s : State) (x : Ring) : (s.setRing x).busDone = s.busDone.setRing x := by
  unfold State.busDone
  rw [show (s.setRing x).busDoneEnabled = s.busDoneEnabled from rfl]
  split <;> rfl

theorem State.txDone_setRing (s : State) (x : Ring) : (s.setRing x).txDone = s.txDone.setRing x := by
  unfold State.txDone
  rw [show (s.setRing x).txDoneEnabled = s.txDoneEnabled from rfl]
  split <;> rfl

theorem State.pushed_busDone (s : State) (b : Byte) : s.busDone.pushed b = (s.pushed b).busDone :=
  calc s.busDone.pushed b
      = s.busDone.setRing (s.pushed b).ring := State.pushed_eq_of s.busDone_size s.busDone_ring b
    _ = (s.setRing (s.pushed b).ring).busDone := (s.busDone_setRing _).symm
    _ = (s.pushed b).busDone := congrArg State.busDone (s.pushed_eq b).symm

theorem State.pushed_txDone (s : State) (b : Byte) : s.txDone.pushed b = (s.pushed b).txDone :=
  calc s.txDone.pushed b
      = s.txDone.setRing (s.pushed b).ring := State.pushed_eq_of s.txDone_size s.txDone_ring b
    _ = (s.setRing (s.pushed b).ring).txDone := (s.txDone_setRing _).symm
    _ = (s.pushed b).txDone := congrArg State.txDone (s.pushed_eq b).symm

/-- The observer reads the record, which a PUSH leaves, and writes `o_val`, which a PUSH does not read. -/
theorem observe_pushed {f : BitVec 3} {s u : State} (h : observe f s = .next u) (b : Byte) :
    observe f (s.pushed b) = .next (u.pushed b) := by
  obtain ⟨v, hv, rfl⟩ := observe_cases h
  have hu := State.pushed_eq_of (s := s) (t := s.setPorts { s.ports with oVal := some v }) rfl rfl b
  rw [hu, s.pushed_eq b]
  exact observe_field (s := s.setRing (s.pushed b).ring) hv

/-- Settles O27: a PUSH reads and writes the ring buffer, which the other three neither read nor write. -/
theorem pushCommutesWithEnginesAndObserver : Obligations.PushCommutesWithEnginesAndObserver := by
  intro s t b h
  injection h with h
  subst h
  exact ⟨congrArg _ (s.pushed_busDone b), congrArg _ (s.pushed_txDone b),
    fun f u hu => ⟨u.pushed b, rfl, observe_pushed hu b⟩⟩

/-! ### which meanings refuse (R268) -/

theorem execAvail_ne_refused (s : State) (r : Refusal) : execAvail s ≠ .refused r := by
  unfold execAvail
  split <;> exact nofun

theorem execPop_ne_refused (s : State) (r : Refusal) : execPop s ≠ .refused r := by
  unfold execPop
  split
  case h_3 => split <;> exact nofun
  all_goals exact nofun

theorem execBusinit_ne_refused (s : State) (r : Refusal) : execBusinit s ≠ .refused r := by
  unfold execBusinit
  split <;> exact nofun

theorem returnField_ne_refused (x : Byte) (s : State) (r : Refusal) : returnField x s ≠ .refused r := by
  unfold returnField State.whenIdle
  split <;> exact nofun

theorem writeRecord_ne_refused (x : Ssr) (s : State) (r : Refusal) : writeRecord x s ≠ .refused r := by
  unfold writeRecord State.whenIdle
  split <;> exact nofun

theorem execTxbyte_ne_refused (ch : Byte) (s : State) (r : Refusal) : execTxbyte ch s ≠ .refused r := by
  unfold execTxbyte
  split <;> exact nofun

/-- BUSSEND refuses at s1 alone (R157). -/
theorem execBussend_refused {a v : Byte} {s : State} {r : Refusal} (h : execBussend a v s = .refused r) :
    s.phaseOf (.bussend a v) = some 1 ∧ s.busReady = false ∧ r = .busNotInitialised := by
  unfold execBussend at h
  split at h
  case h_2 hp =>
    split at h
    · exact nomatch h
    · next hr =>
      injection h with h
      exact ⟨hp, Bool.eq_false_iff.2 hr, h.symm⟩
  case h_4 | h_6 => split at h <;> exact nomatch h
  all_goals exact nomatch h

/-- PINCFG refuses a bus pin from IDLE alone (R212). -/
theorem execPincfg_refused {p : Byte} {l : Level} {s : State} {r : Refusal} (h : execPincfg p l s = .refused r) :
    Idle s ∧ s.bus.ctl.en = true ∧ isBusPin p = true ∧ r = .busPinOwned := by
  unfold execPincfg State.whenIdle at h
  split at h
  · next hi =>
    dsimp only at h
    split at h
    · next howned =>
      injection h with h
      obtain ⟨hen, hp⟩ := Bool.and_eq_true_iff.1 howned
      exact ⟨hi, hen, hp, h.symm⟩
    · exact nomatch h
  · exact nomatch h

/-- `WR.drivemode` refuses the value 3 alone (R190). -/
theorem execWrDrivemode_refused {v : BitVec 2} {s : State} {r : Refusal} (h : execWrDrivemode v s = .refused r) :
    v = 3#2 := by
  unfold execWrDrivemode at h
  split at h
  · next hv => exact hv
  · exact absurd h (writeRecord_ne_refused _ s r)

/-- The three operations that can refuse: BUSSEND at s1, PINCFG of an owned pin, and the write of the mode
that has no word. -/
theorem exec_refused_cases {i : Instr} {s : State} {r : Refusal} (h : exec i s = .refused r) :
    (∃ a v, i = .bussend a v ∧ s.phaseOf i = some 1 ∧ s.busReady = false ∧ r = .busNotInitialised) ∨
    (∃ p l, i = .pincfg p l ∧ Idle s ∧ s.bus.ctl.en = true ∧ isBusPin p = true ∧ r = .busPinOwned) ∨
    i = .wrDrivemode 3#2 := by
  cases i with
  | push b => exact nomatch h
  | avail => exact absurd h (execAvail_ne_refused s r)
  | pop => exact absurd h (execPop_ne_refused s r)
  | businit => exact absurd h (execBusinit_ne_refused s r)
  | bussend a v => exact .inl ⟨a, v, rfl, execBussend_refused h⟩
  | rdButton1 | rdDrivemode | rdJoyx | rdJoyy | rdSpeedknob | rdLeds | rdFlash =>
    exact absurd h (returnField_ne_refused _ s r)
  | wrDrivemode v => exact .inr (.inr (congrArg Instr.wrDrivemode (execWrDrivemode_refused h)))
  | wrButton1 v | wrJoyx v | wrJoyy v | wrSpeedknob v | wrLeds v | wrFlash v =>
    exact absurd h (writeRecord_ne_refused _ s r)
  | pincfg p l => exact .inr (.inl ⟨p, l, rfl, execPincfg_refused h⟩)
  | txbyte ch => exact absurd h (execTxbyte_ne_refused ch s r)

/-- An operation in flight does not refuse: a BUSSEND is past s1, and the other two are never in flight. -/
theorem SeqOk.exec_ne_refused {s : State} (h : SeqOk s) {i : Instr} (hc : s.seq.cop = some i) (r : Refusal) :
    exec i s ≠ .refused r := by
  intro hx
  rcases exec_refused_cases hx with ⟨a, v, rfl, hp, -⟩ | ⟨p, l, -, hidle, -⟩ | rfl
  · rw [State.phaseOf_same hc] at hp
    injection hp with hp
    obtain ⟨hlow, -⟩ := (SeqOk.bussend_iff hc).1 h
    omega
  · exact nomatch hc.symm.trans hidle
  · unfold SeqOk at h
    rw [hc] at h
    exact h.elim

/-! ### which events refuse (R99, R100, R98, R225, R230) -/

theorem fire_producer_refused {w : Word} {s : State} {r : Refusal} (h : fire (.producer w) s = .refused r) :
    (∃ q, decode w = .error q ∧ r = .reservedWord q) ∨
    (∃ i, decode w = .ok i ∧ i.port = .consumer ∧ r = .wrongPort) := by
  cases hw : decode w with
  | error q =>
    rw [fire_producer_reserved hw] at h
    injection h with h
    exact .inl ⟨q, rfl, h.symm⟩
  | ok i =>
    by_cases hpush : ∃ b, i = .push b
    · obtain ⟨b, rfl⟩ := hpush
      rw [fire_producer_push hw] at h
      exact nomatch h
    · have hp : i.port = .consumer := port_eq_consumer fun b hb => hpush ⟨b, hb⟩
      rw [fire_producer_wrongPort hw hp] at h
      injection h with h
      exact .inr ⟨i, rfl, hp, h.symm⟩

theorem fire_command_refused {w : Word} {s : State} {r : Refusal} (h : fire (.command w) s = .refused r) :
    (∃ q, decode w = .error q ∧ r = .reservedWord q) ∨
    (∃ i, decode w = .ok i ∧ i.port = .producer ∧ r = .wrongPort) ∨
    (∃ i, decode w = .ok i ∧ Idle s ∧ exec i s.settled = .refused r) := by
  cases hw : decode w with
  | error q =>
    rw [fire_command_reserved hw] at h
    injection h with h
    exact .inl ⟨q, rfl, h.symm⟩
  | ok i =>
    by_cases hpush : ∃ b, i = .push b
    · obtain ⟨b, rfl⟩ := hpush
      rw [fire_command_wrongPort hw] at h
      injection h with h
      exact .inr (.inl ⟨_, rfl, rfl, h.symm⟩)
    · have hp : i.port = .consumer := port_eq_consumer fun b hb => hpush ⟨b, hb⟩
      by_cases hc : s.seq.cop = none
      · rw [fire_command_idle hw hp hc] at h
        exact .inr (.inr ⟨i, rfl, hc, h⟩)
      · rw [fire_command_busy hw hp hc] at h
        exact nomatch h

/-- The consumer's turn refuses where the item it issues does: what is in flight does not. -/
theorem fire_consumer_refused {s : State} {r : Refusal} (hq : SeqOk s) (h : fire .consumer s = .refused r) :
    ∃ m rest i, s.env.pending = m :: rest ∧ m.due s.lastByte = some i ∧ Idle s ∧
      exec i (s.setEnv { s.env with pending := rest }) = .refused r := by
  cases hc : s.seq.cop with
  | some i =>
    rw [fire_consumer_busy hc] at h
    exact absurd h (hq.exec_ne_refused hc r)
  | none =>
    cases hp : s.env.pending with
    | nil =>
      rw [fire_consumer_idle hc hp] at h
      exact nomatch h
    | cons m rest =>
      cases hd : m.due s.lastByte with
      | none =>
        rw [fire_consumer_skip hc hp hd] at h
        exact nomatch h
      | some i =>
        rw [fire_consumer_due hc hp hd] at h
        exact ⟨m, rest, i, rfl, hd, hc, h⟩

theorem expand_of_fire_refused {p : Pseudo} {s : State} {r : Refusal} (h : fire (.pseudo p) s = .refused r) :
    expand p = .error r := by
  cases he : expand p with
  | error q =>
    rw [fire_pseudo_refused he] at h
    injection h with h
    rw [h]
  | ok ops =>
    simp only [fire, startPseudo, he] at h
    split at h <;> exact nomatch h

theorem not_mem_of_beforeTerminator_eq_none {bytes : List Byte} (h : beforeTerminator bytes = none) :
    0#8 ∉ bytes := by
  intro hmem
  obtain ⟨before, after, rfl, hbefore⟩ := List.eq_append_cons_of_mem hmem
  rw [beforeTerminator_append hbefore] at h
  exact nomatch h

/-- A pseudo-instruction has no expansion for two reasons (R225, R230). -/
theorem expand_error_cases {p : Pseudo} {r : Refusal} (h : expand p = .error r) :
    (∃ v b, (p = .txuns v b ∨ p = .txsgn v b) ∧ (b < 2 ∨ 36 < b) ∧ r = .badBase) ∨
    (∃ bytes, p = .txstr bytes ∧ 0#8 ∉ bytes ∧ r = .unterminatedString) := by
  cases p with
  | txstr bytes =>
    simp only [expand] at h
    split at h
    · exact nomatch h
    · next hnone =>
      injection h with h
      exact .inr ⟨bytes, rfl, not_mem_of_beforeTerminator_eq_none hnone, h.symm⟩
  | txuns v b | txsgn v b =>
    simp only [expand] at h
    split at h
    · exact nomatch h
    · next hbase =>
      injection h with h
      rw [legalBase_iff] at hbase
      exact .inl ⟨v, b, by simp, by omega, h.symm⟩
  | getc | reflect f | cycle => exact nomatch h

/-- The observer's port refuses field 7 alone (R98). -/
theorem observe_refused {f : BitVec 3} {s : State} {r : Refusal} (h : observe f s = .refused r) :
    f = 7#3 ∧ r = .noSuchField := by
  unfold observe at h
  split at h
  · exact nomatch h
  · next hnone =>
    injection h with h
    rw [← Ssr.image_getElem?, List.getElem?_eq_none_iff] at hnone
    have hlow : 7 ≤ f.toNat := hnone
    exact ⟨by bv_omega, h.symm⟩

/-! ### what a step declines (R250, R268) -/

/-- An operation that has a word refuses for two reasons, each of them a state of the bus. -/
theorem exec_refused_of_wf {i : Instr} {s : State} {r : Refusal} (hw : i.wf = true) (h : exec i s = .refused r) :
    (∃ a v, i = .bussend a v ∧ s.busReady = false ∧ r = .busNotInitialised) ∨
    (∃ p l, i = .pincfg p l ∧ s.bus.ctl.en = true ∧ isBusPin p = true ∧ r = .busPinOwned) := by
  rcases exec_refused_cases h with ⟨a, v, rfl, -, hr⟩ | ⟨p, l, rfl, -, hr⟩ | rfl
  · exact .inl ⟨a, v, rfl, hr⟩
  · exact .inr ⟨p, l, rfl, hr⟩
  · exact nomatch hw

/-- The operation presented from IDLE refuses for a reason of the bus, which the world around the block
does not touch (R157, R212). -/
theorem Presents.refused {s : State} {i : Instr} {env : Env} {r : Refusal} (hp : Presents s i) (hi : Idle s)
    (hw : i.wf = true) (h : exec i (s.setEnv env) = .refused r) :
    (∃ a v, Presents s (.bussend a v) ∧ Idle s ∧ s.busReady = false ∧ r = .busNotInitialised) ∨
    (∃ p l, Presents s (.pincfg p l) ∧ Idle s ∧ s.bus.ctl.en = true ∧ isBusPin p = true ∧ r = .busPinOwned) := by
  rcases exec_refused_of_wf hw h with ⟨a, v, rfl, hr⟩ | ⟨p, l, rfl, hr⟩
  · exact .inl ⟨a, v, hp, hi, hr⟩
  · exact .inr ⟨p, l, hp, hi, hr⟩

/-- Settles O8: no fault exists, and each event refuses for the reasons of its own lemma; the two reasons of
an operation are those of the item or word presented from IDLE, since what is in flight does not refuse. -/
theorem stepRefusesOnlyWhereTheSpecDeclines : Obligations.StepRefusesOnlyWhereTheSpecDeclines := by
  refine ⟨fun _ f => (nomatch f), fun s r hinv h => ?_⟩
  obtain ⟨inputs, tick, ht⟩ := s.taken_eq
  rw [step_eq, ht] at h
  cases he : s.nextEvent with
  | producer w =>
    rw [he] at h
    rcases fire_producer_refused h with ⟨q, hw, hr⟩ | ⟨i, hw, hp, hr⟩
    · exact .inl ⟨w, q, .inl rfl, hw, hr⟩
    · exact .inr (.inl ⟨w, i, .inl ⟨rfl, hp⟩, hw, hr⟩)
  | command w =>
    rw [he] at h
    rcases fire_command_refused h with ⟨q, hw, hr⟩ | ⟨i, hw, hp, hr⟩ | ⟨i, hw, hi, hx⟩
    · exact .inl ⟨w, q, .inr rfl, hw, hr⟩
    · exact .inr (.inl ⟨w, i, .inr ⟨rfl, hp⟩, hw, hr⟩)
    · have hpres : Presents s i := .inl ⟨w, he, hw⟩
      rcases hpres.refused hi (encode_of_decode hw).2 hx with hbus | hpin
      · exact .inr (.inr (.inl hbus))
      · exact .inr (.inr (.inr (.inl hpin)))
  | consumer =>
    rw [he] at h
    obtain ⟨m, rest, i, hm, hd, hi, hx⟩ := fire_consumer_refused (ht ▸ hinv.taken.block.seq) h
    have hpres : Presents s i := .inr ⟨he, m, rest, hm, hd⟩
    have hwf : i.wf = true := (hinv.pending.due (hm ▸ List.mem_cons_self ..) hd).2
    rcases hpres.refused hi hwf hx with hbus | hpin
    · exact .inr (.inr (.inl hbus))
    · exact .inr (.inr (.inr (.inl hpin)))
  | pseudo p =>
    rw [he] at h
    rcases expand_error_cases (expand_of_fire_refused h) with ⟨v, b, hp, hb, hr⟩ | ⟨bytes, rfl, hmem, hr⟩
    · exact .inr (.inr (.inr (.inr (.inr (.inl ⟨v, b, hp.imp (congrArg _) (congrArg _), hb, hr⟩)))))
    · exact .inr (.inr (.inr (.inr (.inr (.inr ⟨bytes, rfl, hmem, hr⟩)))))
  | obsRead f =>
    rw [he] at h
    obtain ⟨rfl, hr⟩ := observe_refused h
    exact .inr (.inr (.inr (.inr (.inl ⟨rfl, hr⟩))))
  | busDone | txDone | serialConfigured | powerOn d =>
    rw [he] at h
    exact nomatch h

end Sys2Proof.Machine

/-! SUPPORT. Power-on reset as one event (10_state.md R49, 70_reset_and_hazards.md R280). -/

namespace Sys2Proof.Machine

/-- Settles O23: `State.powerOn` builds the block from `size` and the draw alone, and of the world around
the block it replaces only the pending items and the count of boots. -/
theorem powerOnForgetsEverything : Obligations.PowerOnForgetsEverything :=
  fun s d => ⟨s.powerOn d, rfl, rfl, rfl, rfl⟩

end Sys2Proof.Machine
